-- ==== Sys2Proof/Word.lean ====
section
/-! DEFINITION. The word types of the protocol engine (spec rules R7, R8, R10): every value is unsigned,
bit 0 is the least significant bit, and `+` and `-` wrap at the width of the register. -/

namespace Sys2Proof

/-- One line level or latch bit (CLK, ACK). -/
abbrev Bit := BitVec 1

/-- The level of DATA[2:0]; DATA[2] is bit 2 (R8). -/
abbrev Tri := BitVec 3

/-- A transferred byte, a status code, an 8-bit operand (`BYTE_W`, `STATUS_W` of R7). -/
abbrev Byte := BitVec 8

/-- A 16-bit register, operand or tick counter (`OFFSET_W`, `CRC_W`, `TICK_W` of R7). -/
abbrev Word := BitVec 16

end Sys2Proof
end

