-- ==== Sys2Proof/Config.lean ====
section
/-! DEFINITION. What an implementation of the engine fixes (rule R7, 92_eei_decisions.md section 5) and the free
values: constants with no body, so that nothing proved can rest on a particular value. -/

namespace Sys2Proof.Config

/-- `CRC16_UPDATE` (R131, D31): a total function of its two arguments, and nothing else is known of it. -/
opaque crc16Update : Word → Byte → Word

/-- The reset values of the six parameter registers (R36): OPEN. -/
opaque defWaitAck : Word
opaque defRecvDelay : Word
opaque defAliveDelay : Word
opaque defAliveRepeat : Word
opaque defResetPre : Word
opaque defResetHold : Word

/-- `RECV_DELAY_UNIT` (R7, D16): a duration, in nanoseconds here; no rule reads it. -/
opaque recvDelayUnit : Nat

/-- The seven status codes the spec leaves open (R79). -/
structure Codes where
  checksum : Byte
  crc16 : Byte
  clientTimeout : Byte
  clientAbort : Byte
  verify : Byte
  notAlive : Byte
  cmdError : Byte
deriving DecidableEq, Repr

def Codes.toList (c : Codes) : List Byte :=
  [c.checksum, c.crc16, c.clientTimeout, c.clientAbort, c.verify, c.notAlive, c.cmdError]

/-- The constraint of R79 and D17: pairwise distinct, none of them 0x00 to 0x04. -/
def Codes.legal (c : Codes) : Bool :=
  decide c.toList.Nodup && c.toList.all (fun x => decide (4 < x.toNat))

/-- The suggested values of R79, which meet the constraint. -/
def Codes.suggested : Codes :=
  { checksum := 0x05#8, crc16 := 0x06#8, clientTimeout := 0x07#8, clientAbort := 0x08#8,
    verify := 0x09#8, notAlive := 0x0A#8, cmdError := 0x0B#8 }

/-- An unconstrained draw of the seven codes. -/
opaque drawnCode : Nat → Byte

def drawnCodes : Codes :=
  { checksum := drawnCode 0, crc16 := drawnCode 1, clientTimeout := drawnCode 2,
    clientAbort := drawnCode 3, verify := drawnCode 4, notAlive := drawnCode 5, cmdError := drawnCode 6 }

/-- The seven open codes: any assignment that meets R79's constraint (a draw that breaks it is replaced by the
suggested one, so every legal assignment and no other is a value of `codes`). -/
def codes : Codes := if drawnCodes.legal then drawnCodes else Codes.suggested

opaque drawnVararg : Byte

/-- `VARARG` (R7, D32): any non-zero byte. -/
def vararg : Byte := if drawnVararg = 0#8 then 0xFF#8 else drawnVararg

opaque drawnGenInMax : Nat

/-- `GEN_IN_MAX` (R74, D32): any bound from 0 to 16. -/
def genInMax : Nat := min drawnGenInMax 16

/-- The Device's answer at a `Sample(ACK)` that the listed inputs do not cover (R21): free. -/
opaque freeAck : Nat → Bit

/-- The Device's answer at a `Sample(DATA)` that the listed inputs do not cover (R21): free. -/
opaque freeData : Nat → Tri

/-- What comes next where no schedule is listed, a step of one of the four agents of R5 or the assertion of `rst_n`
(R190): free (R61). -/
opaque freeAgent : Nat → Fin 5

/-- Which of its three moves a Host makes whose turn is not listed: free. -/
opaque freeHostMove : Nat → Fin 3

/-- The packet a Host offers whose turn is not listed: free. -/
opaque freePacket : Nat → List Byte

/-- The byte a Host answers a pull with, and the status it answers a pull or a push with, where its turn is not listed:
free, and no law ties the one to the other. -/
opaque freeHostByte : Nat → Byte
opaque freeHostStatus : Nat → Byte

/-- Which of its two lines a Device settles whose turn is not listed: free. -/
opaque freeDeviceMove : Nat → Fin 2

/-- An unspecified byte: what a failed receive returns (R113), a dead 8-bit register after a block reset (R36). -/
opaque freeByte : Nat → Byte

/-- An unspecified 16-bit register after a block reset (R36): `T100`, `T10MS`, `T0`, `T0A`, `STAB`, `BIDX`. -/
opaque freeWord : Nat → Word

/-- How many increments of `T100` have been counted towards the next one of `T10MS` after a block reset: free. -/
opaque freeDiv : Nat → Fin 100

end Sys2Proof.Config
end

