-- ==== Sys2Proof/Syntax.lean ====
section
/-! DEFINITION. The instructions: one constructor per row of spec/opcode_table.json, in the table's order.
Thirteen are the commands the Host hands the engine in packets (R73). The other four are what the engine puts
on the wires: the two dtvtrans frames with a fixed opcode (R84, R85) and the two encodings of a byte in four
phases (R82, R83). The engine runs a command by issuing frames and bytes, so the same `exec` gives all of them
their meaning. -/

namespace Sys2Proof

inductive Instr where
  /-- STATE_OFF (0x10, format F0, R101). -/
  | stateOff
  /-- STATE_SEND (0x11, F0, R102). -/
  | stateSend
  /-- STATE_RECV (0x12, F0, R103). -/
  | stateRecv
  /-- SEND_BYTE `b` (0x20, F1, R115). -/
  | sendByte (b : Byte)
  /-- RECV_BYTE (0x21, F0, R116). -/
  | recvByte
  /-- SEND_BYTE_BOOT `b` (0x22, F1, R117). -/
  | sendByteBoot (b : Byte)
  /-- IS_ALIVE `timeout`, in ticks of 10 ms (0x30, F2, R121). -/
  | isAlive (timeout : Word)
  /-- RESET_DEVICE `mode` (0x31, F1, R123). -/
  | resetDevice (mode : Byte)
  /-- GENERIC `cmd, out_size, [in...]` (0x40, FG, R145); `n_in` is the length of the list. -/
  | generic (cmd outSize : Byte) (ins : List Byte)
  /-- RECV_BLOCK `mode, bank, offset, length, crc` (0x41, FB, R135). -/
  | recvBlock (mode bank : Byte) (offset length crc : Word)
  /-- SEND_BLOCK `mode, bank, offset, length, crc` (0x42, FB, R134). -/
  | sendBlock (mode bank : Byte) (offset length crc : Word)
  /-- PARAM_WR `idx, val` (0x50, FP, R150). -/
  | paramWr (idx : Byte) (val : Word)
  /-- PARAM_RD `idx` (0x51, F1, R151). -/
  | paramRd (idx : Byte)
  /-- WIRE_READ: the read frame, wire opcode 0x01 (R85); the operands are its six header fields' bytes. -/
  | wireRead (mode bank : Byte) (offset length : Word)
  /-- WIRE_WRITE: the write frame, wire opcode 0x02 (R84). -/
  | wireWrite (mode bank : Byte) (offset length : Word)
  /-- WIRE_BYTE_NORMAL: one byte on the wires in normal mode, sent or received (R82). When the byte is
  received its bits come from the Device and the operand is not used. -/
  | wireByteNormal (b : Byte)
  /-- WIRE_BYTE_BOOT: one byte sent on the wires in boot mode (R83). -/
  | wireByteBoot (b : Byte)
deriving DecidableEq, Repr

end Sys2Proof
end

