-- ==== Sys2Proof/Machine/State.lean ====
section
/-! DEFINITION. The state of the protocol engine as plain data (10_state.md), the reasons a step can stop, and the
state after reset (rule R36). A register's docstring names its rule; a field marked MODEL is the model's own. -/

namespace Sys2Proof.Machine

/-- `LS` (R25): which lines the engine drives. Encoding 3 never occurs. -/
inductive LineState where
  | off | send | recv
deriving DecidableEq, Repr

/-- The number R25 and R80 give each line state; it is never visible in a packet. -/
def LineState.code : LineState → BitVec 2
  | .off => 0#2
  | .send => 1#2
  | .recv => 2#2

/-- `PHASE` (R34, 2 bits): the four phases of a byte (R81). -/
inductive Phase where
  | p1 | p2 | p3 | p4
deriving DecidableEq, Repr

/-- The six parameter registers by name (R27). -/
inductive Param where
  | waitAck | recvDelay | aliveDelay | aliveRepeat | resetPre | resetHold
deriving DecidableEq, Repr

/-- What the Host does in a step of its own (R5): it offers a command packet (R22) or answers a pull or a push (R23).
Reading the response changes nothing and needs no move. -/
inductive HostMove where
  | offer (packet : List Byte)
  | answerPull (b hst : Byte)
  | answerPush (hst : Byte)
deriving DecidableEq, Repr

/-- What the Device does in a step of its own (R5): it settles what a coming sample of ACK or DATA returns (R21). -/
inductive DeviceMove where
  | ack (v : Bit)
  | data (v : Tri)
deriving DecidableEq, Repr

/-- Whose step is next: one of the four agents (R5), or the input `rst_n` being asserted (R36, R190). -/
inductive Turn where
  | engine
  | timebase
  | host (m : HostMove)
  | device (m : DeviceMove)
  | blockReset
deriving DecidableEq, Repr

/-- What one step shows (R6 a, b; R12): the line event, sample or host-port exchange it made, if any. -/
inductive Event where
  | quiet
  /-- `D=v`: `Drive(DATA, v)`. -/
  | data (v : Tri)
  /-- `C=v`: `Drive(CLK, v)`. -/
  | clk (v : Bit)
  /-- A write of `DATA_OUT` by an assignment, not by `Drive` (R101, R123): a line event of R6 (a) that the notation of
  R12 does not print. -/
  | dataOut (v : Tri)
  /-- A write of `CLK_OUT` by an assignment (R101), not printed by R12. -/
  | clkOut (v : Bit)
  /-- A write of `ACK_OUT` (R123), not printed by R12. -/
  | ackOut (v : Bit)
  /-- One `Sample(ACK)` and its value. -/
  | sampleAck (v : Bit)
  /-- `S=v`: one `Sample(DATA)`. -/
  | sampleData (v : Tri)
  /-- `LS=Off|Send|Recv`. -/
  | line (l : LineState)
  /-- A change of `rst_oe`. -/
  | resetDrive (on : Bool)
  /-- A change of `ack_oe` and `data_oe` by the knock. -/
  | knock (on : Bool)
  /-- `pull->(b,s)`. -/
  | pull (b hst : Byte)
  /-- `push(b)->s`. -/
  | push (b hst : Byte)
  /-- `T+`: one increment of `T100`. -/
  | tick
  /-- `rst_n` was asserted. -/
  | blockReset
deriving DecidableEq, Repr

/-- One statement of a command's pseudocode. `SEQ` (R33) is the list of those still to run: the continuation of
the running command's pseudocode. Each costs one Engine step and makes at most one event (R5, D1). -/
inductive Micro where
  /-- Issue a frame or a byte: the next Engine step is `exec` of this instruction. -/
  | wire (i : Instr)
  /-- `LS <- l` (R101 to R103). -/
  | line (l : LineState)
  /-- `DATA_OUT <- v` (R101, R123). -/
  | latchData (v : Tri)
  /-- `CLK_OUT <- v` (R101). -/
  | latchClk (v : Bit)
  /-- `ACK_OUT <- v` (R123). -/
  | latchAck (v : Bit)
  /-- `RSTDRV <- on` (R123). -/
  | resetDrive (on : Bool)
  /-- `KNOCK <- on` (R123). -/
  | knock (on : Bool)
  /-- `Drive(DATA, ...)` of phase `k`: the group of `SR` that R82 or R83 (boot) puts on the bus. -/
  | txData (boot : Bool) (k : Phase)
  /-- `Drive(CLK, ...)` of phase `k` (R81). -/
  | phaseClk (k : Phase)
  /-- `T0 <- T100`, the first statement of `AckWait` and of `TickWait`. -/
  | snap
  /-- One poll of `AckWait` for the level and code of the current phase (R110). -/
  | ackPoll
  /-- `SettleDelay()` (R111). -/
  | settle
  /-- `d <- Sample(DATA)` and the bits of `SR` that the current phase takes (R113). -/
  | rxSample
  /-- The return of `SendByte`, `RecvByte` (`rx`) or `SendByteBoot`. -/
  | byteEnd (rx : Bool)
  /-- One test of `TickWait` on a parameter register (R120). -/
  | tickPoll (p : Param)
  /-- `T0A <- T10MS` (R121). -/
  | snapAlive
  /-- `Drive(CLK, level)`; `STAB <- 0` (R121). -/
  | aliveClk (level : Bit)
  /-- `while STAB < P_ALIVE_REPEAT` and the budget test of IS_ALIVE (R121). -/
  | aliveTest (level : Bit) (timeout : Word)
  /-- `a <- Sample(ACK)` and the stability count of IS_ALIVE (R121). -/
  | aliveSample (level : Bit) (timeout : Word)
  /-- `PST <- s`, and the abort path when `s` is not `ST_OK` (R176). -/
  | check
  /-- `BIDX <- 0`. -/
  | startData
  /-- Head of SEND_BLOCK's data loop of `n` bytes (R134). -/
  | sendLoop (n : Word)
  /-- `(b, h) <- HostPull()` (R134). -/
  | pull
  /-- SEND_BLOCK's accumulation of a byte that was sent (R134). -/
  | accSend (b : Byte)
  /-- `PST <- SendByte(CHK)` (R134). -/
  | sendChk
  /-- Head of RECV_BLOCK's data loop of `n` bytes (R135). -/
  | recvLoop (n : Word)
  /-- RECV_BLOCK's checksum of the byte received (R135). -/
  | accRecv
  /-- `h <- HostPush(b)` (R135). -/
  | push (b : Byte)
  /-- `DEVCHK <- ` the byte received (R134, R135). -/
  | latchDevchk
  /-- GENERIC's size prefix becomes the count (R145). -/
  | genSize
  /-- Head of GENERIC's output loop with `m` bytes left (R145). -/
  | genLoop (m : Byte)
  /-- One more output byte of GENERIC (R145). -/
  | genStore
  /-- `P[p] <- v` (R150). -/
  | paramWr (p : Param) (v : Word)
  /-- `LS <- Off`, which begins the `StateOff()` every exit of a compound command passes through (D24); where the abort
  path goes. -/
  | exit
  /-- `refuse` (R76). -/
  | refuse
  /-- `complete(ST_OK)`. -/
  | completeOk
  /-- `complete(s)`, `s` the status the last procedure returned. -/
  | completeRet
  /-- `RBYTE <- v; complete(s)` (R116). -/
  | completeRecv
  /-- `RWORD <- P[p]; complete(ST_OK)` (R151). -/
  | completeWord (p : Param)
  /-- `complete(PST)` with GENERIC's output (R145). -/
  | completeGeneric
  /-- `complete(BlockResult())` (R136). -/
  | completeBlock
deriving DecidableEq, Repr

/-- Output latches and line state (R24, R25). -/
structure Lines where
  /-- `LS`. -/
  ls : LineState
  /-- `DATA_OUT`, 3 bits. -/
  dataOut : Tri
  /-- `CLK_OUT`, 1 bit. -/
  clkOut : Bit
  /-- `ACK_OUT`, 1 bit. -/
  ackOut : Bit
  /-- `RSTDRV`. -/
  rstDrv : Bool
  /-- `KNOCK`. -/
  knock : Bool
deriving DecidableEq, Repr

/-- The tick counters (R26). -/
structure Timers where
  /-- `T100`, 16 bits. -/
  t100 : Word
  /-- `T10MS`, 16 bits. -/
  t10ms : Word
  /-- MODEL: increments of `T100` since the last one of `T10MS`; R26 implies it ("every 100th increment"). -/
  div : Fin 100
deriving DecidableEq, Repr

/-- The six parameter registers, 16 bits each (R27). -/
structure Params where
  /-- `P_WAIT_ACK`, index 0. -/
  waitAck : Word
  /-- `P_RECV_DELAY`, index 1. -/
  recvDelay : Word
  /-- `P_ALIVE_DELAY`, index 2. -/
  aliveDelay : Word
  /-- `P_ALIVE_REPEAT`, index 3. -/
  aliveRepeat : Word
  /-- `P_RESET_PRE`, index 4. -/
  resetPre : Word
  /-- `P_RESET_HOLD`, index 5. -/
  resetHold : Word
deriving DecidableEq, Repr

/-- The block scratch registers (R28). -/
structure Scratch where
  /-- `MODE`, 8 bits. -/
  mode : Byte
  /-- `BANK`, 8 bits. -/
  bank : Byte
  /-- `OFFSET`, 16 bits. -/
  offset : Word
  /-- `LENGTH`, 16 bits. -/
  length : Word
  /-- `CRC16`, 16 bits. -/
  crc16 : Word
  /-- `XFERLEN`, 16 bits. -/
  xferlen : Word
deriving DecidableEq, Repr

/-- The checksum and status latches (R29). -/
structure Latches where
  /-- `CHK`, 8 bits. -/
  chk : Byte
  /-- `DEVCHK`, 8 bits. -/
  devchk : Byte
  /-- `HST`, 8 bits. -/
  hst : Byte
  /-- `PST`, 8 bits. -/
  pst : Byte
deriving DecidableEq, Repr

/-- The response registers and the `done` pulse (R22, R30). -/
structure Response where
  /-- `BUSY`. -/
  busy : Bool
  /-- `ILL`. -/
  ill : Bool
  /-- `STATUS`, 8 bits. -/
  status : Byte
  /-- `RBYTE`, 8 bits. -/
  rbyte : Byte
  /-- `RWORD`, 16 bits. -/
  rword : Word
  /-- `OUTCNT`, 8 bits. -/
  outcnt : Byte
  /-- `OUTBUF[0..254]`. -/
  outbuf : Vector Byte 255
  /-- `done`: set for the one step in which a command ends. -/
  done : Bool
deriving DecidableEq, Repr

/-- The hidden registers (R34). -/
structure Hidden where
  /-- `T0`, 16 bits. -/
  t0 : Word
  /-- `T0A`, 16 bits. -/
  t0a : Word
  /-- `SR`, 8 bits. -/
  sr : Byte
  /-- `PHASE`, 2 bits. -/
  phase : Phase
  /-- `STAB`, 16 bits. -/
  stab : Word
  /-- `BIDX`, 16 bits. -/
  bidx : Word
deriving DecidableEq, Repr

/-- `SEQ` (R33): what is left of the running command, with the two local values of its pseudocode. -/
structure Sequencer where
  /-- The command packet taken last; its first byte is "the opcode of the running command". -/
  packet : List Byte
  /-- The statements still to run; empty when no command runs. -/
  todo : List Micro
  /-- The status the procedure that ran last returned (`s` of the pseudocode). -/
  retStatus : Byte
  /-- The byte `RecvByte()` returned (`v`, `b` of the pseudocode). -/
  retByte : Byte
  /-- MODEL: the output bytes of the running GENERIC, first byte first, which `complete` writes into `OUTBUF` and
  `OUTCNT` (R30, R77; log entry 12). -/
  out : List Byte
deriving DecidableEq, Repr

/-- MODEL: whose steps come next, and what the Host and the Device have given that the Engine has not taken yet, as data
(R5). A statement about every state is one about every schedule, every Device and every Host. -/
structure Env where
  /-- Whose steps come next; where the list ends, `freeTurn` decides. -/
  sched : List Turn
  /-- The command packets the Host offers, in order; none: it offers nothing now. -/
  packets : List (List Byte)
  /-- The Device's answers at the next `Sample(ACK)`s; where the list ends, `Config.freeAck` answers. -/
  ackIn : List Bit
  /-- The Device's answers at the next `Sample(DATA)`s; where the list ends, `Config.freeData` answers. -/
  dataIn : List Tri
  /-- The Host's answers `(byte, hst)` to the next `HostPull`s; none: it has not answered yet (R199). -/
  pullIn : List (Byte × Byte)
  /-- The Host's answers `hst` to the next `HostPush`es; none: it has not answered yet (R199). -/
  pushIn : List Byte
  /-- How many free values have been drawn. -/
  draws : Nat
  /-- No poll is owed: in a wait, the Engine has polled since `T100` last changed (polling density, R61 b). -/
  polled : Bool
  /-- The event of the step just made (R6). -/
  event : Event
deriving DecidableEq, Repr

/-- The state of the machine. -/
structure State where
  lines : Lines
  time : Timers
  par : Params
  blk : Scratch
  lat : Latches
  rsp : Response
  hid : Hidden
  seq : Sequencer
  env : Env
deriving DecidableEq, Repr

/-- Why a step stops the model. None of these is reached from a state that meets `Safety.SeqInv`. -/
inductive Fault where
  /-- Raised by a byte order (WIRE_BYTE_NORMAL, WIRE_BYTE_BOOT) issued in a line state that its procedure does not
  allow: R112 to R114 require Send or Recv and "the callers guarantee it". Safe: no command issues one. -/
  | lineStateForbids
  /-- Raised by an Engine step with `BUSY = 1` and no statement left to run, which R33 gives no meaning. Safe: every
  command's pseudocode ends by completing. -/
  | sequencerEmpty
deriving DecidableEq, Repr

/-- Why a step is not modelled. -/
inductive Refusal where
  /-- Raised by `exec` for an instruction without a meaning; no arm does. Safe. -/
  | notModelled (mnemonic : String)
deriving DecidableEq, Repr

/-- What a meaning and a step answer. -/
abbrev Result := Host.Outcome State Fault Refusal

/-- Latches idle, nothing driven (R24, R36). -/
def Lines.reset : Lines :=
  { ls := .off, dataOut := 0b111#3, clkOut := 1#1, ackOut := 1#1, rstDrv := false, knock := false }

/-- The parameter registers at their `DEF_*` values (R36). -/
def Params.reset : Params :=
  { waitAck := Config.defWaitAck, recvDelay := Config.defRecvDelay, aliveDelay := Config.defAliveDelay,
    aliveRepeat := Config.defAliveRepeat, resetPre := Config.defResetPre, resetHold := Config.defResetHold }

/-- The scratch registers after reset (R36). -/
def Scratch.reset : Scratch :=
  { mode := 0#8, bank := 0#8, offset := 0#16, length := 0#16, crc16 := 0#16, xferlen := 0#16 }

/-- The machine right after reset (R36). The values R36 calls unspecified (`OUTBUF`, the latches of R29, the hidden
registers, the tick counters) are zero: DESIGN CHOICE, log entry 1. -/
def State.reset : State :=
  { lines := Lines.reset
    time := { t100 := 0#16, t10ms := 0#16, div := 0 }
    par := Params.reset
    blk := Scratch.reset
    lat := { chk := 0#8, devchk := 0#8, hst := 0#8, pst := 0#8 }
    rsp := { busy := false, ill := false, status := 0x00#8, rbyte := 0#8, rword := 0#16, outcnt := 0#8,
             outbuf := Vector.replicate 255 0#8, done := false }
    hid := { t0 := 0#16, t0a := 0#16, sr := 0#8, phase := .p1, stab := 0#16, bidx := 0#16 }
    seq := { packet := [], todo := [], retStatus := 0#8, retByte := 0#8, out := [] }
    env := { sched := [], packets := [], ackIn := [], dataIn := [], pullIn := [], pushIn := [], draws := 0,
             polled := true, event := .quiet } }

end Sys2Proof.Machine
end

