-- ==== Sys2Proof/Machine/Operands.lean ====
section
/-! DEFINITION. The operand forms: 16-bit operands from packet bytes (R71), the operand checks (R75, R132), the
parameter index (R27), the seven header bytes of a frame (R133), and how a byte is cut into the groups of the four
phases and put together again (R54, R81 to R83). Pure functions: nothing here reads or writes the state. -/

namespace Sys2Proof.Machine

/-! ## Little-endian words (R53, R71) -/

/-- `byte[k] + 256 * byte[k+1]`: the low byte comes first (R71). -/
def le16 (lo hi : Byte) : Word := hi ++ lo

/-- `w[7:0]`. -/
def lowByte (w : Word) : Byte := w.extractLsb' 0 8

/-- `w[15:8]`. -/
def highByte (w : Word) : Byte := w.extractLsb' 8 8

/-! ## Operand checks (R75) -/

/-- `BANK_SIZE` (R7). -/
def bankSize : Nat := 0x4000

/-- `BlockOperandsOK` (R132); the sum is taken without wrap-around. -/
def blockOperandsOK (offset length : Word) : Bool :=
  decide (offset.toNat < bankSize) && decide (length.toNat ≤ bankSize)
    && decide (offset.toNat + length.toNat ≤ bankSize)

/-- `n_in <= GEN_IN_MAX` (R74, R75). -/
def genericInputsOK (ins : List Byte) : Bool :=
  ins.isEmpty || decide (ins.length ≤ Config.genInMax)

/-- RESET_DEVICE's modes: 0x00 and 0x01 (R75, R80). -/
def resetModeOK (mode : Byte) : Bool := decide (mode.toNat ≤ 1)

/-- The parameter register an index names; 6 to 255 are reserved (R27, R57). -/
def paramOfIndex (idx : Byte) : Option Param :=
  match idx.toNat with
  | 0 => some .waitAck
  | 1 => some .recvDelay
  | 2 => some .aliveDelay
  | 3 => some .aliveRepeat
  | 4 => some .resetPre
  | 5 => some .resetHold
  | _ => none

/-! ## Parameter registers (R27) -/

def Params.get (p : Params) : Param → Word
  | .waitAck => p.waitAck
  | .recvDelay => p.recvDelay
  | .aliveDelay => p.aliveDelay
  | .aliveRepeat => p.aliveRepeat
  | .resetPre => p.resetPre
  | .resetHold => p.resetHold

def Params.set (p : Params) (i : Param) (v : Word) : Params :=
  match i with
  | .waitAck => { p with waitAck := v }
  | .recvDelay => { p with recvDelay := v }
  | .aliveDelay => { p with aliveDelay := v }
  | .aliveRepeat => { p with aliveRepeat := v }
  | .resetPre => { p with resetPre := v }
  | .resetHold => { p with resetHold := v }

/-! ## Frame headers (R84, R85, R133) -/

/-- `READ` and `WRITE` opcodes of the wire (R7, R87). -/
def wireOpRead : Byte := 0x01#8
def wireOpWrite : Byte := 0x02#8

/-- The seven bytes of `SendHeader(op)`: opcode, `MODE`, `BANK`, then `OFFSET` and `LENGTH` little-endian (R133). -/
def headerBytes (op mode bank : Byte) (offset length : Word) : List Byte :=
  [op, mode, bank, lowByte offset, highByte offset, lowByte length, highByte length]

/-! ## The phases of a byte (R54, R81 to R83) -/

/-- The 2-bit contents of `PHASE` (R34): phases 1 to 4 in order. -/
def phaseOfCode (c : BitVec 2) : Phase :=
  match c.toNat with
  | 0 => .p1
  | 1 => .p2
  | 2 => .p3
  | _ => .p4

/-- The level PE writes to CLK in a phase and then awaits on ACK: 0, 1, 0, 1 (R81). -/
def phaseLevel : Phase → Bit
  | .p1 => 0#1
  | .p2 => 1#1
  | .p3 => 0#1
  | .p4 => 1#1

/-- DATA[2:0] when PE sends `b` in normal mode (R82): phase 4 is the idle pattern. -/
def normalGroup (b : Byte) : Phase → Tri
  | .p1 => b.extractLsb' 5 3
  | .p2 => b.extractLsb' 2 3
  | .p3 => 0#1 ++ b.extractLsb' 0 2
  | .p4 => 0b111#3

/-- DATA[2:0] when PE sends `b` in boot mode (R83): all four phases carry data. -/
def bootGroup (b : Byte) : Phase → Tri
  | .p1 => 0#1 ++ b.extractLsb' 6 2
  | .p2 => 0#1 ++ b.extractLsb' 4 2
  | .p3 => 0#1 ++ b.extractLsb' 2 2
  | .p4 => 0#1 ++ b.extractLsb' 0 2

def txGroup (boot : Bool) (b : Byte) (k : Phase) : Tri :=
  if boot then bootGroup b k else normalGroup b k

/-- `SR` after the sample `d` of a phase (R82, R113): `SR[7:5]`, `SR[4:2]`, `SR[1:0] <- d[1:0]` with `d[2]`
ignored; phase 4 takes nothing. -/
def rxPlace (sr : Byte) (k : Phase) (d : Tri) : Byte :=
  match k with
  | .p1 => d ++ sr.extractLsb' 0 5
  | .p2 => sr.extractLsb' 5 3 ++ d ++ sr.extractLsb' 0 2
  | .p3 => sr.extractLsb' 2 6 ++ d.extractLsb' 0 2
  | .p4 => sr

/-- The four symbols DATA[2] DATA[1] DATA[0] CLK of a sent byte, phase 1 first: the PHASES patterns of
spec/opcode_table.json. -/
def phaseWord (boot : Bool) (b : Byte) : BitVec 16 :=
  (txGroup boot b .p1 ++ phaseLevel .p1) ++ (txGroup boot b .p2 ++ phaseLevel .p2)
    ++ (txGroup boot b .p3 ++ phaseLevel .p3) ++ (txGroup boot b .p4 ++ phaseLevel .p4)

end Sys2Proof.Machine
end

