-- ==== Sys2Proof/WellFormed.lean ====
section
/-! DEFINITION. Well-formed instructions: the operand constraints of rule R75. Every other operand takes every value
of its width. An instruction that is not well-formed can still be packed and decoded; its command is refused (R76 c). -/

namespace Sys2Proof

def Instr.wellFormed : Instr → Bool
  | .stateOff => true
  | .stateSend => true
  | .stateRecv => true
  | .sendByte _ => true
  | .recvByte => true
  | .sendByteBoot _ => true
  | .isAlive _ => true
  | .resetDevice mode => Machine.resetModeOK mode
  | .generic _ _ ins => Machine.genericInputsOK ins
  | .recvBlock _ _ offset length _ => Machine.blockOperandsOK offset length
  | .sendBlock _ _ offset length _ => Machine.blockOperandsOK offset length
  | .paramWr idx _ => (Machine.paramOfIndex idx).isSome
  | .paramRd idx => (Machine.paramOfIndex idx).isSome
  | .wireRead _ _ offset length => Machine.blockOperandsOK offset length
  | .wireWrite _ _ offset length => Machine.blockOperandsOK offset length
  | .wireByteNormal _ => true
  | .wireByteBoot _ => true

end Sys2Proof
end

