-- ==== Sys2Proof/Decode.lean ====
section
/-! DEFINITION. Decoding and encoding (30_encoding.md). There are three code spaces and no code belongs to two of
them: command packets at the command port (R70 to R74), the header of a frame on the wires (R84, R85), and the
sixteen DATA and CLK levels of a byte on the wires (R82, R83; the PHASES rows of spec/opcode_table.json). -/

namespace Sys2Proof

/-- A code as it stands where the engine takes it from. -/
inductive Code where
  /-- A command packet, first byte first (R70). -/
  | packet (bytes : List Byte)
  /-- The seven header bytes of a frame, first byte first (R133). -/
  | frame (bytes : List Byte)
  /-- DATA[2] DATA[1] DATA[0] CLK of the four phases, phase 1 in the high bits. -/
  | phases (w : BitVec 16)
deriving DecidableEq, Repr

/-- Why a code is no instruction. -/
inductive DecodeError where
  /-- A packet with no opcode byte (R76 b). -/
  | emptyPacket
  /-- Byte 0 is none of the thirteen opcodes (R76 a). -/
  | unknownOpcode (op : Byte)
  /-- The packet is shorter or longer than its format says (R76 b). -/
  | wrongLength (op : Byte)
  /-- The bytes are no header of the read or the write frame. -/
  | unknownFrame
  /-- The levels are those of neither byte encoding. -/
  | unknownPhases
deriving DecidableEq, Repr

/-! ## Opcodes (R73) -/

def opStateOff : Byte := 0x10#8
def opStateSend : Byte := 0x11#8
def opStateRecv : Byte := 0x12#8
def opSendByte : Byte := 0x20#8
def opRecvByte : Byte := 0x21#8
def opSendByteBoot : Byte := 0x22#8
def opIsAlive : Byte := 0x30#8
def opResetDevice : Byte := 0x31#8
def opGeneric : Byte := 0x40#8
def opRecvBlock : Byte := 0x41#8
def opSendBlock : Byte := 0x42#8
def opParamWr : Byte := 0x50#8
def opParamRd : Byte := 0x51#8

/-! ## Formats (R72): each reads exactly the bytes after the opcode -/

/-- F0: no operand. -/
def formatF0 (op : Byte) (i : Instr) (rest : List Byte) : Except DecodeError Instr :=
  match rest with
  | [] => .ok i
  | _ => .error (.wrongLength op)

/-- F1: one byte. -/
def formatF1 (op : Byte) (f : Byte → Instr) (rest : List Byte) : Except DecodeError Instr :=
  match rest with
  | [b] => .ok (f b)
  | _ => .error (.wrongLength op)

/-- F2: one word. -/
def formatF2 (op : Byte) (f : Word → Instr) (rest : List Byte) : Except DecodeError Instr :=
  match rest with
  | [lo, hi] => .ok (f (Machine.le16 lo hi))
  | _ => .error (.wrongLength op)

/-- FP: an index and a word. -/
def formatFP (op : Byte) (f : Byte → Word → Instr) (rest : List Byte) : Except DecodeError Instr :=
  match rest with
  | [idx, lo, hi] => .ok (f idx (Machine.le16 lo hi))
  | _ => .error (.wrongLength op)

/-- FB: mode, bank, offset, length, crc. -/
def formatFB (op : Byte) (f : Byte → Byte → Word → Word → Word → Instr) (rest : List Byte) :
    Except DecodeError Instr :=
  match rest with
  | [mode, bank, ol, oh, ll, lh, cl, ch] =>
    .ok (f mode bank (Machine.le16 ol oh) (Machine.le16 ll lh) (Machine.le16 cl ch))
  | _ => .error (.wrongLength op)

/-- FG: cmd, out_size, n_in and exactly n_in more bytes (R74). -/
def formatFG (op : Byte) (f : Byte → Byte → List Byte → Instr) (rest : List Byte) :
    Except DecodeError Instr :=
  match rest with
  | cmd :: outSize :: nIn :: ins =>
    if ins.length = nIn.toNat then .ok (f cmd outSize ins) else .error (.wrongLength op)
  | _ => .error (.wrongLength op)

/-- The command a packet holds (R70, R73). -/
def decodePacket (bytes : List Byte) : Except DecodeError Instr :=
  match bytes with
  | [] => .error .emptyPacket
  | op :: rest =>
    if op = opStateOff then formatF0 op .stateOff rest
    else if op = opStateSend then formatF0 op .stateSend rest
    else if op = opStateRecv then formatF0 op .stateRecv rest
    else if op = opSendByte then formatF1 op .sendByte rest
    else if op = opRecvByte then formatF0 op .recvByte rest
    else if op = opSendByteBoot then formatF1 op .sendByteBoot rest
    else if op = opIsAlive then formatF2 op .isAlive rest
    else if op = opResetDevice then formatF1 op .resetDevice rest
    else if op = opGeneric then formatFG op .generic rest
    else if op = opRecvBlock then formatFB op .recvBlock rest
    else if op = opSendBlock then formatFB op .sendBlock rest
    else if op = opParamWr then formatFP op .paramWr rest
    else if op = opParamRd then formatF1 op .paramRd rest
    else .error (.unknownOpcode op)

/-- The frame a header starts (R84, R85). -/
def decodeFrame (bytes : List Byte) : Except DecodeError Instr :=
  match bytes with
  | [op, mode, bank, ol, oh, ll, lh] =>
    if op = Machine.wireOpRead then .ok (.wireRead mode bank (Machine.le16 ol oh) (Machine.le16 ll lh))
    else if op = Machine.wireOpWrite then .ok (.wireWrite mode bank (Machine.le16 ol oh) (Machine.le16 ll lh))
    else .error .unknownFrame
  | _ => .error .unknownFrame

/-- The fixed bits of the pattern `aaa0bbb10cc01111`. -/
def normalMask : BitVec 16 := 0b0001000110011111#16
def normalMatch : BitVec 16 := 0b0000000100001111#16

/-- The fixed bits of the pattern `0aa00bb10cc00dd1`. -/
def bootMask : BitVec 16 := 0b1001100110011001#16
def bootMatch : BitVec 16 := 0b0000000100000001#16

/-- The byte the levels of four phases carry (R82, R83). -/
def decodePhases (w : BitVec 16) : Except DecodeError Instr :=
  if w &&& normalMask = normalMatch then
    .ok (.wireByteNormal (w.extractLsb' 13 3 ++ w.extractLsb' 9 3 ++ w.extractLsb' 5 2))
  else if w &&& bootMask = bootMatch then
    .ok (.wireByteBoot (w.extractLsb' 13 2 ++ w.extractLsb' 9 2 ++ w.extractLsb' 5 2 ++ w.extractLsb' 1 2))
  else .error .unknownPhases

/-- The instruction a code stands for. -/
def decode : Code → Except DecodeError Instr
  | .packet bytes => decodePacket bytes
  | .frame bytes => decodeFrame bytes
  | .phases w => decodePhases w

/-! ## Encoding -/

/-- FB's operand bytes. -/
def blockBytes (mode bank : Byte) (offset length crc : Word) : List Byte :=
  [mode, bank, Machine.lowByte offset, Machine.highByte offset, Machine.lowByte length,
   Machine.highByte length, Machine.lowByte crc, Machine.highByte crc]

/-- The code of an instruction, from the tables of R72, R73, R84, R85, R82 and R83. -/
def encode : Instr → Code
  | .stateOff => .packet [opStateOff]
  | .stateSend => .packet [opStateSend]
  | .stateRecv => .packet [opStateRecv]
  | .sendByte b => .packet [opSendByte, b]
  | .recvByte => .packet [opRecvByte]
  | .sendByteBoot b => .packet [opSendByteBoot, b]
  | .isAlive timeout => .packet [opIsAlive, Machine.lowByte timeout, Machine.highByte timeout]
  | .resetDevice mode => .packet [opResetDevice, mode]
  | .generic cmd outSize ins => .packet (opGeneric :: cmd :: outSize :: BitVec.ofNat 8 ins.length :: ins)
  | .recvBlock mode bank offset length crc => .packet (opRecvBlock :: blockBytes mode bank offset length crc)
  | .sendBlock mode bank offset length crc => .packet (opSendBlock :: blockBytes mode bank offset length crc)
  | .paramWr idx val => .packet [opParamWr, idx, Machine.lowByte val, Machine.highByte val]
  | .paramRd idx => .packet [opParamRd, idx]
  | .wireRead mode bank offset length => .frame (Machine.headerBytes Machine.wireOpRead mode bank offset length)
  | .wireWrite mode bank offset length => .frame (Machine.headerBytes Machine.wireOpWrite mode bank offset length)
  | .wireByteNormal b => .phases (Machine.phaseWord false b)
  | .wireByteBoot b => .phases (Machine.phaseWord true b)

/-! ## The opcode table's own numbering -/

/-- The `n` lowest bytes of a number, lowest first. -/
def bytesOfNat : Nat → Nat → List Byte
  | 0, _ => []
  | n + 1, w => BitVec.ofNat 8 w :: bytesOfNat n (w / 256)

/-- The length of the packet whose bytes, lowest first, are those of `w` (R72, R74): by its opcode, and for GENERIC
by its `n_in`. An unknown opcode is a packet of one byte. -/
def packetLength (w : Nat) : Nat :=
  match w % 256 with
  | 0x20 | 0x22 | 0x31 | 0x51 => 2
  | 0x30 => 3
  | 0x50 => 4
  | 0x41 | 0x42 => 9
  | 0x40 => 4 + w / 256 / 256 / 256 % 256
  | _ => 1

/-- Whether a word has the fixed bits of one of the two PHASES rows. -/
def isPhases (w : BitVec 16) : Bool :=
  decide (w &&& normalMask = normalMatch) || decide (w &&& bootMask = bootMatch)

/-- Where a table word of `nbits` bits stands: a 16-bit word with the fixed bits of a PHASES row is such a word, a
word whose first byte is a wire opcode is a frame header, any other is a packet. Bits from `nbits` up are zero. -/
def codeOfTableWord (nbits w : Nat) : Code :=
  let v := w % 2 ^ nbits
  if nbits = 16 ∧ isPhases (BitVec.ofNat 16 v) = true then .phases (BitVec.ofNat 16 v)
  else if v % 256 = 1 ∨ v % 256 = 2 then .frame (bytesOfNat 7 v)
  else .packet (bytesOfNat (packetLength v) v)

/-- The instruction the decoder reads from a word of spec/opcode_table.json. -/
def decodeTableWord (nbits w : Nat) : Option Instr :=
  match decode (codeOfTableWord nbits w) with
  | .ok i => some i
  | .error _ => none

end Sys2Proof
end

