-- ==== Sys2Proof/Machine/Flags.lean ====
section
/-! DEFINITION. What steers the engine in place of condition codes (R31): the status codes (R79), the checksum and
the running CRC (R130, R131), elapsed time on the tick counters (R26, R110, R120), the stability count of the probe
(R121) and the precedence of a block's outcomes (R136). -/

namespace Sys2Proof.Machine

/-! ## Status codes (R79) -/

def stOk : Byte := 0x00#8
def stNoAck1 : Byte := 0x01#8
def stNoAck2 : Byte := 0x02#8
def stNoAck3 : Byte := 0x03#8
def stNoAck4 : Byte := 0x04#8
def stChecksum : Byte := Config.codes.checksum
def stCrc16 : Byte := Config.codes.crc16
def stClientTimeout : Byte := Config.codes.clientTimeout
def stClientAbort : Byte := Config.codes.clientAbort
def stVerify : Byte := Config.codes.verify
def stNotAlive : Byte := Config.codes.notAlive
def stCmdError : Byte := Config.codes.cmdError

/-- `ST_NOACKk`: the code of a wait that timed out in phase `k` (R81, R172). -/
def noAck : Phase → Byte
  | .p1 => stNoAck1
  | .p2 => stNoAck2
  | .p3 => stNoAck3
  | .p4 => stNoAck4

/-! ## Time (R10, R26) -/

/-- Elapsed time on a 16-bit counter, modulo 2^16. -/
def elapsed (now start : Word) : Word := now - start

/-- The time test of `AckWait` and of IS_ALIVE: strictly more than the budget (R110, R121). -/
def exceeds (now start budget : Word) : Bool := decide (budget.toNat < (elapsed now start).toNat)

/-- The test of `TickWait` (R120): at least `n` increments seen. -/
def waited (now start n : Word) : Bool := decide (n.toNat ≤ (elapsed now start).toNat)

/-! ## Checksum and CRC (R130, R131) -/

/-- `CHK <- (CHK + b + 1) mod 256`. -/
def addChk (chk b : Byte) : Byte := chk + b + 1#8

/-- `CRC16 <- CRC16_UPDATE(CRC16, b)`. -/
def addCrc (crc : Word) (b : Byte) : Word := Config.crc16Update crc b

/-! ## The probe (R121) -/

/-- `STAB` after a sample: one bad sample restarts the level. -/
def nextStab (stab : Word) (a level : Bit) : Word := if a = level then stab + 1#16 else 0#16

/-! ## Precedence (R136, R175) -/

/-- `BlockResult()`: host error, then protocol error, then checksum mismatch, then OK. -/
def blockResult (l : Latches) : Byte :=
  if l.hst ≠ stOk then l.hst
  else if l.pst ≠ stOk then l.pst
  else if l.devchk ≠ l.chk then stChecksum
  else stOk

end Sys2Proof.Machine
end

