-- ==== Sys2Proof/Machine/Ops.lean ====
section
/-! DEFINITION. The named operations over the registers, the wires and the two ports, and the meaning of each
pseudocode statement of `SEQ`. Refusal (R76), completion (R77) and the abort path (R176) are one shared operation
each: in this hardware they stand for an illegal-instruction trap, the return, and taking an exception. -/

namespace Sys2Proof.Machine

/-! ## The wire-side ports (R20, R25) -/

/-- The output ports (R20). -/
structure Ports where
  dataO : Tri
  dataOe : Bool
  clkO : Bit
  clkOe : Bool
  ackO : Bit
  ackOe : Bool
  rstO : Bit
  rstOe : Bool
deriving DecidableEq, Repr

/-- What the pads carry: the latches, and the output enables of R25's table. While `KNOCK = 1` in Off, DATA is
driven too ("the one exception to the table's Off row"); `rst_o` is constant 0. -/
def Lines.ports (l : Lines) : Ports :=
  match l.ls with
  | .off => { dataO := l.dataOut, dataOe := l.knock, clkO := l.clkOut, clkOe := false,
              ackO := l.ackOut, ackOe := l.knock, rstO := 0#1, rstOe := l.rstDrv }
  | .send => { dataO := l.dataOut, dataOe := true, clkO := l.clkOut, clkOe := true,
               ackO := l.ackOut, ackOe := false, rstO := 0#1, rstOe := false }
  | .recv => { dataO := l.dataOut, dataOe := false, clkO := l.clkOut, clkOe := true,
               ackO := l.ackOut, ackOe := false, rstO := 0#1, rstOe := false }

/-! ## Line events (R6 a, R11, R24): one write of one latch, or one change of the enables, each -/

/-- `Drive(DATA, v)`. -/
def driveData (v : Tri) (s : State) : State :=
  { s with lines.dataOut := v, env.event := .data v }

/-- `Drive(CLK, v)`. -/
def driveClk (v : Bit) (s : State) : State :=
  { s with lines.clkOut := v, env.event := .clk v }

/-- `DATA_OUT <- v` (R101, R123). -/
def latchData (v : Tri) (s : State) : State :=
  { s with lines.dataOut := v, env.event := .dataOut v }

/-- `CLK_OUT <- v` (R101). -/
def latchClk (v : Bit) (s : State) : State :=
  { s with lines.clkOut := v, env.event := .clkOut v }

/-- `ACK_OUT <- v` (R123). -/
def latchAck (v : Bit) (s : State) : State :=
  { s with lines.ackOut := v, env.event := .ackOut v }

/-- `LS <- l`: `StateSend()` and `StateRecv()` whole, and the first write of `StateOff()` (R101 to R103); no latch is
touched. DESIGN CHOICE, log entry 3: a write that leaves `LS` as it was (STATE_SEND in Send) shows its `LS=` too. -/
def setLine (l : LineState) (s : State) : State :=
  { s with lines.ls := l, env.event := .line l }

/-! ## Samples (R21) and free values -/

/-- `Sample(ACK)`: the Device's answer, under no law. -/
def sampleAck (s : State) : Bit × State :=
  match s.env.ackIn with
  | a :: rest => (a, { s with env.ackIn := rest, env.event := .sampleAck a })
  | [] => (Config.freeAck s.env.draws,
           { s with env.draws := s.env.draws + 1, env.event := .sampleAck (Config.freeAck s.env.draws) })

/-- `Sample(DATA)`: the Device's answer, under no law. -/
def sampleData (s : State) : Tri × State :=
  match s.env.dataIn with
  | d :: rest => (d, { s with env.dataIn := rest, env.event := .sampleData d })
  | [] => (Config.freeData s.env.draws,
           { s with env.draws := s.env.draws + 1, env.event := .sampleData (Config.freeData s.env.draws) })

/-! ## The sequencer (R33) -/

/-- Puts statements before what is left of the command. -/
def doNext (l : List Micro) (s : State) : State := { s with seq.todo := l ++ s.seq.todo }

/-- What is left from the return of the byte procedure that runs. -/
def dropToByteEnd : List Micro → List Micro
  | [] => []
  | .byteEnd rx :: k => .byteEnd rx :: k
  | _ :: k => dropToByteEnd k

/-- What is left from the command's exit. -/
def dropToExit : List Micro → List Micro
  | [] => []
  | .exit :: k => .exit :: k
  | _ :: k => dropToExit k

/-- A byte procedure fails (R112 to R114): "return s" at once, no later phase, nothing retried. -/
def failByte (code : Byte) (s : State) : State :=
  { s with seq.retStatus := code, seq.todo := dropToByteEnd s.seq.todo }

/-- The abort path (R176, the analogue of taking an exception): every remaining wire step is skipped, and the command
goes to its `StateOff()` and then completes. Nothing is saved and no mode changes. -/
def abort (s : State) : State := { s with seq.todo := dropToExit s.seq.todo }

/-- Taking a command (R22): `BUSY <- 1`, and `SEQ` is its pseudocode. -/
def accept (body : List Micro) (s : State) : State :=
  { s with rsp.busy := true, seq.todo := body, seq.retStatus := stOk, seq.out := [] }

/-- Taking a packet that is to be refused (R22, R76): `BUSY <- 1`, and `refuse` is all that follows. -/
def reject (s : State) : State :=
  { s with rsp.busy := true, seq.todo := [.refuse] }

/-- `refuse` (R76): `ILL <- 1`, `BUSY` returns to 0, `done` pulses, nothing else changes. -/
def refuse (s : State) : State :=
  { s with rsp.ill := true, rsp.busy := false, rsp.done := true, seq.todo := [] }

/-- `complete(st)` (R77, the analogue of a return): `ILL <- 0`, `STATUS <- st`, `BUSY <- 0`, `done` pulses. -/
def complete (st : Byte) (s : State) : State :=
  { s with rsp.ill := false, rsp.status := st, rsp.busy := false, rsp.done := true, seq.todo := [] }

/-- The checksum and status latches cleared, as they are at the start of every block command and of GENERIC (R29). -/
def clearedLatches : Latches := { chk := 0x00#8, devchk := 0x00#8, hst := stOk, pst := stOk }

/-! ## The pseudocode of `StateOff()` (R101) -/

/-- The latches back to their idle values, the second and third write of `StateOff()`. -/
def idleLatches : List Micro := [.latchData 0b111#3, .latchClk 1#1]

/-- The way out of a compound command: `StateOff()`, and the command's completion `m` (D24). -/
def exitSteps (m : Micro) : List Micro := .exit :: idleLatches ++ [m]

/-! ## The pseudocode of the byte procedures (R112 to R114) -/

/-- One phase of sending: data write, clock write, acknowledge wait, in that order (R59). -/
def txPhase (boot : Bool) (k : Phase) : List Micro :=
  [.txData boot k, .phaseClk k, .snap, .ackPoll]

/-- One phase of receiving that takes data: clock write, acknowledge wait, settling, data sample (R60). -/
def rxPhase (k : Phase) : List Micro :=
  [.phaseClk k, .snap, .ackPoll, .settle, .rxSample]

/-- `SendByte`, `SendByteBoot` after `SR <- b`. -/
def txByte (boot : Bool) : List Micro :=
  txPhase boot .p1 ++ txPhase boot .p2 ++ txPhase boot .p3 ++ txPhase boot .p4 ++ [.byteEnd false]

/-- `RecvByte` after `SR <- 0`; phase 4 takes nothing (C2). -/
def rxByte : List Micro :=
  rxPhase .p1 ++ rxPhase .p2 ++ rxPhase .p3 ++ [.phaseClk .p4, .snap, .ackPoll, .byteEnd true]

/-- Starts a byte procedure: `SR <- b`, and its status is `ST_OK` until a wait fails. -/
def startByte (b : Byte) (body : List Micro) (s : State) : State :=
  doNext body { s with hid.sr := b, seq.retStatus := stOk }

/-! ## The pseudocode of the frames (R84 to R86, R133 to R135, R145) -/

/-- Bytes sent one after another, stopping at the first failure (R133, R145). -/
def sendBytes : List Byte → List Micro
  | [] => []
  | b :: rest => .wire (.wireByteNormal b) :: .check :: sendBytes rest

/-- Issues `RecvByte()`; the operand of a received byte is not used. -/
def recvOne : Micro := .wire (.wireByteNormal 0#8)

/-- The write frame (R84, R134): header, `n` data bytes, `CHK`, and the Device's checksum read back. -/
def writeFrame (mode bank : Byte) (offset length : Word) : List Micro :=
  .line .send :: sendBytes (headerBytes wireOpWrite mode bank offset length)
    ++ [.startData, .sendLoop length, .sendChk, .line .recv, recvOne, .latchDevchk, .check]

/-- The read frame (R85, R135): header, turn-around, `n` data bytes and the Device's checksum. -/
def readFrame (mode bank : Byte) (offset length : Word) : List Micro :=
  .line .send :: sendBytes (headerBytes wireOpRead mode bank offset length)
    ++ [.line .recv, .startData, .recvLoop length, recvOne, .latchDevchk, .check]

/-- The receiving part of a generic frame (R86): none, a fixed count, or a size byte and that many. -/
def genericReply (outSize : Byte) : List Micro :=
  if outSize = 0#8 then []
  else if outSize = Config.vararg then [.line .recv, recvOne, .check, .genSize]
  else [.line .recv, .genLoop outSize]

/-- The level of one clock toggle of IS_ALIVE (R121). -/
def aliveLevelSteps (level : Bit) (timeout : Word) : List Micro :=
  [.aliveClk level, .aliveTest level timeout]

/-- `TickWait(P[p])` (R120). -/
def tickWait (p : Param) : List Micro := [.snap, .tickPoll p]

/-! ## The meaning of a pseudocode statement -/

/-- One poll of `AckWait` (R110): the sample first, then the time test; neither true: poll again. DESIGN CHOICE, log
entry 2: both are one Engine step, so no tick falls between the sample and the test of the same poll. -/
def ackPoll (s : State) : State :=
  let (a, t) := sampleAck s
  if a = phaseLevel s.hid.phase then t
  else if exceeds s.time.t100 s.hid.t0 s.par.waitAck then failByte (noAck s.hid.phase) t
  else doNext [.ackPoll] t

/-- The return of a byte procedure. A failed receive returns an unspecified byte (R113): a free value. -/
def byteEnd (rx : Bool) (s : State) : State :=
  if rx then
    if s.seq.retStatus = stOk then { s with seq.retByte := s.hid.sr }
    else { s with seq.retByte := Config.freeByte s.env.draws, env.draws := s.env.draws + 1 }
  else s

/-- `PST <- s`; a failure takes the abort path. -/
def checkStatus (s : State) : State :=
  let t := { s with lat.pst := s.seq.retStatus }
  if s.seq.retStatus = stOk then t else abort t

/-- IS_ALIVE's loop head (R121): stable enough, or over budget (the abort path, with `ST_NOT_ALIVE`), or sample. -/
def aliveTest (level : Bit) (timeout : Word) (s : State) : State :=
  if s.hid.stab.toNat < s.par.aliveRepeat.toNat then
    if exceeds s.time.t10ms s.hid.t0a timeout then abort { s with seq.retStatus := stNotAlive }
    else doNext [.aliveSample level timeout] s
  else s

/-- IS_ALIVE's sample, its stability count and the delay after it (R121). -/
def aliveSample (level : Bit) (timeout : Word) (s : State) : State :=
  let (a, t) := sampleAck s
  doNext (tickWait .aliveDelay ++ [.aliveTest level timeout])
    { t with hid.stab := nextStab s.hid.stab a level }

/-- SEND_BLOCK's loop head (R134): pull while no host failure is latched, else send a filler zero. -/
def sendLoop (n : Word) (s : State) : State :=
  if s.hid.bidx.toNat < n.toNat then
    if s.lat.hst = stOk then doNext [.pull, .sendLoop n] s
    else doNext [.wire (.wireByteNormal 0x00#8), .check, .accSend 0x00#8, .sendLoop n] s
  else s

/-- `HostPull()` (R23, R134): blocking; a failed pull latches `HST` and its byte is sent as zero. -/
def hostPull (s : State) : State :=
  match s.env.pullIn with
  | [] => doNext [.pull] s
  | (b, h) :: rest =>
    let t := { s with env.pullIn := rest, env.event := .pull b h }
    if h = stOk then doNext [.wire (.wireByteNormal b), .check, .accSend b] t
    else doNext [.wire (.wireByteNormal 0x00#8), .check, .accSend 0x00#8] { t with lat.hst := h }

/-- A byte moved and accepted: `CRC16` and `XFERLEN` (R134, R135). -/
def countByte (b : Byte) (s : State) : State :=
  { s with blk.crc16 := addCrc s.blk.crc16 b, blk.xferlen := s.blk.xferlen + 1#16 }

/-- The next data byte. -/
def nextByte (s : State) : State := { s with hid.bidx := s.hid.bidx + 1#16 }

/-- After a data byte was sent (R134): fillers enter neither `CHK` nor `CRC16` nor `XFERLEN`. -/
def accSend (b : Byte) (s : State) : State :=
  if s.lat.hst = stOk then nextByte (countByte b { s with lat.chk := addChk s.lat.chk b }) else nextByte s

/-- RECV_BLOCK's loop head (R135). -/
def recvLoop (n : Word) (s : State) : State :=
  if s.hid.bidx.toNat < n.toNat then doNext [recvOne, .check, .accRecv, .recvLoop n] s else s

/-- After a data byte was received (R135): `CHK` covers every byte; a push follows unless the Host failed. -/
def accRecv (s : State) : State :=
  let t := { s with lat.chk := addChk s.lat.chk s.seq.retByte }
  if s.lat.hst = stOk then doNext [.push s.seq.retByte] t else nextByte t

/-- `HostPush(b)` (R23, R135): blocking; a failed push latches `HST`. -/
def hostPush (b : Byte) (s : State) : State :=
  match s.env.pushIn with
  | [] => doNext [.push b] s
  | h :: rest =>
    let t := { s with env.pushIn := rest, env.event := .push b h }
    if h = stOk then nextByte (countByte b t) else nextByte { t with lat.hst := h }

/-- GENERIC's output loop head with `m` bytes left (R145). -/
def genLoop (m : Byte) (s : State) : State :=
  if m = 0#8 then s else doNext [recvOne, .check, .genStore, .genLoop (m - 1#8)] s

/-- One more output byte of GENERIC (R145); it waits in `out` for `complete` (R30, R77; log entry 12). -/
def genStore (s : State) : State := { s with seq.out := s.seq.out ++ [s.seq.retByte] }

/-- `OUTBUF` with `bytes` from entry 0 on; the entries after them stay (log entry 12). -/
def storeOut (bytes : List Byte) (old : Vector Byte 255) : Vector Byte 255 :=
  Vector.ofFn (fun i => bytes.getD i.val old[i])

/-- GENERIC's end (R145): `OUTCNT` and `OUTBUF`, then `complete(PST)`. -/
def completeGeneric (s : State) : State :=
  complete s.lat.pst
    { s with rsp.outcnt := BitVec.ofNat 8 s.seq.out.length, rsp.outbuf := storeOut s.seq.out s.rsp.outbuf }

/-- One statement of the pseudocode, already taken off `SEQ`. Which of the spec's statements are one step here is the
model's choice: log entry 2 lists them. -/
def runMicro (m : Micro) (s : State) : State :=
  match m with
  | .wire _ => s
  | .line l => setLine l s
  | .latchData v => latchData v s
  | .latchClk v => latchClk v s
  | .latchAck v => latchAck v s
  | .resetDrive on => { s with lines.rstDrv := on, env.event := .resetDrive on }
  | .knock on => { s with lines.knock := on, env.event := .knock on }
  | .txData boot k => driveData (txGroup boot s.hid.sr k) { s with hid.phase := k }
  | .phaseClk k => driveClk (phaseLevel k) { s with hid.phase := k }
  | .snap => { s with hid.t0 := s.time.t100 }
  | .ackPoll => ackPoll s
  | .settle => s
  | .rxSample => { (sampleData s).2 with hid.sr := rxPlace s.hid.sr s.hid.phase (sampleData s).1 }
  | .byteEnd rx => byteEnd rx s
  | .tickPoll p => if waited s.time.t100 s.hid.t0 (s.par.get p) then s else doNext [.tickPoll p] s
  | .snapAlive => { s with hid.t0a := s.time.t10ms }
  | .aliveClk level => driveClk level { s with hid.stab := 0#16 }
  | .aliveTest level timeout => aliveTest level timeout s
  | .aliveSample level timeout => aliveSample level timeout s
  | .check => checkStatus s
  | .startData => { s with hid.bidx := 0#16 }
  | .sendLoop n => sendLoop n s
  | .pull => hostPull s
  | .accSend b => accSend b s
  | .sendChk => doNext [.wire (.wireByteNormal s.lat.chk), .check] s
  | .recvLoop n => recvLoop n s
  | .accRecv => accRecv s
  | .push b => hostPush b s
  | .latchDevchk => { s with lat.devchk := s.seq.retByte }
  | .genSize => doNext [.genLoop s.seq.retByte] s
  | .genLoop m => genLoop m s
  | .genStore => genStore s
  | .paramWr p v => { s with par := s.par.set p v }
  | .exit => setLine .off s
  | .refuse => refuse s
  | .completeOk => complete stOk s
  | .completeRet => complete s.seq.retStatus s
  | .completeRecv => complete s.seq.retStatus { s with rsp.rbyte := s.seq.retByte }
  | .completeWord p => complete stOk { s with rsp.rword := s.par.get p }
  | .completeGeneric => completeGeneric s
  | .completeBlock => complete (blockResult s.lat) s

/-! ## The Timebase, the Host, the Device and the block reset -/

/-- One Timebase step (R26): `T100` increments, and `T10MS` on every 100th increment. -/
def tick (s : State) : State :=
  { s with
    time := { t100 := s.time.t100 + 1#16,
              t10ms := if s.time.div + 1 = 0 then s.time.t10ms + 1#16 else s.time.t10ms,
              div := s.time.div + 1 },
    rsp.done := false, env.event := .tick, env.polled := false }

/-- A poll: of ACK and the budget in `AckWait`, of the counter in `TickWait`, of the budget and of ACK in the IS_ALIVE
loop. -/
def isPoll : Micro → Bool
  | .ackPoll => true
  | .tickPoll _ => true
  | .aliveTest _ _ => true
  | .aliveSample _ _ => true
  | _ => false

/-- A statement of `AckWait`, of `TickWait` or of the IS_ALIVE loop: the polls, the snapshot both waits begin with
(R110, R120), and the clock write of the loop (R121). -/
def inWait (m : Micro) : Bool :=
  match m with
  | .snap => true
  | .aliveClk _ => true
  | m => isPoll m

/-- Whether a poll is no longer owed after the statement `m`: a poll pays it, and outside the waits none is owed. -/
def polledAfter (m : Micro) (polled : Bool) : Bool := isPoll m || !inWait m || polled

/-- Whether the Engine stands in `AckWait`, in `TickWait` or in the IS_ALIVE loop (R61 b). -/
def waiting (s : State) : Bool :=
  match s.seq.todo with
  | m :: _ => inWait m
  | [] => false

/-- Polling density (R61 b, log entry 6): in a wait, the Engine polls between two consecutive increments of `T100`. -/
def tickHeld (s : State) : Bool := s.rsp.busy && waiting s && !s.env.polled

/-- One Host step (R5): the packet or answer it gives stands behind what it gave before. -/
def hostStep (m : HostMove) (s : State) : State :=
  let t := { s with rsp.done := false, env.event := .quiet }
  match m with
  | .offer p => { t with env.packets := s.env.packets ++ [p] }
  | .answerPull b h => { t with env.pullIn := s.env.pullIn ++ [(b, h)] }
  | .answerPush h => { t with env.pushIn := s.env.pushIn ++ [h] }

/-- One Device step (R5, R21): the level stands behind those it settled before. -/
def deviceStep (m : DeviceMove) (s : State) : State :=
  let t := { s with rsp.done := false, env.event := .quiet }
  match m with
  | .ack v => { t with env.ackIn := s.env.ackIn ++ [v] }
  | .data v => { t with env.dataIn := s.env.dataIn ++ [v] }

/-- The turn a free value gives where none is listed (R5, R61): any agent, with any move, or the block reset, since no rule
says when `rst_n` is asserted (R190; log entry 9). Each value of the counter is used for one turn, and each part of a turn
has its own free value, so two turns are tied by no law. -/
def freeTurn (n : Nat) : Turn :=
  if Config.freeAgent n = 0 then .engine
  else if Config.freeAgent n = 1 then .timebase
  else if Config.freeAgent n = 2 then
    .host (if Config.freeHostMove n = 0 then .offer (Config.freePacket n)
      else if Config.freeHostMove n = 1 then .answerPull (Config.freeHostByte n) (Config.freeHostStatus n)
      else .answerPush (Config.freeHostStatus n))
  else if Config.freeAgent n = 3 then
    .device (if Config.freeDeviceMove n = 0 then .ack (Config.freeAck n) else .data (Config.freeData n))
  else .blockReset

/-- The block reset (R36, R37, R190): the values of R36, a running command abandoned with no response; what R36 calls
unspecified becomes a free value, and `OUTBUF` is "not cleared". The other agents' future is not the engine's. -/
def blockReset (s : State) : State :=
  let d := s.env.draws
  { lines := Lines.reset
    time := { t100 := Config.freeWord d, t10ms := Config.freeWord (d + 1), div := Config.freeDiv d }
    par := Params.reset
    blk := Scratch.reset
    lat := { chk := Config.freeByte d, devchk := Config.freeByte (d + 1), hst := Config.freeByte (d + 2),
             pst := Config.freeByte (d + 3) }
    rsp := { busy := false, ill := false, status := stOk, rbyte := 0#8, rword := 0#16, outcnt := 0#8,
             outbuf := s.rsp.outbuf, done := false }
    hid := { t0 := Config.freeWord (d + 2), t0a := Config.freeWord (d + 3), sr := Config.freeByte (d + 4),
             phase := phaseOfCode ((Config.freeByte (d + 6)).extractLsb' 0 2),
             stab := Config.freeWord (d + 4), bidx := Config.freeWord (d + 5) }
    seq := { packet := [], todo := [], retStatus := stOk, retByte := Config.freeByte (d + 5), out := [] }
    env := { s.env with draws := d + 7, polled := true, event := .blockReset } }

/-! ## The response packet (R78) -/

/-- The payload, by the opcode of the command answered. -/
def payload (s : State) : List Byte :=
  match s.seq.packet with
  | [] => []
  | op :: _ =>
    if op = opRecvByte then [s.rsp.rbyte]
    else if op = opParamRd then [lowByte s.rsp.rword, highByte s.rsp.rword]
    else if op = opRecvBlock ∨ op = opSendBlock then
      [lowByte s.blk.xferlen, highByte s.blk.xferlen, lowByte s.blk.crc16, highByte s.blk.crc16]
    else if op = opGeneric then s.rsp.outcnt :: s.rsp.outbuf.toList.take s.rsp.outcnt.toNat
    else []

/-- What the Host reads after `done`: the flag byte, `STATUS`, and for a command that was not refused its payload. -/
def response (s : State) : List Byte :=
  if s.rsp.ill then [0x01#8, s.rsp.status] else 0x00#8 :: s.rsp.status :: payload s

end Sys2Proof.Machine
end

