-- ==== Sys2Proof/Machine/BlockCommands.lean ====
section
/-! DEFINITION. The block commands (43_dtvtrans_block.md). Taking one loads the scratch registers; its frame is
a frame instruction (Machine/WireFrames.lean) that the engine issues next. -/

namespace Sys2Proof.Machine

/-- `MODE <- mode; ... CRC16 <- crc; XFERLEN <- 0; CHK <- 0; HST <- ST_OK; PST <- ST_OK` (R134, R135). -/
def loadBlock (mode bank : Byte) (offset length crc : Word) (s : State) : State :=
  { s with
    blk := { mode := mode, bank := bank, offset := offset, length := length, crc16 := crc, xferlen := 0#16 },
    lat.chk := 0x00#8, lat.hst := stOk, lat.pst := stOk }

/-- The line-state and operand precondition of both block commands (R104, R132). -/
def blockReady (offset length : Word) (s : State) : Bool :=
  decide (s.lines.ls = .off) && blockOperandsOK offset length

/-- RECV_BLOCK `mode, bank, offset, length, crc` (R135). -/
def execRecvBlock (mode bank : Byte) (offset length crc : Word) (s : State) : Result :=
  if blockReady offset length s = true then
    .next (accept (.wire (.wireRead mode bank offset length) :: exitSteps .completeBlock)
      (loadBlock mode bank offset length crc s))
  else .next (reject s)

/-- SEND_BLOCK `mode, bank, offset, length, crc` (R134). -/
def execSendBlock (mode bank : Byte) (offset length crc : Word) (s : State) : Result :=
  if blockReady offset length s = true then
    .next (accept (.wire (.wireWrite mode bank offset length) :: exitSteps .completeBlock)
      (loadBlock mode bank offset length crc s))
  else .next (reject s)

end Sys2Proof.Machine
end

