-- ==== Sys2Proof/Machine/ByteCommands.lean ====
section
/-! DEFINITION. The byte primitives (41_dtvlow_byte.md, rules R115 to R117). Taking one sets `BUSY` and puts its
pseudocode into `SEQ`; the byte itself is a byte instruction (Machine/WireFrames.lean) that the engine issues next. -/

namespace Sys2Proof.Machine

/-- SEND_BYTE `b` (R115). -/
def execSendByte (b : Byte) (s : State) : Result :=
  if s.lines.ls = .send then .next (accept [.wire (.wireByteNormal b), .completeRet] s)
  else .next (reject s)

/-- RECV_BYTE (R116). -/
def execRecvByte (s : State) : Result :=
  if s.lines.ls = .recv then .next (accept [recvOne, .completeRecv] s)
  else .next (reject s)

/-- SEND_BYTE_BOOT `b` (R117). -/
def execSendByteBoot (b : Byte) (s : State) : Result :=
  if s.lines.ls = .send then .next (accept [.wire (.wireByteBoot b), .completeRet] s)
  else .next (reject s)

end Sys2Proof.Machine
end

