-- ==== Sys2Proof/Machine/GenericCommand.lean ====
section
/-! DEFINITION. The generic passthrough (44_dtvtrans_generic.md). Its frame has no fixed opcode and so no row of the
opcode table (R86): the command sends its bytes itself. -/

namespace Sys2Proof.Machine

/-- The pseudocode of GENERIC after its first line (R145). -/
def genericBody (cmd outSize : Byte) (ins : List Byte) : List Micro :=
  .line .send :: sendBytes (cmd :: ins) ++ genericReply outSize ++ exitSteps .completeGeneric

/-- The line-state and operand precondition of GENERIC (R104, R145). -/
def genericReady (ins : List Byte) (s : State) : Bool :=
  decide (s.lines.ls = .off) && genericInputsOK ins

/-- GENERIC `cmd, out_size, [in...]` (R145): of the latches it writes `PST` alone, and `CHK` it does not touch. What
R29 clears at its start is cleared before it (`startCommand`; log entry 11). -/
def execGeneric (cmd outSize : Byte) (ins : List Byte) (s : State) : Result :=
  if genericReady ins s = true then
    .next (accept (genericBody cmd outSize ins) { s with lat.pst := stOk })
  else .next (reject s)

end Sys2Proof.Machine
end

