-- ==== Sys2Proof/Machine/LineCommands.lean ====
section
/-! DEFINITION. The line-state commands (40_line_state.md). Each is taken, runs its writes one Engine step each, and
completes in a step of its own. -/

namespace Sys2Proof.Machine

/-- STATE_OFF (R101). -/
def execStateOff (s : State) : Result := .next (accept (.line .off :: idleLatches ++ [.completeOk]) s)

/-- STATE_SEND (R102). -/
def execStateSend (s : State) : Result := .next (accept [.line .send, .completeOk] s)

/-- STATE_RECV (R103). -/
def execStateRecv (s : State) : Result := .next (accept [.line .recv, .completeOk] s)

end Sys2Proof.Machine
end

