-- ==== Sys2Proof/Machine/ParamCommands.lean ====
section
/-! DEFINITION. Parameter access (45_params.md). No line event and no wait. -/

namespace Sys2Proof.Machine

/-- PARAM_WR `idx, val` (R150). -/
def execParamWr (idx : Byte) (val : Word) (s : State) : Result :=
  match paramOfIndex idx with
  | some p => .next (accept [.paramWr p val, .completeOk] s)
  | none => .next (reject s)

/-- PARAM_RD `idx` (R151). -/
def execParamRd (idx : Byte) (s : State) : Result :=
  match paramOfIndex idx with
  | some p => .next (accept [.completeWord p] s)
  | none => .next (reject s)

end Sys2Proof.Machine
end

