-- ==== Sys2Proof/Machine/ProbeReset.lean ====
section
/-! DEFINITION. The liveness probe and the device reset (42_dtvlow_probe_reset.md). -/

namespace Sys2Proof.Machine

/-- The pseudocode of IS_ALIVE (R121): four levels 0, 1, 0, 1 within one budget, bracketed by Recv and Off. -/
def aliveBody (timeout : Word) : List Micro :=
  [.line .recv, .snapAlive] ++ aliveLevelSteps 0#1 timeout ++ aliveLevelSteps 1#1 timeout
    ++ aliveLevelSteps 0#1 timeout ++ aliveLevelSteps 1#1 timeout ++ exitSteps .completeRet

/-- IS_ALIVE `timeout` (R121). -/
def execIsAlive (timeout : Word) (s : State) : Result :=
  if s.lines.ls = .off then .next (accept (aliveBody timeout) s)
  else .next (reject s)

/-- The pre-delay and the knock of RESET_DEVICE; without knock both are skipped (R123). -/
def knockSteps (mode : Byte) : List Micro :=
  if mode = 0x01#8 then tickWait .resetPre ++ [.latchData 0b000#3, .latchAck 0#1, .knock true] else []

/-- The pseudocode of RESET_DEVICE (R123): RESET is released one step before the knock lines. -/
def resetBody (mode : Byte) : List Micro :=
  .resetDrive true :: knockSteps mode ++ tickWait .resetHold
    ++ [.resetDrive false, .knock false, .latchAck 1#1, .latchData 0b111#3, .completeOk]

/-- RESET_DEVICE `mode` (R123). -/
def execResetDevice (mode : Byte) (s : State) : Result :=
  if s.lines.ls = .off ∧ resetModeOK mode = true then .next (accept (resetBody mode) s)
  else .next (reject s)

end Sys2Proof.Machine
end

