-- ==== Sys2Proof/Machine/WireFrames.lean ====
section
/-! DEFINITION. What the engine issues while a command runs: the two frames with a fixed opcode (R84, R85) and the
two ways a byte crosses the wires (R82, R83). Each puts its own pseudocode in front of what is left of the command. -/

namespace Sys2Proof.Machine

/-- WIRE_READ (R85): the frame of RECV_BLOCK. -/
def execWireRead (mode bank : Byte) (offset length : Word) (s : State) : Result :=
  .next (doNext (readFrame mode bank offset length) s)

/-- WIRE_WRITE (R84): the frame of SEND_BLOCK. -/
def execWireWrite (mode bank : Byte) (offset length : Word) (s : State) : Result :=
  .next (doNext (writeFrame mode bank offset length) s)

/-- WIRE_BYTE_NORMAL (R82): in state Send `SendByte(b)` (R112), in state Recv `RecvByte()` (R113). -/
def execWireByteNormal (b : Byte) (s : State) : Result :=
  match s.lines.ls with
  | .send => .next (startByte b (txByte false) s)
  | .recv => .next (startByte 0#8 rxByte s)
  | .off => .fault .lineStateForbids

/-- WIRE_BYTE_BOOT (R83): `SendByteBoot(b)` (R114); there is no boot-mode receive. -/
def execWireByteBoot (b : Byte) (s : State) : Result :=
  match s.lines.ls with
  | .send => .next (startByte b (txByte true) s)
  | .recv => .fault .lineStateForbids
  | .off => .fault .lineStateForbids

end Sys2Proof.Machine
end

