-- ==== Sys2Proof/Machine/Dispatch.lean ====
section
/-! DEFINITION. The meaning of every instruction, one arm per constructor. -/

namespace Sys2Proof.Machine

def exec (i : Instr) (s : State) : Host.Outcome State Fault Refusal :=
  match i with
  | .stateOff => Sys2Proof.Machine.execStateOff s
  | .stateSend => Sys2Proof.Machine.execStateSend s
  | .stateRecv => Sys2Proof.Machine.execStateRecv s
  | .sendByte b => Sys2Proof.Machine.execSendByte b s
  | .recvByte => Sys2Proof.Machine.execRecvByte s
  | .sendByteBoot b => Sys2Proof.Machine.execSendByteBoot b s
  | .isAlive timeout => Sys2Proof.Machine.execIsAlive timeout s
  | .resetDevice mode => Sys2Proof.Machine.execResetDevice mode s
  | .generic cmd outSize ins => Sys2Proof.Machine.execGeneric cmd outSize ins s
  | .recvBlock mode bank offset length crc => Sys2Proof.Machine.execRecvBlock mode bank offset length crc s
  | .sendBlock mode bank offset length crc => Sys2Proof.Machine.execSendBlock mode bank offset length crc s
  | .paramWr idx val => Sys2Proof.Machine.execParamWr idx val s
  | .paramRd idx => Sys2Proof.Machine.execParamRd idx s
  | .wireRead mode bank offset length => Sys2Proof.Machine.execWireRead mode bank offset length s
  | .wireWrite mode bank offset length => Sys2Proof.Machine.execWireWrite mode bank offset length s
  | .wireByteNormal b => Sys2Proof.Machine.execWireByteNormal b s
  | .wireByteBoot b => Sys2Proof.Machine.execWireByteBoot b s

end Sys2Proof.Machine
end

