-- ==== Sys2Proof/Machine/Fetch.lean ====
section
/-! DEFINITION. One Engine step: where the engine takes its next instruction from, and what it does with it; runs of
Engine steps; and how an instruction is placed where the next step takes it from. -/

namespace Sys2Proof.Machine

/-- What every Engine step does first: the `done` pulse is over, no event yet, and whether a poll is owed (R61 b). -/
def beginEngine (polled : Bool) (s : State) : State :=
  { s with rsp.done := false, env.event := .quiet, env.polled := polled }

/-- Whether a command is one of those whose start clears the latches, a block command or GENERIC (R29), and runs: a
refused one changes nothing (R76). -/
def startsFresh (i : Instr) (s : State) : Bool :=
  match i with
  | .recvBlock _ _ offset length _ => blockReady offset length s
  | .sendBlock _ _ offset length _ => blockReady offset length s
  | .generic _ _ ins => genericReady ins s
  | .stateOff | .stateSend | .stateRecv | .sendByte _ | .recvByte | .sendByteBoot _ | .isAlive _ | .resetDevice _
  | .paramWr _ _ | .paramRd _ | .wireRead _ _ _ _ | .wireWrite _ _ _ _ | .wireByteNormal _ | .wireByteBoot _ => false

/-- The start of a command (R29), before the first statement of its own rule. DEDUCED, log entry 11: so `CHK` is 0 when a
GENERIC starts, though R145's pseudocode does not touch it. -/
def startCommand (i : Instr) (s : State) : State :=
  { s with lat := if startsFresh i s then clearedLatches else s.lat }

/-- The packet port (R22): the Host's next packet is taken and sets `BUSY`; what is no command is to be refused (R76 a,
b). With no packet offered the engine stays idle. -/
def takePacket (s : State) : Result :=
  match s.env.packets with
  | [] => .next s
  | p :: rest =>
    match decodePacket p with
    | .ok i => exec i (startCommand i { s with seq.packet := p, env.packets := rest })
    | .error _ => .next (reject { s with seq.packet := p, env.packets := rest })

/-- The running command's next statement (R33): a frame or a byte is executed, any other statement runs. -/
def runSeq (s : State) : Result :=
  match s.seq.todo with
  | [] => .fault .sequencerEmpty
  | .wire i :: k => exec i (beginEngine true { s with seq.todo := k })
  | m :: k => .next (runMicro m (beginEngine (polledAfter m s.env.polled) { s with seq.todo := k }))

/-- One Engine step (R5, R22): with `BUSY = 1` the command goes on and an offered packet waits. -/
def engineStep (s : State) : Result :=
  if s.rsp.busy then runSeq s else takePacket (beginEngine true s)

/-- `n` Engine steps with no step of another agent between them. -/
def engineRun : Nat → State → Result
  | 0, s => .next s
  | n + 1, s =>
    match engineStep s with
    | .next t => engineRun n t
    | .fault r => .fault r
    | .refused r => .refused r

/-- The events of `n` Engine steps in order, the trace of R6 and R12; a step without an event adds nothing. -/
def engineTrace : Nat → State → List Event
  | 0, _ => []
  | n + 1, s =>
    match engineStep s with
    | .next t => if t.env.event = .quiet then engineTrace n t else t.env.event :: engineTrace n t
    | .fault _ => []
    | .refused _ => []

/-- A Timebase turn: an increment, unless the Engine owes a poll first (R61 b): then the Engine steps instead, and the
turn stays. -/
def timebaseTurn (waits goes : State) : Result :=
  if tickHeld waits then engineStep waits else .next (tick goes)

/-- One step of the agent whose turn it is (R5), from `goes`, where the turn is taken off; from `waits` if a turn of the
Timebase must wait. -/
def takeTurn (turn : Turn) (waits goes : State) : Result :=
  match turn with
  | .engine => engineStep goes
  | .timebase => timebaseTurn waits goes
  | .host m => .next (hostStep m goes)
  | .device m => .next (deviceStep m goes)
  | .blockReset => .next (blockReset goes)

/-! ## Placing an instruction (the host's `withFetchWord`) -/

/-- A packet is offered at the port of an idle engine whose turn it is. -/
def offerPacket (p : List Byte) (s : State) : State :=
  { s with rsp.busy := false, seq.todo := [], env.sched := [.engine], env.packets := [p] }

/-- A byte stands where SEND_BYTE or SEND_BYTE_BOOT issues it: in state Send, with the command's completion after it. -/
def issueByte (op : Byte) (i : Instr) (s : State) : State :=
  { s with lines.ls := .send, rsp.busy := true, env.sched := [.engine],
           seq.packet := [op], seq.todo := [.wire i, .completeRet] }

/-- A frame stands where a block command issues it: with the command's exit and completion after it. -/
def issueFrame (op : Byte) (i : Instr) (s : State) : State :=
  { s with rsp.busy := true, env.sched := [.engine],
           seq.packet := [op], seq.todo := .wire i :: exitSteps .completeBlock }

/-- The state in which the next step takes the code's instruction; a wire code that is none changes nothing. -/
def placeCode (c : Code) (s : State) : State :=
  match c with
  | .packet p => offerPacket p s
  | .frame bytes =>
    match decodeFrame bytes with
    | .ok (.wireRead mode bank offset length) =>
      issueFrame opRecvBlock (.wireRead mode bank offset length) s
    | .ok i => issueFrame opSendBlock i s
    | .error _ => s
  | .phases w =>
    match decodePhases w with
    | .ok (.wireByteBoot b) => issueByte opSendByteBoot (.wireByteBoot b) s
    | .ok i => issueByte opSendByte i s
    | .error _ => s

end Sys2Proof.Machine
end

