-- ==== Sys2Proof/Machine/Step.lean ====
section
/-! DEFINITION. One step of the machine: one step of the agent whose turn it is (R5). -/

namespace Sys2Proof.Machine

/-- One step. The schedule says whose; where it lists nothing, a free value chooses the agent and its move, or
the block reset (R5, R61, R190). -/
def step (s : State) : Host.Outcome State Fault Refusal :=
  match s.env.sched with
  | t :: ts => takeTurn t s { s with env.sched := ts }
  | [] =>
    takeTurn (freeTurn s.env.draws) { s with env.draws := s.env.draws + 1 } { s with env.draws := s.env.draws + 1 }

/-- The state with a table word's instruction where `step` takes its next instruction from. -/
def State.withFetchWord (s : State) (nbits w : Nat) : State := placeCode (codeOfTableWord nbits w) s

end Sys2Proof.Machine
end

