-- ==== Sys2Proof/Machine/Transfer.lean ====
section
/-! DEFINITION. The two pseudo-instructions XFER_READ and XFER_WRITE (R90, R155): how the Host's transfer core cuts a
transfer into RECV_BLOCK or SEND_BLOCK commands. This is software above the engine (R4): it decides the operands the
engine receives and is no part of the machine's step. -/

namespace Sys2Proof.Machine

/-- The block one iteration asks for. -/
structure BlockRequest where
  bank : Nat
  offset : Nat
  length : Nat
deriving DecidableEq, Repr

/-- `offset = base & 0x3FFF`, `bank = base >> 14`, and the room left in the bank bounds the length (R155). -/
def nextRequest (base length blockSize : Nat) : BlockRequest :=
  { bank := base / bankSize, offset := base % bankSize,
    length := min length (min blockSize (bankSize - base % bankSize)) }

/-- `XFER_READ` issues RECV_BLOCK, `XFER_WRITE` issues SEND_BLOCK. -/
inductive Direction where
  | read | write
deriving DecidableEq, Repr

/-- The transfer core's loop variables (R155). -/
structure Transfer where
  dir : Direction
  mode : Byte
  base : Nat
  length : Nat
  blockSize : Nat
  total : Nat
  crc : Word
deriving DecidableEq, Repr

/-- The command of the next iteration; none when the loop is over, and none where the bank does not fit the 8-bit
operand, which the source does not settle (91_not_in_source.md N10). -/
def Transfer.command (x : Transfer) : Option Instr :=
  let r := nextRequest x.base x.length x.blockSize
  if x.length = 0 ∨ 256 ≤ r.bank then none
  else match x.dir with
    | .read => some (.recvBlock x.mode (BitVec.ofNat 8 r.bank) (BitVec.ofNat 16 r.offset)
                (BitVec.ofNat 16 r.length) x.crc)
    | .write => some (.sendBlock x.mode (BitVec.ofNat 8 r.bank) (BitVec.ofNat 16 r.offset)
                (BitVec.ofNat 16 r.length) x.crc)

/-- The status the loop goes by: the Host's `check_block` speaks only when the block succeeded (R155, R175 f). -/
def Transfer.outcome (status checkBlock : Byte) : Byte := if status = 0x00#8 then checkBlock else status

/-- The loop variables after a response: the transfer advances by the length actually transferred (R155). -/
def Transfer.advance (x : Transfer) (xferlen crc : Word) : Transfer :=
  { x with base := x.base + xferlen.toNat, length := x.length - xferlen.toNat,
           total := x.total + xferlen.toNat, crc := crc }

/-- The blocks of a transfer in which every block succeeds, at most `n` of them. -/
def requests (blockSize : Nat) : Nat → Nat → Nat → List BlockRequest
  | 0, _, _ => []
  | n + 1, base, length =>
    if length = 0 then []
    else
      let r := nextRequest base length blockSize
      r :: requests blockSize n (base + r.length) (length - r.length)

end Sys2Proof.Machine
end

