-- ==== Sys2Proof/Safety.lean ====
section
/-! DEFINITION. What counts as a safe run, in the terms the statements use: the form `SEQ` keeps while a command runs
and what the lines look like when none runs; the bounds of the scratch registers; what an event says about the lines;
and the runs, traces and answers the statements speak of. Predicates and data only: the machine does not use them. -/

namespace Sys2Proof.Safety

open Sys2Proof.Machine

/-- RESET and ACK released and `ACK_OUT` idle: nothing of a RESET_DEVICE is under way (R24, R25). -/
def linesIdle (l : Lines) : Bool := !l.rstDrv && !l.knock && decide (l.ackOut = 1#1)

/-- A statement that completes a command in state Off. -/
def completesOff : Micro → Bool
  | .completeOk => true
  | .completeRet => true
  | .completeGeneric => true
  | .completeBlock => true
  | _ => false

/-- A compound command's way out lies ahead: its `StateOff()` and then one completion, and nothing more (R176). -/
def hasExit (k : List Micro) : Bool :=
  match dropToExit k with
  | [.exit, .latchData _, .latchClk _, m] => completesOff m
  | _ => false

/-- The return of the byte procedure that runs lies ahead, with only statements of that procedure before it. -/
def inByte : List Micro → Bool
  | .byteEnd _ :: _ => true
  | .txData _ _ :: k => inByte k
  | .phaseClk _ :: k => inByte k
  | .snap :: k => inByte k
  | .ackPoll :: k => inByte k
  | .settle :: k => inByte k
  | .rxSample :: k => inByte k
  | _ => false

/-- The abort path may be taken here. -/
def mayAbort (l : Lines) (k : List Micro) : Bool := linesIdle l && hasExit k

/-- What a byte or a frame needs of the line state when it is issued (R112 to R114), and a frame's way out. -/
def wireReady (l : Lines) (k : List Micro) : Instr → Bool
  | .wireByteNormal _ => !decide (l.ls = .off)
  | .wireByteBoot _ => decide (l.ls = .send)
  | .wireRead _ _ _ _ => mayAbort l k
  | .wireWrite _ _ _ _ => mayAbort l k
  | _ => false

/-- What a statement needs of the lines `l` and of the statements `k` after it. -/
def ready (l : Lines) (k : List Micro) : Micro → Bool
  | .wire i => wireReady l k i
  | .line _ => true
  | .latchData _ => true
  | .latchClk _ => true
  | .latchAck _ => true
  | .resetDrive _ => true
  | .knock _ => true
  | .txData _ _ => decide (l.ls = .send)
  | .phaseClk _ => true
  | .snap => true
  | .ackPoll => inByte k
  | .settle => true
  | .rxSample => true
  | .byteEnd _ => true
  | .tickPoll _ => true
  | .snapAlive => true
  | .aliveClk _ => true
  | .aliveTest _ _ => mayAbort l k
  | .aliveSample _ _ => mayAbort l k
  | .check => mayAbort l k
  | .startData => true
  | .sendLoop _ => decide (l.ls = .send) && mayAbort l k
  | .pull => decide (l.ls = .send) && mayAbort l k
  | .accSend _ => true
  | .sendChk => decide (l.ls = .send) && mayAbort l k
  | .recvLoop _ => decide (l.ls = .recv) && mayAbort l k
  | .accRecv => true
  | .push _ => true
  | .latchDevchk => true
  | .genSize => decide (l.ls = .recv) && mayAbort l k
  | .genLoop _ => decide (l.ls = .recv) && mayAbort l k
  | .genStore => true
  | .paramWr _ _ => true
  | .exit => true
  | .refuse => linesIdle l && k.isEmpty
  | .completeOk => linesIdle l && k.isEmpty
  | .completeRet => linesIdle l && k.isEmpty
  | .completeRecv => linesIdle l && k.isEmpty && decide (l.ls = .recv)
  | .completeWord _ => linesIdle l && k.isEmpty
  | .completeGeneric => linesIdle l && k.isEmpty && decide (l.ls = .off)
  | .completeBlock => linesIdle l && k.isEmpty && decide (l.ls = .off)

/-- The lines after a frame: both end in state Recv (R84, R85). -/
def linesAfterWire (l : Lines) : Instr → Lines
  | .wireRead _ _ _ _ => { l with ls := .recv }
  | .wireWrite _ _ _ _ => { l with ls := .recv }
  | _ => l

/-- What a statement leaves of the line state and of RESET and ACK. -/
def linesAfter (l : Lines) : Micro → Lines
  | .wire i => linesAfterWire l i
  | .line x => { l with ls := x }
  | .exit => { l with ls := .off }
  | .latchAck v => { l with ackOut := v }
  | .resetDrive on => { l with rstDrv := on }
  | .knock on => { l with knock := on }
  | _ => l

/-- Whether a statement ends a command: a completion or the refusal. -/
def completes : Micro → Bool
  | .refuse => true
  | .completeRecv => true
  | .completeWord _ => true
  | m => completesOff m

/-- `SEQ` is the rest of a command's pseudocode for the lines `l`: every frame and byte it issues finds the line state
its procedure requires, every wait and every abort has its way out, and it ends once, by completing or refusing, with
RESET and ACK released and (R104) in the line state the command ends in. -/
def seqOk (l : Lines) : List Micro → Bool
  | [] => false
  | m :: k => ready l k m && (completes m || seqOk (linesAfter l m) k)

/-- The sequencer invariant: a running command has a way to its end; with no command `SEQ` is idle (R33) and RESET and
ACK are released (R25: `RSTDRV` and `KNOCK` "are 0 outside that command"). -/
def SeqInv (s : State) : Prop :=
  if s.rsp.busy = true then seqOk s.lines s.seq.todo = true
  else s.seq.todo = [] ∧ linesIdle s.lines = true

/-- The scratch registers stay inside one bank (R28, R55; conflict C10: "the scratch registers always satisfy the
bounds"). -/
def ScratchInv (s : State) : Prop := blockOperandsOK s.blk.offset s.blk.length = true

/-- What an event says about the lines: everything that happens to them is in the trace (R6). -/
def applyEvent (e : Event) (l : Lines) : Lines :=
  match e with
  | .quiet => l
  | .data v => { l with dataOut := v }
  | .clk v => { l with clkOut := v }
  | .dataOut v => { l with dataOut := v }
  | .clkOut v => { l with clkOut := v }
  | .ackOut v => { l with ackOut := v }
  | .sampleAck _ => l
  | .sampleData _ => l
  | .line x => { l with ls := x }
  | .resetDrive on => { l with rstDrv := on }
  | .knock on => { l with knock := on }
  | .pull _ _ => l
  | .push _ _ => l
  | .tick => l
  | .blockReset => Lines.reset

/-! ## Runs and traces -/

/-- `n` steps of the machine. -/
def stepRun : Nat → State → Result
  | 0, s => .next s
  | n + 1, s =>
    match step s with
    | .next t => stepRun n t
    | .fault r => .fault r
    | .refused r => .refused r

/-- The events of `n` steps in order (R6, R12), ticks of the Timebase among them. -/
def stepTrace : Nat → State → List Event
  | 0, _ => []
  | n + 1, s =>
    match step s with
    | .next t => if t.env.event = .quiet then stepTrace n t else t.env.event :: stepTrace n t
    | .fault _ => []
    | .refused _ => []

/-- Engine steps alone lead from `t` to `u`, and the trace of them is `es`. -/
def EngineReaches (t : State) (es : List Event) (u : State) : Prop :=
  ∃ n, engineRun n t = .next u ∧ engineTrace n t = es

/-- Steps of Engine and Timebase, in an order that some schedule lists before what `t` lists, lead from `t` to `u`,
and the trace of them is `es`. -/
def Reaches (t : State) (es : List Event) (u : State) : Prop :=
  ∃ (n : Nat) (turns : List Turn), (∀ x ∈ turns, x = .engine ∨ x = .timebase) ∧
    stepRun n { t with env.sched := turns ++ t.env.sched } = .next u ∧
    stepTrace n { t with env.sched := turns ++ t.env.sched } = es

/-! ## What a Device and a Host answer, and what the wires show -/

/-- The answers at `Sample(ACK)` of a Device that acknowledges the four clock levels of `n` bytes at once (R118 i). -/
def ackEcho : Nat → List Bit
  | 0 => []
  | n + 1 => 0#1 :: 1#1 :: 0#1 :: 1#1 :: ackEcho n

/-- The three DATA samples of one received byte, phase 1 first. -/
abbrev Samples := Tri × Tri × Tri

/-- The byte they make (R82): `DATA[2]` of the third is ignored. -/
def received (d : Samples) : Byte := d.1 ++ d.2.1 ++ d.2.2.extractLsb' 0 2

/-- The answers at `Sample(DATA)` for a list of bytes. -/
def samples : List Samples → List Tri
  | [] => []
  | d :: l => d.1 :: d.2.1 :: d.2.2 :: samples l

/-- The trace of a byte sent in normal mode (R112): the four DATA values, each before its clock level. -/
def sentTrace (b : Byte) : List Event :=
  [.data (b.extractLsb' 5 3), .clk 0#1, .sampleAck 0#1, .data (b.extractLsb' 2 3), .clk 1#1, .sampleAck 1#1,
   .data (0#1 ++ b.extractLsb' 0 2), .clk 0#1, .sampleAck 0#1, .data 0b111#3, .clk 1#1, .sampleAck 1#1]

/-- The trace of a byte received (R113): three DATA samples, each after its acknowledge. -/
def receivedTrace (d : Samples) : List Event :=
  [.clk 0#1, .sampleAck 0#1, .sampleData d.1, .clk 1#1, .sampleAck 1#1, .sampleData d.2.1,
   .clk 0#1, .sampleAck 0#1, .sampleData d.2.2, .clk 1#1, .sampleAck 1#1]

/-- The checksum of R130 after `data`, from the value `chk`. -/
def checksum (chk : Byte) (data : List Byte) : Byte := data.foldl addChk chk

/-- The CRC of R131 after `data`, from the seed `crc`. -/
def crcOver (crc : Word) (data : List Byte) : Word := data.foldl addCrc crc

/-- The trace of the header of a frame (R133). -/
def headerTrace (op mode bank : Byte) (offset length : Word) : List Event :=
  (headerBytes op mode bank offset length).flatMap sentTrace

/-- Data bytes that the Host gave and PE sent (R134). -/
def pulledTrace (data : List Byte) : List Event := data.flatMap (fun b => .pull b 0x00#8 :: sentTrace b)

/-- Data bytes that PE received and the Host took (R135). -/
def pushedTrace (data : List Samples) : List Event :=
  data.flatMap (fun d => receivedTrace d ++ [.push (received d) 0x00#8])

/-- One level of the probe (R121): a clock write, then `n` samples at that level with `d` ticks after each. -/
def levelTrace (level : Bit) (n d : Nat) : List Event :=
  .clk level :: (List.replicate n (.sampleAck level :: List.replicate d .tick)).flatten

/-! ## What the commands require -/

/-- The line state a command requires (R104). -/
def requiredLine : Instr → Option LineState
  | .stateOff => none
  | .stateSend => none
  | .stateRecv => none
  | .sendByte _ => some .send
  | .recvByte => some .recv
  | .sendByteBoot _ => some .send
  | .isAlive _ => some .off
  | .resetDevice _ => some .off
  | .generic _ _ _ => some .off
  | .recvBlock _ _ _ _ _ => some .off
  | .sendBlock _ _ _ _ _ => some .off
  | .paramWr _ _ => none
  | .paramRd _ => none
  | .wireRead _ _ _ _ => none
  | .wireWrite _ _ _ _ => none
  | .wireByteNormal _ => none
  | .wireByteBoot _ => none

/-- The trace of `StateOff()` (R101): `LS=Off`, and the two latches back to their idle values. -/
def offTrace : List Event := [.line .off, .dataOut 0b111#3, .clkOut 1#1]

/-- The state after a refusal (R76): `ILL` set, `BUSY` clear, the `done` pulse, `SEQ` idle; of the model's own fields no
event is left and no poll is owed. -/
def refusedState (s : State) : State :=
  { s with rsp.ill := true, rsp.busy := false, rsp.done := true, seq.todo := [],
           env.event := .quiet, env.polled := true }

/-- A command is taken and refused (R22, R76): `exec` sets `BUSY`, and the engine refuses without an event. -/
def Refused (i : Instr) (s : State) : Prop :=
  ∃ t, exec i s = .next t ∧ t.rsp.busy = true ∧ EngineReaches t [] (refusedState s)

/-- PARAM_RD `idx` runs from `r` to its end, and what it reads is `v` (R151). -/
def ParamReads (idx : Byte) (v : Word) (r : State) : Prop :=
  ∃ t u, exec (.paramRd idx) r = .next t ∧ EngineReaches t [] u ∧ u.rsp.busy = false ∧ u.rsp.rword = v

/-- The opcode of the command taken last is one of the compound commands (R104). -/
def compound (s : State) : Bool :=
  match s.seq.packet with
  | [] => false
  | op :: _ => [opIsAlive, opResetDevice, opGeneric, opRecvBlock, opSendBlock].contains op

/-- The line state when the statements `k` have run from the lines `l` without an abort. -/
def lineAtEnd (l : Lines) (k : List Micro) : LineState := (k.foldl linesAfter l).ls

/-- A compound command is on its way to state Off (R104), or to its refusal. -/
def EndsOffInv (s : State) : Prop :=
  SeqInv s ∧ (s.rsp.busy = true → compound s = true →
    lineAtEnd s.lines s.seq.todo = .off ∨ s.seq.todo = [.refuse])

/-- A statement that drives RESET or ACK (R123). -/
def drivesReset : Micro → Bool
  | .resetDrive _ => true
  | .knock _ => true
  | .latchAck _ => true
  | _ => false

/-- RESET and ACK are in use only while RESET_DEVICE runs (R124 e). -/
def ResetInv (s : State) : Prop :=
  SeqInv s ∧ (s.rsp.busy = true → s.seq.packet.head? = some opResetDevice ∨
    (s.seq.todo.all (fun m => !drivesReset m) = true ∧ linesIdle s.lines = true))

/-- A write of a parameter register stands only where a PARAM_WR of that register and value runs (R152). -/
def ParamInv (s : State) : Prop :=
  SeqInv s ∧ ∀ q v, .paramWr q v ∈ s.seq.todo →
    ∃ idx, decodePacket s.seq.packet = .ok (.paramWr idx v) ∧ paramOfIndex idx = some q

/-- The same machine with `c` more on `T100` and its snapshot and `d` more on `T10MS` and its snapshot. -/
def shiftTime (c d : Word) (s : State) : State :=
  { s with time.t100 := s.time.t100 + c, hid.t0 := s.hid.t0 + c,
           time.t10ms := s.time.t10ms + d, hid.t0a := s.hid.t0a + d }

end Sys2Proof.Safety
end

