-- ==== Sys2Proof/Certificates/Slice0/Obligations.lean ====
section
/-! DEFINITION. The statements for the provers, in the order: encodings, line states, bytes, probe and reset, frames
and blocks, generic command, parameters, refusal, the step, time, reset, invariants. A statement about a command says
that `exec` takes it and what the engine then does, down to the last register; a register the equation does not name
keeps its value. -/

section Statements

open Sys2Proof Sys2Proof.Machine Sys2Proof.Safety

/-! ## Encodings -/

/-- R70 to R74, R82 to R85: every well-formed instruction is read back from its code, whatever its operands. -/
def Obligations.DecodingAnEncodingGivesTheInstruction : Prop :=
  ∀ i : Instr, i.wellFormed = true → decode (encode i) = .ok i

/-- R70 to R74, R82 to R85: a code that decodes is the code of what it decodes to, so no instruction has two codes. -/
def Obligations.EncodingADecodingGivesTheCode : Prop :=
  ∀ (c : Code) (i : Instr), decode c = .ok i → encode i = c

/-- R72, R82 to R85, R89: words written out from the spec's tables and examples. -/
def Obligations.WrittenWordsDecode : Prop :=
  decode (.packet [0x10#8]) = .ok .stateOff ∧
  decode (.packet [0x20#8, 0xA5#8]) = .ok (.sendByte 0xA5#8) ∧
  decode (.packet [0x30#8, 0x64#8, 0x00#8]) = .ok (.isAlive 0x0064#16) ∧
  decode (.packet [0x40#8, 0x10#8, 0x02#8, 0x01#8, 0xAA#8]) = .ok (.generic 0x10#8 0x02#8 [0xAA#8]) ∧
  decode (.packet [0x42#8, 0x00#8, 0x01#8, 0xF0#8, 0x3F#8, 0x10#8, 0x00#8, 0xFF#8, 0xFF#8])
    = .ok (.sendBlock 0x00#8 0x01#8 0x3FF0#16 0x0010#16 0xFFFF#16) ∧
  decode (.packet [0x50#8, 0x00#8, 0x64#8, 0x00#8]) = .ok (.paramWr 0x00#8 0x0064#16) ∧
  decode (.frame [0x01#8, 0x00#8, 0x00#8, 0x34#8, 0x12#8, 0x02#8, 0x00#8])
    = .ok (.wireRead 0x00#8 0x00#8 0x1234#16 0x0002#16) ∧
  decode (.phases 0b1010001100101111#16) = .ok (.wireByteNormal 0xA5#8) ∧
  decode (.phases 0b0000001101000111#16) = .ok (.wireByteBoot 0x1B#8)

/-- R72 to R74, R76 (a), (b): which packets are commands: by opcode and length, and for GENERIC by `n_in`. -/
def Obligations.PacketsThatDecode : Prop :=
  ∀ p : List Byte, (∃ i, decodePacket p = .ok i) ↔
    ∃ op rest, p = op :: rest ∧
      ((op ∈ [0x10#8, 0x11#8, 0x12#8, 0x21#8] ∧ p.length = 1) ∨
       (op ∈ [0x20#8, 0x22#8, 0x31#8, 0x51#8] ∧ p.length = 2) ∨
       (op = 0x30#8 ∧ p.length = 3) ∨ (op = 0x50#8 ∧ p.length = 4) ∨
       (op ∈ [0x41#8, 0x42#8] ∧ p.length = 9) ∨
       (op = 0x40#8 ∧ ∃ cmd outSize nIn ins, rest = cmd :: outSize :: nIn :: ins ∧ ins.length = nIn.toNat))

/-- R79: the five fixed codes, and all twelve pairwise distinct. -/
def Obligations.StatusCodesAreDistinct : Prop :=
  stOk = 0x00#8 ∧ noAck .p1 = 0x01#8 ∧ noAck .p2 = 0x02#8 ∧ noAck .p3 = 0x03#8 ∧ noAck .p4 = 0x04#8 ∧
  [stOk, noAck .p1, noAck .p2, noAck .p3, noAck .p4, stChecksum, stCrc16, stClientTimeout, stClientAbort,
   stVerify, stNotAlive, stCmdError].Nodup

/-- R78: the response packet of every command, read before the next one is taken, and of any refused packet. -/
def Obligations.ResponsePackets : Prop :=
  (∀ s : State, s.rsp.ill = true → response s = [0x01#8, s.rsp.status]) ∧
  ∀ (s : State) (i : Instr), decodePacket s.seq.packet = .ok i → s.rsp.busy = false → s.rsp.ill = false →
    response s = 0x00#8 :: s.rsp.status ::
      match i with
      | .recvByte => [s.rsp.rbyte]
      | .paramRd _ => [s.rsp.rword.extractLsb' 0 8, s.rsp.rword.extractLsb' 8 8]
      | .recvBlock _ _ _ _ _ | .sendBlock _ _ _ _ _ =>
        [s.blk.xferlen.extractLsb' 0 8, s.blk.xferlen.extractLsb' 8 8,
         s.blk.crc16.extractLsb' 0 8, s.blk.crc16.extractLsb' 8 8]
      | .generic _ _ _ => s.rsp.outcnt :: s.rsp.outbuf.toList.take s.rsp.outcnt.toNat
      | _ => []

/-! ## Line states -/

/-- R22, R101: STATE_OFF is taken in every state, makes the three writes of `StateOff()` in order, and completes. -/
def Obligations.StateOffCompletes : Prop :=
  encode .stateOff = .packet [0x10#8] ∧ ∀ s : State,
    ∃ t, exec .stateOff s = .next t ∧ t.rsp.busy = true ∧
      EngineReaches t [.line .off, .dataOut 0b111#3, .clkOut 1#1]
        { s with
          lines.ls := .off, lines.dataOut := 0b111#3, lines.clkOut := 1#1,
          rsp.ill := false, rsp.status := 0x00#8, rsp.busy := false, rsp.done := true,
          seq.todo := [], seq.retStatus := 0x00#8, seq.out := [], env.event := .quiet, env.polled := true }

/-- R22, R102: STATE_SEND is taken in every state and completes; the latches are not changed. That a write of `LS` which
leaves it as it was shows in the trace is the model's choice, here and for STATE_RECV and STATE_OFF: log entry 3. -/
def Obligations.StateSendCompletes : Prop :=
  encode .stateSend = .packet [0x11#8] ∧ ∀ s : State,
    ∃ t, exec .stateSend s = .next t ∧ t.rsp.busy = true ∧
      EngineReaches t [.line .send]
        { s with
          lines.ls := .send,
          rsp.ill := false, rsp.status := 0x00#8, rsp.busy := false, rsp.done := true,
          seq.todo := [], seq.retStatus := 0x00#8, seq.out := [], env.event := .quiet, env.polled := true }

/-- R22, R103: STATE_RECV is taken in every state and completes; the latches are not changed. -/
def Obligations.StateRecvCompletes : Prop :=
  encode .stateRecv = .packet [0x12#8] ∧ ∀ s : State,
    ∃ t, exec .stateRecv s = .next t ∧ t.rsp.busy = true ∧
      EngineReaches t [.line .recv]
        { s with
          lines.ls := .recv,
          rsp.ill := false, rsp.status := 0x00#8, rsp.busy := false, rsp.done := true,
          seq.todo := [], seq.retStatus := 0x00#8, seq.out := [], env.event := .quiet, env.polled := true }

/-- R20, R25: what the pads carry in each line state. -/
def Obligations.OutputEnables : Prop :=
  ∀ l : Lines,
    l.ports.dataO = l.dataOut ∧ l.ports.clkO = l.clkOut ∧ l.ports.ackO = l.ackOut ∧ l.ports.rstO = 0#1 ∧
    (l.ls = .off → l.ports.dataOe = l.knock ∧ l.ports.clkOe = false ∧ l.ports.ackOe = l.knock ∧
      l.ports.rstOe = l.rstDrv) ∧
    (l.ls = .send → l.ports.dataOe = true ∧ l.ports.clkOe = true ∧ l.ports.ackOe = false ∧ l.ports.rstOe = false) ∧
    (l.ls = .recv → l.ports.dataOe = false ∧ l.ports.clkOe = true ∧ l.ports.ackOe = false ∧ l.ports.rstOe = false)

/-! ## Bytes -/

/-- R82, R112: in state Send a byte order sends its byte, and acknowledges at once let it through. -/
def Obligations.WireByteNormalSends : Prop :=
  ∀ (s : State) (b : Byte) (acks : List Bit),
    s.rsp.busy = true → s.lines.ls = .send → s.env.ackIn = ackEcho 1 ++ acks →
    ∃ t, exec (.wireByteNormal b) s = .next t ∧
      EngineReaches t
        [.data (b.extractLsb' 5 3), .clk 0#1, .sampleAck 0#1, .data (b.extractLsb' 2 3), .clk 1#1, .sampleAck 1#1,
         .data (0#1 ++ b.extractLsb' 0 2), .clk 0#1, .sampleAck 0#1, .data 0b111#3, .clk 1#1, .sampleAck 1#1]
        { s with
          lines.dataOut := 0b111#3, lines.clkOut := 1#1, rsp.done := false,
          hid.t0 := s.time.t100, hid.sr := b, hid.phase := .p4, seq.retStatus := 0x00#8,
          env.ackIn := acks, env.event := .quiet, env.polled := true }

/-- R82, R113: in state Recv a byte order receives a byte; `DATA[2]` of phase 3 is ignored. That the instruction's
operand does not matter is the model's choice: log entry 14. -/
def Obligations.WireByteNormalReceives : Prop :=
  ∀ (s : State) (b : Byte) (acks : List Bit) (d1 d2 d3 : Tri) (datas : List Tri),
    s.rsp.busy = true → s.lines.ls = .recv → s.env.ackIn = ackEcho 1 ++ acks →
    s.env.dataIn = d1 :: d2 :: d3 :: datas →
    ∃ t, exec (.wireByteNormal b) s = .next t ∧
      EngineReaches t
        [.clk 0#1, .sampleAck 0#1, .sampleData d1, .clk 1#1, .sampleAck 1#1, .sampleData d2,
         .clk 0#1, .sampleAck 0#1, .sampleData d3, .clk 1#1, .sampleAck 1#1]
        { s with
          lines.clkOut := 1#1, rsp.done := false,
          hid.t0 := s.time.t100, hid.sr := d1 ++ d2 ++ d3.extractLsb' 0 2, hid.phase := .p4,
          seq.retStatus := 0x00#8, seq.retByte := d1 ++ d2 ++ d3.extractLsb' 0 2,
          env.ackIn := acks, env.dataIn := datas, env.event := .quiet, env.polled := true }

/-- R83, R114: the boot-mode byte; there is no idle phase. -/
def Obligations.WireByteBootSends : Prop :=
  ∀ (s : State) (b : Byte) (acks : List Bit),
    s.rsp.busy = true → s.lines.ls = .send → s.env.ackIn = ackEcho 1 ++ acks →
    ∃ t, exec (.wireByteBoot b) s = .next t ∧
      EngineReaches t
        [.data (0#1 ++ b.extractLsb' 6 2), .clk 0#1, .sampleAck 0#1,
         .data (0#1 ++ b.extractLsb' 4 2), .clk 1#1, .sampleAck 1#1,
         .data (0#1 ++ b.extractLsb' 2 2), .clk 0#1, .sampleAck 0#1,
         .data (0#1 ++ b.extractLsb' 0 2), .clk 1#1, .sampleAck 1#1]
        { s with
          lines.dataOut := 0#1 ++ b.extractLsb' 0 2, lines.clkOut := 1#1, rsp.done := false,
          hid.t0 := s.time.t100, hid.sr := b, hid.phase := .p4, seq.retStatus := 0x00#8,
          env.ackIn := acks, env.event := .quiet, env.polled := true }

/-- R112 to R114: a byte order in a line state its procedure does not allow stops (log entry 13: the model's choice;
no command issues one). -/
def Obligations.ByteOrdersNeedTheirLineState : Prop :=
  ∀ (s : State) (b : Byte),
    (s.lines.ls = .off → exec (.wireByteNormal b) s = .fault .lineStateForbids) ∧
    (s.lines.ls ≠ .send → exec (.wireByteBoot b) s = .fault .lineStateForbids)

/-- R115: SEND_BYTE in state Send with every acknowledge. -/
def Obligations.SendByteCompletes : Prop :=
  ∀ (s : State) (b : Byte) (acks : List Bit),
    s.lines.ls = .send → s.env.ackIn = ackEcho 1 ++ acks →
    ∃ t, exec (.sendByte b) s = .next t ∧
      EngineReaches t (sentTrace b)
        { s with
          lines.dataOut := 0b111#3, lines.clkOut := 1#1,
          rsp.ill := false, rsp.status := 0x00#8, rsp.busy := false, rsp.done := true,
          hid.t0 := s.time.t100, hid.sr := b, hid.phase := .p4, seq.todo := [], seq.retStatus := 0x00#8, seq.out := [],
          env.ackIn := acks, env.event := .quiet, env.polled := true }

/-- R116: RECV_BYTE in state Recv with every acknowledge. -/
def Obligations.RecvByteCompletes : Prop :=
  ∀ (s : State) (acks : List Bit) (d : Samples) (datas : List Tri),
    s.lines.ls = .recv → s.env.ackIn = ackEcho 1 ++ acks → s.env.dataIn = samples [d] ++ datas →
    ∃ t, exec .recvByte s = .next t ∧
      EngineReaches t (receivedTrace d)
        { s with
          lines.clkOut := 1#1,
          rsp.ill := false, rsp.status := 0x00#8, rsp.busy := false, rsp.done := true, rsp.rbyte := received d,
          hid.t0 := s.time.t100, hid.sr := received d, hid.phase := .p4,
          seq.todo := [], seq.retStatus := 0x00#8, seq.out := [], seq.retByte := received d,
          env.ackIn := acks, env.dataIn := datas, env.event := .quiet, env.polled := true }

/-- R117, R201: SEND_BYTE_BOOT in state Send with every acknowledge; the latches are not idle after it. -/
def Obligations.SendByteBootCompletes : Prop :=
  ∀ (s : State) (b : Byte) (acks : List Bit),
    s.lines.ls = .send → s.env.ackIn = ackEcho 1 ++ acks →
    ∃ t, exec (.sendByteBoot b) s = .next t ∧
      EngineReaches t
        [.data (0#1 ++ b.extractLsb' 6 2), .clk 0#1, .sampleAck 0#1,
         .data (0#1 ++ b.extractLsb' 4 2), .clk 1#1, .sampleAck 1#1,
         .data (0#1 ++ b.extractLsb' 2 2), .clk 0#1, .sampleAck 0#1,
         .data (0#1 ++ b.extractLsb' 0 2), .clk 1#1, .sampleAck 1#1]
        { s with
          lines.dataOut := 0#1 ++ b.extractLsb' 0 2, lines.clkOut := 1#1,
          rsp.ill := false, rsp.status := 0x00#8, rsp.busy := false, rsp.done := true,
          hid.t0 := s.time.t100, hid.sr := b, hid.phase := .p4, seq.todo := [], seq.retStatus := 0x00#8, seq.out := [],
          env.ackIn := acks, env.event := .quiet, env.polled := true }

/-- R112, R113, R115, R116, R195: a failed wait ends a byte command at once with the code of its phase, with the lines
as the failed phase left them; the byte of a failed receive is free. -/
def Obligations.FailedWaitEndsAByteCommand : Prop :=
  ∀ (s : State) (a : Bit) (acks : List Bit) (k : List Micro),
    s.rsp.busy = true → s.seq.todo = .ackPoll :: k → s.env.ackIn = a :: acks → a ≠ phaseLevel s.hid.phase →
    s.par.waitAck.toNat < (s.time.t100 - s.hid.t0).toNat →
    (dropToByteEnd k = [.byteEnd false, .completeRet] →
      EngineReaches s [.sampleAck a]
        { s with
          rsp.ill := false, rsp.status := noAck s.hid.phase, rsp.busy := false, rsp.done := true,
          seq.todo := [], seq.retStatus := noAck s.hid.phase,
          env.ackIn := acks, env.event := .quiet, env.polled := true }) ∧
    (dropToByteEnd k = [.byteEnd true, .completeRecv] →
      ∃ v, EngineReaches s [.sampleAck a]
        { s with
          rsp.ill := false, rsp.status := noAck s.hid.phase, rsp.busy := false, rsp.done := true, rsp.rbyte := v,
          seq.todo := [], seq.retStatus := noAck s.hid.phase, seq.retByte := v,
          env.ackIn := acks, env.draws := s.env.draws + 1, env.event := .quiet, env.polled := true })

/-- R110: `AckWait` takes its snapshot, then polls: the level ends it, else more than the budget ends it with the
phase's code, else it polls again. That sample and test of one poll are one step is the model's choice: log entry 2. -/
def Obligations.AckWaitPolls : Prop :=
  (∀ (s : State) (k : List Micro), s.rsp.busy = true → s.seq.todo = .snap :: k →
    engineStep s = .next
      { s with hid.t0 := s.time.t100, seq.todo := k, rsp.done := false, env.event := .quiet }) ∧
  ∀ (s : State) (a : Bit) (acks : List Bit) (k : List Micro),
    s.rsp.busy = true → s.seq.todo = .ackPoll :: k → s.env.ackIn = a :: acks →
    engineStep s = .next
      (if a = phaseLevel s.hid.phase then
        { s with seq.todo := k, rsp.done := false,
                 env.ackIn := acks, env.event := .sampleAck a, env.polled := true }
      else if s.par.waitAck.toNat < (s.time.t100 - s.hid.t0).toNat then
        { s with seq.todo := dropToByteEnd k, seq.retStatus := noAck s.hid.phase, rsp.done := false,
                 env.ackIn := acks, env.event := .sampleAck a, env.polled := true }
      else
        { s with rsp.done := false, env.ackIn := acks, env.event := .sampleAck a, env.polled := true })

/-- R110 (b): with budget `P`, below the one that disables it (R198), a Device that never answers lets the wait fail at
the first poll at which `P + 1` increments have been seen, and not before. -/
def Obligations.AckWaitFailsAfterItsBudget : Prop :=
  ∀ (s : State) (a : Bit) (acks : List Bit) (k : List Micro) (ts : List Turn),
    s.rsp.busy = true → s.seq.todo = .ackPoll :: k → s.hid.t0 = s.time.t100 → s.par.waitAck ≠ 0xFFFF#16 →
    a ≠ phaseLevel s.hid.phase → s.env.ackIn = List.replicate (s.par.waitAck.toNat + 2) a ++ acks →
    s.env.sched = .engine :: (List.replicate (s.par.waitAck.toNat + 1) [Turn.timebase, Turn.engine]).flatten ++ ts →
    (∃ v, stepRun (2 * s.par.waitAck.toNat + 2) s = .next v ∧ v.seq.todo = .ackPoll :: k) ∧
    ∃ u, stepRun (2 * s.par.waitAck.toNat + 3) s = .next u ∧
      u.seq.todo = dropToByteEnd k ∧ u.seq.retStatus = noAck s.hid.phase ∧
      u.time.t100 = s.time.t100 + s.par.waitAck + 1#16 ∧
      u.lines = s.lines ∧ u.par = s.par ∧ u.blk = s.blk ∧ u.lat = s.lat ∧ u.hid = s.hid ∧
      u.env.ackIn = acks ∧ u.env.sched = ts

/-- R110 (c), R198: with `P_WAIT_ACK = 0xFFFF` a wrong sample never ends the wait, whatever the counter shows. -/
def Obligations.WaitWithoutTimeout : Prop :=
  ∀ (s : State) (a : Bit) (acks : List Bit) (k : List Micro),
    s.rsp.busy = true → s.seq.todo = .ackPoll :: k → s.env.ackIn = a :: acks → a ≠ phaseLevel s.hid.phase →
    s.par.waitAck = 0xFFFF#16 →
    engineStep s = .next
      { s with rsp.done := false, env.ackIn := acks, env.event := .sampleAck a, env.polled := true }

/-- R118: a receiver that samples the DATA values a sender puts on the bus receives the sender's byte, and both
procedures return `ST_OK`: each `SEQ` is again what it was before the byte. That SEQ stands for "has returned", and that
the receiver's DATA samples are listed before it runs, is the model's form: log entries 4 and 18. -/
def Obligations.SendThenReceiveGivesTheByte : Prop :=
  ∀ (s r : State) (b b' : Byte) (acksS acksR : List Bit) (datas : List Tri),
    s.rsp.busy = true → s.lines.ls = .send → s.env.ackIn = ackEcho 1 ++ acksS →
    r.rsp.busy = true → r.lines.ls = .recv → r.env.ackIn = ackEcho 1 ++ acksR →
    r.env.dataIn = ((sentTrace b).filterMap (fun e => match e with | .data v => some v | _ => none)).take 3 ++ datas →
    (∃ t u, exec (.wireByteNormal b) s = .next t ∧ EngineReaches t (sentTrace b) u ∧
      u.seq = { s.seq with retStatus := 0x00#8 }) ∧
    ∃ t es u, exec (.wireByteNormal b') r = .next t ∧ EngineReaches t es u ∧
      u.seq = { r.seq with retStatus := 0x00#8, retByte := b }

/-! ## Probe and reset -/

/-- R121, R122 (a), (b): IS_ALIVE with a Device that is never wrong: four clock levels, `P_ALIVE_REPEAT` samples at each,
`P_ALIVE_DELAY` ticks after each sample, under some schedule of Engine and Timebase (what a delay waits for is
`TickWaitPolls`). The premise keeps the ticks of the delays inside the budget. -/
def Obligations.IsAliveCompletes : Prop :=
  ∀ (s : State) (timeout : Word) (acks : List Bit),
    let r := s.par.aliveRepeat.toNat
    let d := s.par.aliveDelay.toNat
    s.lines.ls = .off → 4 * r * d ≤ 100 * timeout.toNat →
    s.env.ackIn = List.replicate r 0#1 ++ List.replicate r 1#1 ++ List.replicate r 0#1
      ++ List.replicate r 1#1 ++ acks →
    ∃ t u, exec (.isAlive timeout) s = .next t ∧
      Reaches t (.line .recv :: levelTrace 0#1 r d ++ levelTrace 1#1 r d ++ levelTrace 0#1 r d
        ++ levelTrace 1#1 r d ++ offTrace) u ∧
      u.lines = { s.lines with dataOut := 0b111#3, clkOut := 1#1 } ∧
      u.time.t100 = s.time.t100 + BitVec.ofNat 16 (4 * r * d) ∧
      u.par = s.par ∧ u.blk = s.blk ∧ u.lat = s.lat ∧
      u.rsp = { s.rsp with ill := false, status := 0x00#8, busy := false, done := true } ∧
      u.hid.t0a = s.time.t10ms ∧ u.hid.stab = s.par.aliveRepeat ∧
      u.hid.sr = s.hid.sr ∧ u.hid.phase = s.hid.phase ∧ u.hid.bidx = s.hid.bidx ∧
      u.seq = { s.seq with todo := [], retStatus := 0x00#8, out := [] } ∧
      u.env = { s.env with ackIn := acks, event := .quiet, polled := true }

/-- R121: a sample at the wrong level restarts the count of this level, and only of this level: what comes after the
level is untouched. -/
def Obligations.BadSampleRestartsTheLevel : Prop :=
  ∀ (s : State) (level a : Bit) (timeout : Word) (acks : List Bit) (k : List Micro),
    s.rsp.busy = true → s.seq.todo = .aliveSample level timeout :: k → s.env.ackIn = a :: acks →
    engineStep s = .next
      { s with hid.stab := if a = level then s.hid.stab + 1#16 else 0#16,
               seq.todo := [.snap, .tickPoll .aliveDelay, .aliveTest level timeout] ++ k, rsp.done := false,
               env.ackIn := acks, env.event := .sampleAck a, env.polled := true }

/-- R121, R176: over budget before the level is stable, the probe goes Off and answers `ST_NOT_ALIVE`. -/
def Obligations.ProbeGivesUpOverBudget : Prop :=
  ∀ (s : State) (level : Bit) (timeout : Word) (k : List Micro),
    s.rsp.busy = true → s.seq.todo = .aliveTest level timeout :: k → dropToExit k = exitSteps .completeRet →
    s.hid.stab.toNat < s.par.aliveRepeat.toNat → timeout.toNat < (s.time.t10ms - s.hid.t0a).toNat →
    EngineReaches s offTrace
      { s with
        lines.ls := .off, lines.dataOut := 0b111#3, lines.clkOut := 1#1,
        rsp.ill := false, rsp.status := stNotAlive, rsp.busy := false, rsp.done := true,
        seq.todo := [], seq.retStatus := stNotAlive, env.event := .quiet, env.polled := true }

/-- R120: `TickWait` goes on exactly when at least `P[p]` increments have been seen since its snapshot, and polls again
otherwise; so with a poll after every increment it takes exactly `P[p]` increments. -/
def Obligations.TickWaitPolls : Prop :=
  (∀ (s : State) (p : Param) (k : List Micro), s.rsp.busy = true → s.seq.todo = .tickPoll p :: k →
    engineStep s = .next
      (if (s.par.get p).toNat ≤ (s.time.t100 - s.hid.t0).toNat then
        { s with seq.todo := k, rsp.done := false, env.event := .quiet, env.polled := true }
      else { s with rsp.done := false, env.event := .quiet, env.polled := true })) ∧
  ∀ (s : State) (p : Param) (k : List Micro) (ts : List Turn),
    let n := (s.par.get p).toNat
    s.rsp.busy = true → s.seq.todo = .snap :: .tickPoll p :: k →
    s.env.sched = .engine :: .engine :: (List.replicate n [Turn.timebase, Turn.engine]).flatten ++ ts →
    (∀ j, j < n → ∃ v, stepRun (2 * j + 2) s = .next v ∧ v.seq.todo = .tickPoll p :: k) ∧
    ∃ u, stepRun (2 * n + 2) s = .next u ∧
      u.seq = { s.seq with todo := k } ∧ u.hid = { s.hid with t0 := s.time.t100 } ∧
      u.time.t100 = s.time.t100 + s.par.get p ∧ u.env.sched = ts ∧
      u.lines = s.lines ∧ u.par = s.par ∧ u.blk = s.blk ∧ u.lat = s.lat

/-- R123: RESET_DEVICE in both modes: every line event in order, with the ticks of the two delays between them, under
some schedule of Engine and Timebase (what a delay waits for is `TickWaitPolls`); in another line state or with another
mode it is refused. -/
def Obligations.ResetDeviceCompletes : Prop :=
  (∀ mode : Byte, encode (.resetDevice mode) = .packet [0x31#8, mode]) ∧
  (∀ (s : State) (mode : Byte), s.lines.ls ≠ .off ∨ 1 < mode.toNat →
    Refused (.resetDevice mode) s) ∧
  ∀ (s : State) (mode : Byte),
    let pre := s.par.resetPre.toNat
    let hold := s.par.resetHold.toNat
    s.lines.ls = .off → mode = 0x00#8 ∨ mode = 0x01#8 →
    ∃ t u, exec (.resetDevice mode) s = .next t ∧
      Reaches t
        (.resetDrive true ::
          (if mode = 0x01#8 then
            List.replicate pre .tick ++ [.dataOut 0b000#3, .ackOut 0#1, .knock true]
          else [])
          ++ List.replicate hold .tick
          ++ [.resetDrive false, .knock false, .ackOut 1#1, .dataOut 0b111#3]) u ∧
      u.lines = { s.lines with dataOut := 0b111#3, ackOut := 1#1, rstDrv := false, knock := false } ∧
      u.time.t100 = s.time.t100 + (if mode = 0x01#8 then s.par.resetPre else 0#16) + s.par.resetHold ∧
      u.par = s.par ∧ u.blk = s.blk ∧ u.lat = s.lat ∧
      u.rsp = { s.rsp with ill := false, status := 0x00#8, busy := false, done := true } ∧
      u.hid = { s.hid with t0 := u.hid.t0 } ∧
      u.seq = { s.seq with todo := [], retStatus := 0x00#8, out := [] } ∧
      u.env = { s.env with event := .quiet, polled := true }

/-! ## Frames and blocks -/

/-- R84, R133, R134: the write frame for every length, with every acknowledge and an answering Host. `BIDX` ends at the
length: the model's choice, log entry 16, here and in the statements about frames and blocks below. -/
def Obligations.WireWriteMovesTheBlock : Prop :=
  ∀ (s : State) (mode bank : Byte) (offset length : Word) (data : List Byte) (d : Samples)
    (acks : List Bit) (datas : List Tri) (pulls : List (Byte × Byte)),
    s.rsp.busy = true → s.lat.hst = 0x00#8 → data.length = length.toNat →
    s.env.ackIn = ackEcho (length.toNat + 9) ++ acks → s.env.dataIn = samples [d] ++ datas →
    s.env.pullIn = data.map (fun b => (b, 0x00#8)) ++ pulls →
    ∃ t, exec (.wireWrite mode bank offset length) s = .next t ∧
      EngineReaches t
        (.line .send :: headerTrace 0x02#8 mode bank offset length ++ pulledTrace data
          ++ sentTrace (checksum s.lat.chk data) ++ .line .recv :: receivedTrace d)
        { s with
          lines.ls := .recv, lines.dataOut := 0b111#3, lines.clkOut := 1#1,
          blk.crc16 := crcOver s.blk.crc16 data, blk.xferlen := s.blk.xferlen + length,
          lat.chk := checksum s.lat.chk data, lat.devchk := received d, lat.pst := 0x00#8, rsp.done := false,
          hid.t0 := s.time.t100, hid.sr := received d, hid.phase := .p4, hid.bidx := length,
          seq.retStatus := 0x00#8, seq.retByte := received d,
          env.ackIn := acks, env.dataIn := datas, env.pullIn := pulls, env.event := .quiet, env.polled := true }

/-- R85, R133, R135: the read frame for every length, with every acknowledge and an answering Host. -/
def Obligations.WireReadMovesTheBlock : Prop :=
  ∀ (s : State) (mode bank : Byte) (offset length : Word) (data : List Samples) (d : Samples)
    (acks : List Bit) (datas : List Tri) (pushes : List Byte),
    s.rsp.busy = true → s.lat.hst = 0x00#8 → data.length = length.toNat →
    s.env.ackIn = ackEcho (length.toNat + 8) ++ acks → s.env.dataIn = samples (data ++ [d]) ++ datas →
    s.env.pushIn = List.replicate length.toNat 0x00#8 ++ pushes →
    ∃ t, exec (.wireRead mode bank offset length) s = .next t ∧
      EngineReaches t
        (.line .send :: headerTrace 0x01#8 mode bank offset length ++ .line .recv :: pushedTrace data
          ++ receivedTrace d)
        { s with
          lines.ls := .recv, lines.dataOut := 0b111#3, lines.clkOut := 1#1,
          blk.crc16 := crcOver s.blk.crc16 (data.map received), blk.xferlen := s.blk.xferlen + length,
          lat.chk := checksum s.lat.chk (data.map received), lat.devchk := received d, lat.pst := 0x00#8,
          rsp.done := false,
          hid.t0 := s.time.t100, hid.sr := received d, hid.phase := .p4, hid.bidx := length,
          seq.retStatus := 0x00#8, seq.retByte := received d,
          env.ackIn := acks, env.dataIn := datas, env.pushIn := pushes, env.event := .quiet, env.polled := true }

/-- R134, R136, R137: SEND_BLOCK with every acknowledge and an answering Host: `ST_OK` or `ST_CHECKSUM`. -/
def Obligations.SendBlockCompletes : Prop :=
  ∀ (s : State) (mode bank : Byte) (offset length crc : Word) (data : List Byte) (d : Samples)
    (acks : List Bit) (datas : List Tri) (pulls : List (Byte × Byte)),
    s.lines.ls = .off → offset.toNat < 0x4000 → offset.toNat + length.toNat ≤ 0x4000 →
    data.length = length.toNat →
    s.env.ackIn = ackEcho (length.toNat + 9) ++ acks → s.env.dataIn = samples [d] ++ datas →
    s.env.pullIn = data.map (fun b => (b, 0x00#8)) ++ pulls →
    ∃ t, exec (.sendBlock mode bank offset length crc) s = .next t ∧
      EngineReaches t
        (.line .send :: headerTrace 0x02#8 mode bank offset length ++ pulledTrace data
          ++ sentTrace (checksum 0x00#8 data) ++ .line .recv :: receivedTrace d ++ offTrace)
        { s with
          lines.dataOut := 0b111#3, lines.clkOut := 1#1,
          blk := { mode := mode, bank := bank, offset := offset, length := length,
                   crc16 := crcOver crc data, xferlen := length },
          lat := { chk := checksum 0x00#8 data, devchk := received d, hst := 0x00#8, pst := 0x00#8 },
          rsp.ill := false, rsp.busy := false, rsp.done := true,
          rsp.status := if received d = checksum 0x00#8 data then 0x00#8 else stChecksum,
          hid.t0 := s.time.t100, hid.sr := received d, hid.phase := .p4, hid.bidx := length,
          seq.todo := [], seq.retStatus := 0x00#8, seq.out := [], seq.retByte := received d,
          env.ackIn := acks, env.dataIn := datas, env.pullIn := pulls, env.event := .quiet, env.polled := true }

/-- R134, R137, R177: the Host fails at byte `i`: zeros complete the frame, no byte more is pulled, and the Host's
status is the result, whatever the Device's checksum. -/
def Obligations.SendBlockHostFailure : Prop :=
  ∀ (s : State) (mode bank : Byte) (offset length crc : Word) (good : List Byte) (x h : Byte) (d : Samples)
    (acks : List Bit) (datas : List Tri) (pulls : List (Byte × Byte)),
    s.lines.ls = .off → offset.toNat < 0x4000 → offset.toNat + length.toNat ≤ 0x4000 →
    good.length < length.toNat → h ≠ 0x00#8 →
    s.env.ackIn = ackEcho (length.toNat + 9) ++ acks → s.env.dataIn = samples [d] ++ datas →
    s.env.pullIn = good.map (fun b => (b, 0x00#8)) ++ (x, h) :: pulls →
    ∃ t, exec (.sendBlock mode bank offset length crc) s = .next t ∧
      EngineReaches t
        (.line .send :: headerTrace 0x02#8 mode bank offset length ++ pulledTrace good
          ++ .pull x h :: (List.replicate (length.toNat - good.length) (sentTrace 0x00#8)).flatten
          ++ sentTrace (checksum 0x00#8 good) ++ .line .recv :: receivedTrace d ++ offTrace)
        { s with
          lines.dataOut := 0b111#3, lines.clkOut := 1#1,
          blk := { mode := mode, bank := bank, offset := offset, length := length,
                   crc16 := crcOver crc good, xferlen := BitVec.ofNat 16 good.length },
          lat := { chk := checksum 0x00#8 good, devchk := received d, hst := h, pst := 0x00#8 },
          rsp.ill := false, rsp.busy := false, rsp.done := true, rsp.status := h,
          hid.t0 := s.time.t100, hid.sr := received d, hid.phase := .p4, hid.bidx := length,
          seq.todo := [], seq.retStatus := 0x00#8, seq.out := [], seq.retByte := received d,
          env.ackIn := acks, env.dataIn := datas, env.pullIn := pulls, env.event := .quiet, env.polled := true }

/-- R135, R136, R137: RECV_BLOCK with every acknowledge and an answering Host: `ST_OK` or `ST_CHECKSUM`. -/
def Obligations.RecvBlockCompletes : Prop :=
  ∀ (s : State) (mode bank : Byte) (offset length crc : Word) (data : List Samples) (d : Samples)
    (acks : List Bit) (datas : List Tri) (pushes : List Byte),
    s.lines.ls = .off → offset.toNat < 0x4000 → offset.toNat + length.toNat ≤ 0x4000 →
    data.length = length.toNat →
    s.env.ackIn = ackEcho (length.toNat + 8) ++ acks → s.env.dataIn = samples (data ++ [d]) ++ datas →
    s.env.pushIn = List.replicate length.toNat 0x00#8 ++ pushes →
    ∃ t, exec (.recvBlock mode bank offset length crc) s = .next t ∧
      EngineReaches t
        (.line .send :: headerTrace 0x01#8 mode bank offset length ++ .line .recv :: pushedTrace data
          ++ receivedTrace d ++ offTrace)
        { s with
          lines.dataOut := 0b111#3, lines.clkOut := 1#1,
          blk := { mode := mode, bank := bank, offset := offset, length := length,
                   crc16 := crcOver crc (data.map received), xferlen := length },
          lat := { chk := checksum 0x00#8 (data.map received), devchk := received d, hst := 0x00#8, pst := 0x00#8 },
          rsp.ill := false, rsp.busy := false, rsp.done := true,
          rsp.status := if received d = checksum 0x00#8 (data.map received) then 0x00#8 else stChecksum,
          hid.t0 := s.time.t100, hid.sr := received d, hid.phase := .p4, hid.bidx := length,
          seq.todo := [], seq.retStatus := 0x00#8, seq.out := [], seq.retByte := received d,
          env.ackIn := acks, env.dataIn := datas, env.pushIn := pushes, env.event := .quiet, env.polled := true }

/-- R135, R137, R177: the Host fails at the push of byte `i`: the frame is read to its end and dropped, nothing more is
pushed, the checksum covers every byte, `CRC16` and `XFERLEN` only those the Host took. -/
def Obligations.RecvBlockHostFailure : Prop :=
  ∀ (s : State) (mode bank : Byte) (offset length crc : Word) (good : List Samples) (x : Samples)
    (dropped : List Samples) (h : Byte) (d : Samples) (acks : List Bit) (datas : List Tri) (pushes : List Byte),
    s.lines.ls = .off → offset.toNat < 0x4000 → offset.toNat + length.toNat ≤ 0x4000 →
    good.length + 1 + dropped.length = length.toNat → h ≠ 0x00#8 →
    s.env.ackIn = ackEcho (length.toNat + 8) ++ acks →
    s.env.dataIn = samples (good ++ x :: dropped ++ [d]) ++ datas →
    s.env.pushIn = List.replicate good.length 0x00#8 ++ h :: pushes →
    ∃ t, exec (.recvBlock mode bank offset length crc) s = .next t ∧
      EngineReaches t
        (.line .send :: headerTrace 0x01#8 mode bank offset length ++ .line .recv :: pushedTrace good
          ++ receivedTrace x ++ .push (received x) h :: dropped.flatMap receivedTrace
          ++ receivedTrace d ++ offTrace)
        { s with
          lines.dataOut := 0b111#3, lines.clkOut := 1#1,
          blk := { mode := mode, bank := bank, offset := offset, length := length,
                   crc16 := crcOver crc (good.map received), xferlen := BitVec.ofNat 16 good.length },
          lat := { chk := checksum 0x00#8 ((good ++ x :: dropped).map received), devchk := received d,
                   hst := h, pst := 0x00#8 },
          rsp.ill := false, rsp.busy := false, rsp.done := true, rsp.status := h,
          hid.t0 := s.time.t100, hid.sr := received d, hid.phase := .p4, hid.bidx := length,
          seq.todo := [], seq.retStatus := 0x00#8, seq.out := [], seq.retByte := received d,
          env.ackIn := acks, env.dataIn := datas, env.pushIn := pushes, env.event := .quiet, env.polled := true }

/-- R137, R146 (g), R176: after a failed byte of SEND_BLOCK, RECV_BLOCK or GENERIC every remaining wire step is skipped,
the bus goes Off, and the command completes with what moved so far; a host failure before it has precedence (R175 e). From
the statement that sees the byte's status; and from the poll at which a wait of a byte sent or received (`rx`) exceeds its
budget, the Device's checksum byte among them (`sum`), whose value is then free. That the entries of `OUTBUF` after the bytes
moved stay as they were is the model's choice: log entry 12. -/
def Obligations.FailedByteAbortsTheCommand : Prop :=
  (∀ (s : State) (k : List Micro),
    s.rsp.busy = true → s.seq.todo = .check :: k → s.seq.retStatus ≠ 0x00#8 →
    (dropToExit k = exitSteps .completeGeneric →
      EngineReaches s offTrace
        { s with
          lines.ls := .off, lines.dataOut := 0b111#3, lines.clkOut := 1#1, lat.pst := s.seq.retStatus,
          rsp.ill := false, rsp.status := s.seq.retStatus, rsp.busy := false, rsp.done := true,
          rsp.outcnt := BitVec.ofNat 8 s.seq.out.length, rsp.outbuf := storeOut s.seq.out s.rsp.outbuf,
          seq.todo := [], env.event := .quiet, env.polled := true }) ∧
    (dropToExit k = exitSteps .completeBlock →
      EngineReaches s offTrace
        { s with
          lines.ls := .off, lines.dataOut := 0b111#3, lines.clkOut := 1#1, lat.pst := s.seq.retStatus,
          rsp.ill := false, rsp.busy := false, rsp.done := true,
          rsp.status := if s.lat.hst = 0x00#8 then s.seq.retStatus else s.lat.hst,
          seq.todo := [], env.event := .quiet, env.polled := true })) ∧
  ∀ (s : State) (a : Bit) (acks : List Bit) (k k' : List Micro) (rx sum : Bool),
    s.rsp.busy = true → s.seq.todo = .ackPoll :: k → s.env.ackIn = a :: acks → a ≠ phaseLevel s.hid.phase →
    s.par.waitAck.toNat < (s.time.t100 - s.hid.t0).toNat →
    (sum = true → rx = true) →
    dropToByteEnd k = .byteEnd rx :: (if sum then [.latchDevchk] else []) ++ .check :: k' →
    (dropToExit k' = exitSteps .completeGeneric →
      ∃ v, EngineReaches s (.sampleAck a :: offTrace)
        { s with
          lines.ls := .off, lines.dataOut := 0b111#3, lines.clkOut := 1#1,
          lat.pst := noAck s.hid.phase, lat.devchk := if sum then v else s.lat.devchk,
          rsp.ill := false, rsp.status := noAck s.hid.phase, rsp.busy := false, rsp.done := true,
          rsp.outcnt := BitVec.ofNat 8 s.seq.out.length, rsp.outbuf := storeOut s.seq.out s.rsp.outbuf,
          seq.todo := [], seq.retStatus := noAck s.hid.phase, seq.retByte := if rx then v else s.seq.retByte,
          env.ackIn := acks, env.draws := if rx then s.env.draws + 1 else s.env.draws,
          env.event := .quiet, env.polled := true }) ∧
    (dropToExit k' = exitSteps .completeBlock →
      ∃ v, EngineReaches s (.sampleAck a :: offTrace)
        { s with
          lines.ls := .off, lines.dataOut := 0b111#3, lines.clkOut := 1#1,
          lat.pst := noAck s.hid.phase, lat.devchk := if sum then v else s.lat.devchk,
          rsp.ill := false, rsp.busy := false, rsp.done := true,
          rsp.status := if s.lat.hst = 0x00#8 then noAck s.hid.phase else s.lat.hst,
          seq.todo := [], seq.retStatus := noAck s.hid.phase, seq.retByte := if rx then v else s.seq.retByte,
          env.ackIn := acks, env.draws := if rx then s.env.draws + 1 else s.env.draws,
          env.event := .quiet, env.polled := true })

/-- R23, R199: a Host that does not answer a pull or a push holds the engine, and the bus with it, for any number of
Engine steps. -/
def Obligations.SilentHostHoldsTheEngine : Prop :=
  ∀ (n : Nat) (s : State) (b : Byte) (k : List Micro),
    s.rsp.busy = true →
    (s.seq.todo = .pull :: k ∧ s.env.pullIn = [] ∨ s.seq.todo = .push b :: k ∧ s.env.pushIn = []) →
    engineRun (n + 1) s = .next { s with rsp.done := false, env.event := .quiet, env.polled := true }

/-- R130: the checksum after any data is the sum of the bytes plus their number, modulo 256. -/
def Obligations.ChecksumIsTheSum : Prop :=
  ∀ data : List Byte, (checksum 0x00#8 data).toNat = ((data.map BitVec.toNat).sum + data.length) % 256

/-! ## Generic command -/

/-- R145, R146 (a), (b): GENERIC with `out_size = 0`: the bytes are sent and nothing is read. Of the latches `PST` alone is
written, here and in the next two statements. That `OUTBUF`, all of it beyond `OUTCNT`, stays as it was is the model's
choice: log entry 12. -/
def Obligations.GenericWithoutReply : Prop :=
  ∀ (s : State) (cmd : Byte) (ins : List Byte) (acks : List Bit),
    s.lines.ls = .off → (ins = [] ∨ ins.length ≤ Config.genInMax) →
    s.env.ackIn = ackEcho (ins.length + 1) ++ acks →
    ∃ t, exec (.generic cmd 0x00#8 ins) s = .next t ∧
      EngineReaches t (.line .send :: (cmd :: ins).flatMap sentTrace ++ offTrace)
        { s with
          lines.dataOut := 0b111#3, lines.clkOut := 1#1,
          lat.pst := 0x00#8,
          rsp.ill := false, rsp.status := 0x00#8, rsp.busy := false, rsp.done := true, rsp.outcnt := 0x00#8,
          hid.t0 := s.time.t100, hid.sr := (cmd :: ins).getLast (by simp), hid.phase := .p4,
          seq.todo := [], seq.retStatus := 0x00#8, seq.out := [],
          env.ackIn := acks, env.event := .quiet, env.polled := true }

/-- R145: GENERIC with a fixed count: that many bytes come back, in order, in `OUTBUF`. That the rest of `OUTBUF`
stays as it was is the model's choice: log entry 12. -/
def Obligations.GenericWithFixedReply : Prop :=
  ∀ (s : State) (cmd outSize : Byte) (ins : List Byte) (reply : List Samples) (acks : List Bit) (datas : List Tri),
    s.lines.ls = .off → (ins = [] ∨ ins.length ≤ Config.genInMax) →
    outSize ≠ 0x00#8 → outSize ≠ Config.vararg → reply.length = outSize.toNat →
    s.env.ackIn = ackEcho (ins.length + 1 + outSize.toNat) ++ acks → s.env.dataIn = samples reply ++ datas →
    ∃ t u, exec (.generic cmd outSize ins) s = .next t ∧
      EngineReaches t
        (.line .send :: (cmd :: ins).flatMap sentTrace ++ .line .recv :: reply.flatMap receivedTrace
          ++ offTrace) u ∧
      u.lines = { s.lines with dataOut := 0b111#3, clkOut := 1#1 } ∧
      u.time = s.time ∧ u.par = s.par ∧ u.blk = s.blk ∧
      u.lat = { s.lat with pst := 0x00#8 } ∧
      u.rsp = { s.rsp with ill := false, status := 0x00#8, busy := false, done := true, outcnt := outSize,
                           outbuf := u.rsp.outbuf } ∧
      u.rsp.outbuf.toList = reply.map received ++ s.rsp.outbuf.toList.drop outSize.toNat ∧
      u.hid = { s.hid with t0 := s.time.t100, sr := u.seq.retByte, phase := .p4 } ∧
      (reply.map received).getLast? = some u.seq.retByte ∧
      u.seq = { s.seq with todo := [], retStatus := 0x00#8, retByte := u.seq.retByte,
                           out := reply.map received } ∧
      u.env = { s.env with ackIn := acks, dataIn := datas, event := .quiet, polled := true }

/-- R145, R146 (c), (d): GENERIC with the sentinel: the Device's first byte says how many bytes follow, from 0 to 255,
and is not stored. That the rest of `OUTBUF` stays as it was is the model's choice: log entry 12. -/
def Obligations.GenericWithSizedReply : Prop :=
  ∀ (s : State) (cmd : Byte) (ins : List Byte) (size : Samples) (reply : List Samples) (acks : List Bit)
    (datas : List Tri),
    s.lines.ls = .off → (ins = [] ∨ ins.length ≤ Config.genInMax) → reply.length = (received size).toNat →
    s.env.ackIn = ackEcho (ins.length + 2 + (received size).toNat) ++ acks →
    s.env.dataIn = samples (size :: reply) ++ datas →
    ∃ t u, exec (.generic cmd Config.vararg ins) s = .next t ∧
      EngineReaches t
        (.line .send :: (cmd :: ins).flatMap sentTrace ++ .line .recv :: (size :: reply).flatMap receivedTrace
          ++ offTrace) u ∧
      u.lines = { s.lines with dataOut := 0b111#3, clkOut := 1#1 } ∧
      u.time = s.time ∧ u.par = s.par ∧ u.blk = s.blk ∧
      u.lat = { s.lat with pst := 0x00#8 } ∧
      u.rsp = { s.rsp with ill := false, status := 0x00#8, busy := false, done := true, outcnt := received size,
                           outbuf := u.rsp.outbuf } ∧
      u.rsp.outbuf.toList = reply.map received ++ s.rsp.outbuf.toList.drop (received size).toNat ∧
      u.hid = { s.hid with t0 := s.time.t100, sr := u.seq.retByte, phase := .p4 } ∧
      ((size :: reply).map received).getLast? = some u.seq.retByte ∧
      u.seq = { s.seq with todo := [], retStatus := 0x00#8, retByte := u.seq.retByte,
                           out := reply.map received } ∧
      u.env = { s.env with ackIn := acks, dataIn := datas, event := .quiet, polled := true }

/-! ## Parameters -/

/-- R27, R150: PARAM_WR stores all 16 bits in the register its index names, and only there, in every line state, with no
event; with a reserved index it is refused. -/
def Obligations.ParamWrCompletes : Prop :=
  (∀ (idx : Byte) (val : Word), encode (.paramWr idx val)
    = .packet [0x50#8, idx, val.extractLsb' 0 8, val.extractLsb' 8 8]) ∧
  (∀ (s : State) (idx : Byte) (val : Word), 5 < idx.toNat → Refused (.paramWr idx val) s) ∧
  ∀ (s : State) (idx : Byte) (val : Word), idx.toNat ≤ 5 →
    ∃ t, exec (.paramWr idx val) s = .next t ∧ t.rsp.busy = true ∧ EngineReaches t [] { s with
      par := { waitAck := if idx = 0#8 then val else s.par.waitAck
               recvDelay := if idx = 1#8 then val else s.par.recvDelay
               aliveDelay := if idx = 2#8 then val else s.par.aliveDelay
               aliveRepeat := if idx = 3#8 then val else s.par.aliveRepeat
               resetPre := if idx = 4#8 then val else s.par.resetPre
               resetHold := if idx = 5#8 then val else s.par.resetHold },
      rsp.ill := false, rsp.status := 0x00#8, rsp.busy := false, rsp.done := true,
      seq.todo := [], seq.retStatus := 0x00#8, seq.out := [], env.event := .quiet, env.polled := true }

/-- R27, R151: PARAM_RD puts the register its index names into `RWORD`, in every line state, with no event; with a
reserved index it is refused. -/
def Obligations.ParamRdCompletes : Prop :=
  (∀ idx : Byte, encode (.paramRd idx) = .packet [0x51#8, idx]) ∧
  (∀ (s : State) (idx : Byte), 5 < idx.toNat → Refused (.paramRd idx) s) ∧
  ∀ (s : State) (idx : Byte), idx.toNat ≤ 5 →
    ∃ t, exec (.paramRd idx) s = .next t ∧ t.rsp.busy = true ∧ EngineReaches t [] { s with
      rsp.rword := if idx = 0#8 then s.par.waitAck else if idx = 1#8 then s.par.recvDelay
        else if idx = 2#8 then s.par.aliveDelay else if idx = 3#8 then s.par.aliveRepeat
        else if idx = 4#8 then s.par.resetPre else s.par.resetHold,
      rsp.ill := false, rsp.status := 0x00#8, rsp.busy := false, rsp.done := true,
      seq.todo := [], seq.retStatus := 0x00#8, seq.out := [], env.event := .quiet, env.polled := true }

/-- R36, R152: a PARAM_RD of an index reads what a PARAM_WR of that index left, or after a block reset the `DEF_*` value,
in every state that still has it in the register of that index; and no step writes a parameter register but a step of a
running PARAM_WR of that register and the block reset. -/
def Obligations.ParameterReadAfterWrite : Prop :=
  (∀ (s : State) (idx : Byte) (val : Word) (q : Param), paramOfIndex idx = some q →
    ∃ t u, exec (.paramWr idx val) s = .next t ∧ EngineReaches t [] u ∧ u.rsp.busy = false ∧
      ∀ r : State, r.par.get q = u.par.get q → ParamReads idx val r) ∧
  (∀ (s : State) (idx : Byte) (q : Param) (ts : List Turn), paramOfIndex idx = some q → s.env.sched = .blockReset :: ts →
    ∃ t, step s = .next t ∧ ∀ r : State, r.par.get q = t.par.get q →
      ParamReads idx
        (match q with
          | .waitAck => Config.defWaitAck
          | .recvDelay => Config.defRecvDelay
          | .aliveDelay => Config.defAliveDelay
          | .aliveRepeat => Config.defAliveRepeat
          | .resetPre => Config.defResetPre
          | .resetHold => Config.defResetHold) r) ∧
  ∀ s t : State, ParamInv s → step s = .next t → ParamInv t ∧
    (t.par = s.par ∨
     (t.env.event = .blockReset ∧
      t.par = { waitAck := Config.defWaitAck, recvDelay := Config.defRecvDelay, aliveDelay := Config.defAliveDelay,
                aliveRepeat := Config.defAliveRepeat, resetPre := Config.defResetPre,
                resetHold := Config.defResetHold }) ∨
     (s.rsp.busy = true ∧ ∃ idx val q, decodePacket s.seq.packet = .ok (.paramWr idx val) ∧
      paramOfIndex idx = some q ∧ t.par.get q = val ∧ ∀ q', q' ≠ q → t.par.get q' = s.par.get q'))

/-! ## Refusal -/

/-- R75, R76 (c), (d), R104, R132: a command in a line state it does not require is refused, and so is, in every line
state, a block command outside one bank and a GENERIC with too many bytes. -/
def Obligations.WrongLineStateOrOperandsAreRefused : Prop :=
  (∀ (s : State) (i : Instr) (l : LineState), requiredLine i = some l → s.lines.ls ≠ l → Refused i s) ∧
  ∀ (s : State) (mode bank cmd outSize : Byte) (offset length crc : Word) (ins : List Byte),
    (Config.genInMax < ins.length → Refused (.generic cmd outSize ins) s) ∧
    (¬ (offset.toNat < 0x4000 ∧ length.toNat ≤ 0x4000 ∧ offset.toNat + length.toNat ≤ 0x4000) →
      Refused (.recvBlock mode bank offset length crc) s ∧
      Refused (.sendBlock mode bank offset length crc) s)

/-- R22, R76 (a), (b): a packet that is no command is taken, which sets `BUSY`, and refused: `ILL` set, `STATUS` kept,
no event, nothing else changed. -/
def Obligations.UndecodablePacketIsRefused : Prop :=
  ∀ (s : State) (p : List Byte) (rest : List (List Byte)) (ts : List Turn) (e : DecodeError),
    s.rsp.busy = false → s.env.sched = .engine :: ts → s.env.packets = p :: rest → decodePacket p = .error e →
    ∃ t, step s = .next t ∧ t.rsp.busy = true ∧ t.env.event = .quiet ∧
      EngineReaches t [] { s with
        rsp.ill := true, rsp.done := true, seq.packet := p, seq.todo := [],
        env.sched := ts, env.packets := rest, env.event := .quiet, env.polled := true }

/-! ## The step -/

/-- R22, R29, R33: in an Engine turn the engine runs, by `exec`, the command it decodes from the packet it takes, or the
frame or byte its pseudocode issues; and the step that takes a block command or a GENERIC clears the latches, unless the
command is to be refused. That this clears `CHK` at the start of a GENERIC, whose own rule R145 does not touch it, is the
model's reading: log entry 11. -/
def Obligations.StepRunsTheInstruction : Prop :=
  (∀ (s : State) (p : List Byte) (rest : List (List Byte)) (ts : List Turn) (i : Instr),
    s.rsp.busy = false → s.env.sched = .engine :: ts → s.env.packets = p :: rest → decodePacket p = .ok i →
    step s = exec i { s with
      lat := if startsFresh i s then { chk := 0x00#8, devchk := 0x00#8, hst := 0x00#8, pst := 0x00#8 } else s.lat,
      rsp.done := false, seq.packet := p,
      env.sched := ts, env.packets := rest, env.event := .quiet, env.polled := true }) ∧
  (∀ (s : State) (k : List Micro) (ts : List Turn) (i : Instr),
    s.rsp.busy = true → s.env.sched = .engine :: ts → s.seq.todo = .wire i :: k →
    step s = exec i { s with
      rsp.done := false, seq.todo := k, env.sched := ts, env.event := .quiet, env.polled := true }) ∧
  ∀ (s t : State) (p : List Byte) (rest : List (List Byte)) (ts : List Turn),
    s.rsp.busy = false → s.env.sched = .engine :: ts → s.env.packets = p :: rest → step s = .next t →
    t.lat = if (p.head? = some 0x40#8 ∨ p.head? = some 0x41#8 ∨ p.head? = some 0x42#8) ∧ t.seq.todo ≠ [.refuse]
      then { chk := 0x00#8, devchk := 0x00#8, hst := 0x00#8, pst := 0x00#8 } else s.lat

/-- R22, R194: while a command runs, no step of any agent takes a packet; only the Host adds one. -/
def Obligations.PacketsWaitWhileBusy : Prop :=
  ∀ s t : State, s.rsp.busy = true → step s = .next t →
    (t.env.packets = s.env.packets ∨ ∃ p, t.env.packets = s.env.packets ++ [p]) ∧
    (t.seq.packet = s.seq.packet ∨ t.env.event = .blockReset)

/-- R22, R30, R77: `ILL`, `STATUS`, `RBYTE`, `RWORD`, `OUTCNT` and `OUTBUF` stay as they are until a command ends, and a
command that ends pulses `done`. That `OUTCNT` and `OUTBUF` stay while a GENERIC runs is the model's choice between R30,
R77 and R145's pseudocode: log entry 12. -/
def Obligations.ResponseIsStableUntilDone : Prop :=
  ∀ s t : State, step s = .next t → t.env.event ≠ .blockReset → t.rsp.done = false →
    t.rsp.ill = s.rsp.ill ∧ t.rsp.status = s.rsp.status ∧ t.rsp.rbyte = s.rsp.rbyte ∧ t.rsp.rword = s.rsp.rword ∧
    t.rsp.outcnt = s.rsp.outcnt ∧ t.rsp.outbuf = s.rsp.outbuf ∧ (s.rsp.busy = true → t.rsp.busy = true)

/-- R6 (a), R24, R25: the lines of every next state follow from the lines before and the one event of the step: no
latch and no enable changes without an event in the trace, and `LS` only by the three procedures. -/
def Obligations.LinesFollowTheTrace : Prop :=
  ∀ s t : State, step s = .next t → t.lines = applyEvent t.env.event s.lines

/-! ## Time -/

/-- R26: a hundred increments of `T100` are one increment of `T10MS`. -/
def Obligations.HundredTicks : Prop :=
  ∀ s : State, (tick^[100] s).time.t100 = s.time.t100 + 100#16 ∧
    (tick^[100] s).time.t10ms = s.time.t10ms + 1#16 ∧ (tick^[100] s).time.div = s.time.div

/-- R26, R180: nothing but a step of the Timebase, shown as a tick, changes the counters (and the block reset). -/
def Obligations.OnlyTheTimebaseCounts : Prop :=
  ∀ s t : State, step s = .next t →
    (t.env.event = .tick ∧ t.time.t100 = s.time.t100 + 1#16) ∨ t.time = s.time ∨ t.env.event = .blockReset

/-- R61 (b), with the model's reading of what a wait and a poll are (log entry 6): a tick in a wait owes a poll; until the
Engine has polled, or has left the wait, no step of any agent is another tick. -/
def Obligations.EnginePollsBetweenTicks : Prop :=
  (∀ s t : State, step s = .next t → t.env.event = .tick → t.env.polled = false) ∧
  ∀ s t : State, s.rsp.busy = true → waiting s = true → s.env.polled = false → step s = .next t →
    t.env.event ≠ .tick ∧ (t.env.event ≠ .blockReset → t.time = s.time) ∧
    (t.env.polled = false ∨ t.env.event = .blockReset ∨
      ∃ m k, s.seq.todo = m :: k ∧ (m = .ackPoll ∨ (∃ p, m = .tickPoll p) ∨
        (∃ l w, m = .aliveTest l w) ∨ ∃ l w, m = .aliveSample l w))

/-- R36: "no rule depends on their absolute value": the same shift of a counter and of its snapshot is seen by no
Engine step and by no tick. -/
def Obligations.AbsoluteTimeIsInvisible : Prop :=
  ∀ (c d : Word) (s t : State),
    (engineStep s = .next t → engineStep (shiftTime c d s) = .next (shiftTime c d t)) ∧
    (∀ r, engineStep s = .fault r → engineStep (shiftTime c d s) = .fault r) ∧
    tick (shiftTime c d s) = shiftTime c d (tick s)

/-! ## Reset -/

/-- R36: the values the spec gives after reset. -/
def Obligations.ResetState : Prop :=
  State.reset.lines = { ls := .off, dataOut := 0b111#3, clkOut := 1#1, ackOut := 1#1, rstDrv := false,
                        knock := false } ∧
  State.reset.par = { waitAck := Config.defWaitAck, recvDelay := Config.defRecvDelay,
                      aliveDelay := Config.defAliveDelay, aliveRepeat := Config.defAliveRepeat,
                      resetPre := Config.defResetPre, resetHold := Config.defResetHold } ∧
  State.reset.blk = { mode := 0#8, bank := 0#8, offset := 0#16, length := 0#16, crc16 := 0#16, xferlen := 0#16 } ∧
  State.reset.rsp.busy = false ∧ State.reset.rsp.ill = false ∧ State.reset.rsp.status = 0x00#8 ∧
  State.reset.rsp.rbyte = 0#8 ∧ State.reset.rsp.rword = 0#16 ∧ State.reset.rsp.outcnt = 0#8 ∧
  State.reset.lines.ports.dataOe = false ∧ State.reset.lines.ports.clkOe = false ∧
  State.reset.lines.ports.ackOe = false ∧ State.reset.lines.ports.rstOe = false ∧ State.reset.seq.todo = []

/-- R36, R37, R190: the block reset, from any state: the values of R36, the command abandoned without a response.
That `OUTBUF` and not a free value stands there afterwards is the model's choice: log entry 9. -/
def Obligations.BlockResetFromAnyState : Prop :=
  ∀ (s : State) (ts : List Turn), s.env.sched = .blockReset :: ts →
    ∃ t, step s = .next t ∧ t.lines = State.reset.lines ∧ t.par = State.reset.par ∧ t.blk = State.reset.blk ∧
      t.rsp.busy = false ∧ t.rsp.ill = false ∧ t.rsp.status = 0x00#8 ∧ t.rsp.rbyte = 0#8 ∧ t.rsp.rword = 0#16 ∧
      t.rsp.outcnt = 0#8 ∧ t.rsp.outbuf = s.rsp.outbuf ∧ t.rsp.done = false ∧ t.seq.todo = []

/-! ## Invariants -/

/-- R22, R25, R33, R104, R176: a running command always has a way to its end, with RESET and ACK released there; from
such a state every step of every agent answers a next state, and such a state again. -/
def Obligations.SequencerInvariantKept : Prop :=
  ∀ s : State, SeqInv s → ∃ t, step s = .next t ∧ SeqInv t

/-- R28, R55, conflict C10: the scratch registers stay inside one bank. -/
def Obligations.ScratchStaysInOneBank : Prop :=
  ∀ s t : State, ScratchInv s → step s = .next t → ScratchInv t

/-- R104: a compound command that is not refused stays on its way to state Off, and where it completes the lines are
Off. -/
def Obligations.CompoundCommandsEndInOff : Prop :=
  ∀ s t : State, EndsOffInv s → step s = .next t →
    EndsOffInv t ∧
    (s.rsp.busy = true → compound s = true → t.rsp.busy = false → t.rsp.ill = false → t.lines.ls = .off)

/-- R25, R123, R124 (e): RESET and ACK are driven only while RESET_DEVICE runs. -/
def Obligations.OnlyResetDeviceDrivesResetAndAck : Prop :=
  ∀ s t : State, ResetInv s → step s = .next t →
    ResetInv t ∧ ((t.lines.ports.rstOe = true ∨ t.lines.ports.ackOe = true) →
      t.rsp.busy = true ∧ t.seq.packet.head? = some 0x31#8)

/-- The invariants hold right after reset. -/
def Obligations.InvariantsAtReset : Prop :=
  SeqInv State.reset ∧ ScratchInv State.reset ∧ EndsOffInv State.reset ∧ ResetInv State.reset ∧
  ParamInv State.reset

/-! ## The transfer core -/

/-- R155: the blocks of a transfer lie each in one bank, none is empty or longer than the block size, and together they
are the transfer, address by address. R155's formulas are read over all numbers: for bases above 0x3FFFFF, whose bank does
not fit the 8-bit operand, the source settles nothing (91_not_in_source.md N10), and the clause is the model's: log entry
20. -/
def Obligations.TransferBlocksStayInOneBank : Prop :=
  ∀ (base length blockSize : Nat), 1 ≤ blockSize →
    (∀ r ∈ requests blockSize length base length,
      r.offset < 0x4000 ∧ r.offset + r.length ≤ 0x4000 ∧ 1 ≤ r.length ∧ r.length ≤ blockSize) ∧
    (requests blockSize length base length).flatMap
        (fun r => (List.range r.length).map (fun j => r.bank * 0x4000 + r.offset + j))
      = (List.range length).map (fun j => base + j)

end Statements
end

