-- ==== Sys2Proof/Laws/State.lean ====
section
/-! SUPPORT. One lemma for every field group an operation leaves alone, and one for every field it writes, so that no
later proof unfolds a record update. -/

namespace Sys2Proof.Machine

variable (s : State)

/-! ## driveData -/

@[simp] theorem driveData_time (v : Tri) : (driveData v s).time = s.time := rfl
@[simp] theorem driveData_par (v : Tri) : (driveData v s).par = s.par := rfl
@[simp] theorem driveData_blk (v : Tri) : (driveData v s).blk = s.blk := rfl
@[simp] theorem driveData_lat (v : Tri) : (driveData v s).lat = s.lat := rfl
@[simp] theorem driveData_rsp (v : Tri) : (driveData v s).rsp = s.rsp := rfl
@[simp] theorem driveData_hid (v : Tri) : (driveData v s).hid = s.hid := rfl
@[simp] theorem driveData_seq (v : Tri) : (driveData v s).seq = s.seq := rfl

/-! ## driveClk -/

@[simp] theorem driveClk_time (v : Bit) : (driveClk v s).time = s.time := rfl
@[simp] theorem driveClk_par (v : Bit) : (driveClk v s).par = s.par := rfl
@[simp] theorem driveClk_blk (v : Bit) : (driveClk v s).blk = s.blk := rfl
@[simp] theorem driveClk_lat (v : Bit) : (driveClk v s).lat = s.lat := rfl
@[simp] theorem driveClk_rsp (v : Bit) : (driveClk v s).rsp = s.rsp := rfl
@[simp] theorem driveClk_hid (v : Bit) : (driveClk v s).hid = s.hid := rfl
@[simp] theorem driveClk_seq (v : Bit) : (driveClk v s).seq = s.seq := rfl

/-! ## latchData -/

@[simp] theorem latchData_time (v : Tri) : (latchData v s).time = s.time := rfl
@[simp] theorem latchData_par (v : Tri) : (latchData v s).par = s.par := rfl
@[simp] theorem latchData_blk (v : Tri) : (latchData v s).blk = s.blk := rfl
@[simp] theorem latchData_lat (v : Tri) : (latchData v s).lat = s.lat := rfl
@[simp] theorem latchData_rsp (v : Tri) : (latchData v s).rsp = s.rsp := rfl
@[simp] theorem latchData_hid (v : Tri) : (latchData v s).hid = s.hid := rfl
@[simp] theorem latchData_seq (v : Tri) : (latchData v s).seq = s.seq := rfl

/-! ## latchClk -/

@[simp] theorem latchClk_time (v : Bit) : (latchClk v s).time = s.time := rfl
@[simp] theorem latchClk_par (v : Bit) : (latchClk v s).par = s.par := rfl
@[simp] theorem latchClk_blk (v : Bit) : (latchClk v s).blk = s.blk := rfl
@[simp] theorem latchClk_lat (v : Bit) : (latchClk v s).lat = s.lat := rfl
@[simp] theorem latchClk_rsp (v : Bit) : (latchClk v s).rsp = s.rsp := rfl
@[simp] theorem latchClk_hid (v : Bit) : (latchClk v s).hid = s.hid := rfl
@[simp] theorem latchClk_seq (v : Bit) : (latchClk v s).seq = s.seq := rfl

/-! ## latchAck -/

@[simp] theorem latchAck_time (v : Bit) : (latchAck v s).time = s.time := rfl
@[simp] theorem latchAck_par (v : Bit) : (latchAck v s).par = s.par := rfl
@[simp] theorem latchAck_blk (v : Bit) : (latchAck v s).blk = s.blk := rfl
@[simp] theorem latchAck_lat (v : Bit) : (latchAck v s).lat = s.lat := rfl
@[simp] theorem latchAck_rsp (v : Bit) : (latchAck v s).rsp = s.rsp := rfl
@[simp] theorem latchAck_hid (v : Bit) : (latchAck v s).hid = s.hid := rfl
@[simp] theorem latchAck_seq (v : Bit) : (latchAck v s).seq = s.seq := rfl

/-! ## setLine -/

@[simp] theorem setLine_time (l : LineState) : (setLine l s).time = s.time := rfl
@[simp] theorem setLine_par (l : LineState) : (setLine l s).par = s.par := rfl
@[simp] theorem setLine_blk (l : LineState) : (setLine l s).blk = s.blk := rfl
@[simp] theorem setLine_lat (l : LineState) : (setLine l s).lat = s.lat := rfl
@[simp] theorem setLine_rsp (l : LineState) : (setLine l s).rsp = s.rsp := rfl
@[simp] theorem setLine_hid (l : LineState) : (setLine l s).hid = s.hid := rfl
@[simp] theorem setLine_seq (l : LineState) : (setLine l s).seq = s.seq := rfl

/-! ## doNext -/

@[simp] theorem doNext_lines (l : List Micro) : (doNext l s).lines = s.lines := rfl
@[simp] theorem doNext_time (l : List Micro) : (doNext l s).time = s.time := rfl
@[simp] theorem doNext_par (l : List Micro) : (doNext l s).par = s.par := rfl
@[simp] theorem doNext_blk (l : List Micro) : (doNext l s).blk = s.blk := rfl
@[simp] theorem doNext_lat (l : List Micro) : (doNext l s).lat = s.lat := rfl
@[simp] theorem doNext_rsp (l : List Micro) : (doNext l s).rsp = s.rsp := rfl
@[simp] theorem doNext_hid (l : List Micro) : (doNext l s).hid = s.hid := rfl
@[simp] theorem doNext_env (l : List Micro) : (doNext l s).env = s.env := rfl

/-! ## failByte -/

@[simp] theorem failByte_lines (code : Byte) : (failByte code s).lines = s.lines := rfl
@[simp] theorem failByte_time (code : Byte) : (failByte code s).time = s.time := rfl
@[simp] theorem failByte_par (code : Byte) : (failByte code s).par = s.par := rfl
@[simp] theorem failByte_blk (code : Byte) : (failByte code s).blk = s.blk := rfl
@[simp] theorem failByte_lat (code : Byte) : (failByte code s).lat = s.lat := rfl
@[simp] theorem failByte_rsp (code : Byte) : (failByte code s).rsp = s.rsp := rfl
@[simp] theorem failByte_hid (code : Byte) : (failByte code s).hid = s.hid := rfl
@[simp] theorem failByte_env (code : Byte) : (failByte code s).env = s.env := rfl

/-! ## abort -/

@[simp] theorem abort_lines : (abort s).lines = s.lines := rfl
@[simp] theorem abort_time : (abort s).time = s.time := rfl
@[simp] theorem abort_par : (abort s).par = s.par := rfl
@[simp] theorem abort_blk : (abort s).blk = s.blk := rfl
@[simp] theorem abort_lat : (abort s).lat = s.lat := rfl
@[simp] theorem abort_rsp : (abort s).rsp = s.rsp := rfl
@[simp] theorem abort_hid : (abort s).hid = s.hid := rfl
@[simp] theorem abort_env : (abort s).env = s.env := rfl

/-! ## accept -/

@[simp] theorem accept_lines (body : List Micro) : (accept body s).lines = s.lines := rfl
@[simp] theorem accept_time (body : List Micro) : (accept body s).time = s.time := rfl
@[simp] theorem accept_par (body : List Micro) : (accept body s).par = s.par := rfl
@[simp] theorem accept_blk (body : List Micro) : (accept body s).blk = s.blk := rfl
@[simp] theorem accept_lat (body : List Micro) : (accept body s).lat = s.lat := rfl
@[simp] theorem accept_hid (body : List Micro) : (accept body s).hid = s.hid := rfl
@[simp] theorem accept_env (body : List Micro) : (accept body s).env = s.env := rfl

/-! ## reject -/

@[simp] theorem reject_lines : (reject s).lines = s.lines := rfl
@[simp] theorem reject_time : (reject s).time = s.time := rfl
@[simp] theorem reject_par : (reject s).par = s.par := rfl
@[simp] theorem reject_blk : (reject s).blk = s.blk := rfl
@[simp] theorem reject_lat : (reject s).lat = s.lat := rfl
@[simp] theorem reject_hid : (reject s).hid = s.hid := rfl
@[simp] theorem reject_env : (reject s).env = s.env := rfl

/-! ## refuse -/

@[simp] theorem refuse_lines : (refuse s).lines = s.lines := rfl
@[simp] theorem refuse_time : (refuse s).time = s.time := rfl
@[simp] theorem refuse_par : (refuse s).par = s.par := rfl
@[simp] theorem refuse_blk : (refuse s).blk = s.blk := rfl
@[simp] theorem refuse_lat : (refuse s).lat = s.lat := rfl
@[simp] theorem refuse_hid : (refuse s).hid = s.hid := rfl
@[simp] theorem refuse_env : (refuse s).env = s.env := rfl

/-! ## complete -/

@[simp] theorem complete_lines (st : Byte) : (complete st s).lines = s.lines := rfl
@[simp] theorem complete_time (st : Byte) : (complete st s).time = s.time := rfl
@[simp] theorem complete_par (st : Byte) : (complete st s).par = s.par := rfl
@[simp] theorem complete_blk (st : Byte) : (complete st s).blk = s.blk := rfl
@[simp] theorem complete_lat (st : Byte) : (complete st s).lat = s.lat := rfl
@[simp] theorem complete_hid (st : Byte) : (complete st s).hid = s.hid := rfl
@[simp] theorem complete_env (st : Byte) : (complete st s).env = s.env := rfl

/-! ## startByte -/

@[simp] theorem startByte_lines (b : Byte) (body : List Micro) : (startByte b body s).lines = s.lines := rfl
@[simp] theorem startByte_time (b : Byte) (body : List Micro) : (startByte b body s).time = s.time := rfl
@[simp] theorem startByte_par (b : Byte) (body : List Micro) : (startByte b body s).par = s.par := rfl
@[simp] theorem startByte_blk (b : Byte) (body : List Micro) : (startByte b body s).blk = s.blk := rfl
@[simp] theorem startByte_lat (b : Byte) (body : List Micro) : (startByte b body s).lat = s.lat := rfl
@[simp] theorem startByte_rsp (b : Byte) (body : List Micro) : (startByte b body s).rsp = s.rsp := rfl
@[simp] theorem startByte_env (b : Byte) (body : List Micro) : (startByte b body s).env = s.env := rfl

/-! ## countByte -/

@[simp] theorem countByte_lines (b : Byte) : (countByte b s).lines = s.lines := rfl
@[simp] theorem countByte_time (b : Byte) : (countByte b s).time = s.time := rfl
@[simp] theorem countByte_par (b : Byte) : (countByte b s).par = s.par := rfl
@[simp] theorem countByte_lat (b : Byte) : (countByte b s).lat = s.lat := rfl
@[simp] theorem countByte_rsp (b : Byte) : (countByte b s).rsp = s.rsp := rfl
@[simp] theorem countByte_hid (b : Byte) : (countByte b s).hid = s.hid := rfl
@[simp] theorem countByte_seq (b : Byte) : (countByte b s).seq = s.seq := rfl
@[simp] theorem countByte_env (b : Byte) : (countByte b s).env = s.env := rfl

/-! ## nextByte -/

@[simp] theorem nextByte_lines : (nextByte s).lines = s.lines := rfl
@[simp] theorem nextByte_time : (nextByte s).time = s.time := rfl
@[simp] theorem nextByte_par : (nextByte s).par = s.par := rfl
@[simp] theorem nextByte_blk : (nextByte s).blk = s.blk := rfl
@[simp] theorem nextByte_lat : (nextByte s).lat = s.lat := rfl
@[simp] theorem nextByte_rsp : (nextByte s).rsp = s.rsp := rfl
@[simp] theorem nextByte_seq : (nextByte s).seq = s.seq := rfl
@[simp] theorem nextByte_env : (nextByte s).env = s.env := rfl

/-! ## genStore -/

@[simp] theorem genStore_lines : (genStore s).lines = s.lines := rfl
@[simp] theorem genStore_time : (genStore s).time = s.time := rfl
@[simp] theorem genStore_par : (genStore s).par = s.par := rfl
@[simp] theorem genStore_blk : (genStore s).blk = s.blk := rfl
@[simp] theorem genStore_lat : (genStore s).lat = s.lat := rfl
@[simp] theorem genStore_hid : (genStore s).hid = s.hid := rfl
@[simp] theorem genStore_rsp : (genStore s).rsp = s.rsp := rfl
@[simp] theorem genStore_env : (genStore s).env = s.env := rfl

/-! ## completeGeneric -/

@[simp] theorem completeGeneric_lines : (completeGeneric s).lines = s.lines := rfl
@[simp] theorem completeGeneric_time : (completeGeneric s).time = s.time := rfl
@[simp] theorem completeGeneric_par : (completeGeneric s).par = s.par := rfl
@[simp] theorem completeGeneric_blk : (completeGeneric s).blk = s.blk := rfl
@[simp] theorem completeGeneric_lat : (completeGeneric s).lat = s.lat := rfl
@[simp] theorem completeGeneric_hid : (completeGeneric s).hid = s.hid := rfl
@[simp] theorem completeGeneric_env : (completeGeneric s).env = s.env := rfl

/-! ## tick -/

@[simp] theorem tick_lines : (tick s).lines = s.lines := rfl
@[simp] theorem tick_par : (tick s).par = s.par := rfl
@[simp] theorem tick_blk : (tick s).blk = s.blk := rfl
@[simp] theorem tick_lat : (tick s).lat = s.lat := rfl
@[simp] theorem tick_hid : (tick s).hid = s.hid := rfl
@[simp] theorem tick_seq : (tick s).seq = s.seq := rfl

/-! ## hostStep and deviceStep -/

@[simp] theorem hostStep_lines (m : HostMove) : (hostStep m s).lines = s.lines := by cases m <;> rfl
@[simp] theorem hostStep_time (m : HostMove) : (hostStep m s).time = s.time := by cases m <;> rfl
@[simp] theorem hostStep_par (m : HostMove) : (hostStep m s).par = s.par := by cases m <;> rfl
@[simp] theorem hostStep_blk (m : HostMove) : (hostStep m s).blk = s.blk := by cases m <;> rfl
@[simp] theorem hostStep_lat (m : HostMove) : (hostStep m s).lat = s.lat := by cases m <;> rfl
@[simp] theorem hostStep_hid (m : HostMove) : (hostStep m s).hid = s.hid := by cases m <;> rfl
@[simp] theorem hostStep_seq (m : HostMove) : (hostStep m s).seq = s.seq := by cases m <;> rfl
@[simp] theorem hostStep_rsp_eq (m : HostMove) : (hostStep m s).rsp = { s.rsp with done := false } := by cases m <;> rfl
@[simp] theorem hostStep_event (m : HostMove) : (hostStep m s).env.event = .quiet := by cases m <;> rfl
@[simp] theorem deviceStep_lines (m : DeviceMove) : (deviceStep m s).lines = s.lines := by cases m <;> rfl
@[simp] theorem deviceStep_time (m : DeviceMove) : (deviceStep m s).time = s.time := by cases m <;> rfl
@[simp] theorem deviceStep_par (m : DeviceMove) : (deviceStep m s).par = s.par := by cases m <;> rfl
@[simp] theorem deviceStep_blk (m : DeviceMove) : (deviceStep m s).blk = s.blk := by cases m <;> rfl
@[simp] theorem deviceStep_lat (m : DeviceMove) : (deviceStep m s).lat = s.lat := by cases m <;> rfl
@[simp] theorem deviceStep_hid (m : DeviceMove) : (deviceStep m s).hid = s.hid := by cases m <;> rfl
@[simp] theorem deviceStep_seq (m : DeviceMove) : (deviceStep m s).seq = s.seq := by cases m <;> rfl
@[simp] theorem deviceStep_rsp_eq (m : DeviceMove) : (deviceStep m s).rsp = { s.rsp with done := false } := by
  cases m <;> rfl
@[simp] theorem deviceStep_event (m : DeviceMove) : (deviceStep m s).env.event = .quiet := by cases m <;> rfl
@[simp] theorem deviceStep_packets (m : DeviceMove) : (deviceStep m s).env.packets = s.env.packets := by cases m <;> rfl

/-! ## polledAfter -/

@[simp] theorem polledAfter_true (m : Micro) : polledAfter m true = true := by simp [polledAfter]
theorem polledAfter_of_isPoll {m : Micro} (p : Bool) (h : isPoll m = true) : polledAfter m p = true := by
  simp [polledAfter, h]
theorem polledAfter_of_not_inWait {m : Micro} (p : Bool) (h : inWait m = false) : polledAfter m p = true := by
  simp [polledAfter, h]

/-! ## beginEngine -/

@[simp] theorem beginEngine_lines (p : Bool) : (beginEngine p s).lines = s.lines := rfl
@[simp] theorem beginEngine_time (p : Bool) : (beginEngine p s).time = s.time := rfl
@[simp] theorem beginEngine_par (p : Bool) : (beginEngine p s).par = s.par := rfl
@[simp] theorem beginEngine_blk (p : Bool) : (beginEngine p s).blk = s.blk := rfl
@[simp] theorem beginEngine_lat (p : Bool) : (beginEngine p s).lat = s.lat := rfl
@[simp] theorem beginEngine_hid (p : Bool) : (beginEngine p s).hid = s.hid := rfl
@[simp] theorem beginEngine_seq (p : Bool) : (beginEngine p s).seq = s.seq := rfl

/-! ## loadBlock -/

@[simp] theorem loadBlock_lines (mode bank : Byte) (offset length crc : Word) :
    (loadBlock mode bank offset length crc s).lines = s.lines :=
  rfl
@[simp] theorem loadBlock_time (mode bank : Byte) (offset length crc : Word) :
    (loadBlock mode bank offset length crc s).time = s.time :=
  rfl
@[simp] theorem loadBlock_par (mode bank : Byte) (offset length crc : Word) :
    (loadBlock mode bank offset length crc s).par = s.par :=
  rfl
@[simp] theorem loadBlock_rsp (mode bank : Byte) (offset length crc : Word) :
    (loadBlock mode bank offset length crc s).rsp = s.rsp :=
  rfl
@[simp] theorem loadBlock_hid (mode bank : Byte) (offset length crc : Word) :
    (loadBlock mode bank offset length crc s).hid = s.hid :=
  rfl
@[simp] theorem loadBlock_seq (mode bank : Byte) (offset length crc : Word) :
    (loadBlock mode bank offset length crc s).seq = s.seq :=
  rfl
@[simp] theorem loadBlock_env (mode bank : Byte) (offset length crc : Word) :
    (loadBlock mode bank offset length crc s).env = s.env :=
  rfl

/-! ## The fields an operation writes -/

@[simp] theorem driveData_lines_eq (v : Tri) : (driveData v s).lines = { s.lines with dataOut := v } := rfl
@[simp] theorem driveData_env_eq (v : Tri) : (driveData v s).env = { s.env with event := .data v } := rfl
@[simp] theorem driveClk_lines_eq (v : Bit) : (driveClk v s).lines = { s.lines with clkOut := v } := rfl
@[simp] theorem driveClk_env_eq (v : Bit) : (driveClk v s).env = { s.env with event := .clk v } := rfl
@[simp] theorem latchData_lines_eq (v : Tri) : (latchData v s).lines = { s.lines with dataOut := v } := rfl
@[simp] theorem latchData_env_eq (v : Tri) : (latchData v s).env = { s.env with event := .dataOut v } := rfl
@[simp] theorem latchClk_lines_eq (v : Bit) : (latchClk v s).lines = { s.lines with clkOut := v } := rfl
@[simp] theorem latchClk_env_eq (v : Bit) : (latchClk v s).env = { s.env with event := .clkOut v } := rfl
@[simp] theorem latchAck_lines_eq (v : Bit) : (latchAck v s).lines = { s.lines with ackOut := v } := rfl
@[simp] theorem latchAck_env_eq (v : Bit) : (latchAck v s).env = { s.env with event := .ackOut v } := rfl
@[simp] theorem setLine_lines_eq (l : LineState) : (setLine l s).lines = { s.lines with ls := l } := rfl
@[simp] theorem setLine_env_eq (l : LineState) : (setLine l s).env = { s.env with event := .line l } := rfl
@[simp] theorem doNext_todo (l : List Micro) : (doNext l s).seq.todo = l ++ s.seq.todo := rfl
@[simp] theorem doNext_packet (l : List Micro) : (doNext l s).seq.packet = s.seq.packet := rfl
@[simp] theorem doNext_retStatus (l : List Micro) : (doNext l s).seq.retStatus = s.seq.retStatus := rfl
@[simp] theorem doNext_retByte (l : List Micro) : (doNext l s).seq.retByte = s.seq.retByte := rfl
@[simp] theorem doNext_out (l : List Micro) : (doNext l s).seq.out = s.seq.out := rfl
@[simp] theorem failByte_todo (code : Byte) : (failByte code s).seq.todo = dropToByteEnd s.seq.todo := rfl
@[simp] theorem failByte_retStatus (code : Byte) : (failByte code s).seq.retStatus = code := rfl
@[simp] theorem failByte_retByte (code : Byte) : (failByte code s).seq.retByte = s.seq.retByte := rfl
@[simp] theorem failByte_out (code : Byte) : (failByte code s).seq.out = s.seq.out := rfl
@[simp] theorem failByte_packet (code : Byte) : (failByte code s).seq.packet = s.seq.packet := rfl
@[simp] theorem abort_todo : (abort s).seq.todo = dropToExit s.seq.todo := rfl
@[simp] theorem abort_retStatus : (abort s).seq.retStatus = s.seq.retStatus := rfl
@[simp] theorem abort_retByte : (abort s).seq.retByte = s.seq.retByte := rfl
@[simp] theorem abort_out : (abort s).seq.out = s.seq.out := rfl
@[simp] theorem abort_packet : (abort s).seq.packet = s.seq.packet := rfl
@[simp] theorem accept_rsp_eq (body : List Micro) : (accept body s).rsp = { s.rsp with busy := true } := rfl
@[simp] theorem accept_seq_eq (body : List Micro) : (accept body s).seq =
    { s.seq with todo := body, retStatus := stOk, out := [] } := rfl
@[simp] theorem reject_rsp_eq : (reject s).rsp = { s.rsp with busy := true } := rfl
@[simp] theorem reject_seq_eq : (reject s).seq = { s.seq with todo := [.refuse] } := rfl
@[simp] theorem refuse_rsp_eq : (refuse s).rsp = { s.rsp with ill := true, busy := false, done := true } := rfl
@[simp] theorem refuse_seq_eq : (refuse s).seq = { s.seq with todo := [] } := rfl
@[simp] theorem complete_rsp_eq (st : Byte) :
    (complete st s).rsp = { s.rsp with ill := false, status := st, busy := false, done := true } :=
  rfl
@[simp] theorem complete_seq_eq (st : Byte) : (complete st s).seq = { s.seq with todo := [] } := rfl
@[simp] theorem genStore_seq_eq : (genStore s).seq = { s.seq with out := s.seq.out ++ [s.seq.retByte] } := rfl
@[simp] theorem completeGeneric_rsp_eq : (completeGeneric s).rsp =
    { s.rsp with ill := false, status := s.lat.pst, busy := false, done := true,
                 outcnt := BitVec.ofNat 8 s.seq.out.length, outbuf := storeOut s.seq.out s.rsp.outbuf } := rfl
@[simp] theorem completeGeneric_seq_eq : (completeGeneric s).seq = { s.seq with todo := [] } := rfl
@[simp] theorem startByte_hid_eq (b : Byte) (body : List Micro) : (startByte b body s).hid = { s.hid with sr := b } :=
  rfl
@[simp] theorem startByte_seq_eq (b : Byte) (body : List Micro) :
    (startByte b body s).seq = { s.seq with todo := body ++ s.seq.todo, retStatus := stOk } :=
  rfl
@[simp] theorem countByte_blk_eq (b : Byte) :
    (countByte b s).blk = { s.blk with crc16 := addCrc s.blk.crc16 b, xferlen := s.blk.xferlen + 1#16 } :=
  rfl
@[simp] theorem nextByte_hid_eq : (nextByte s).hid = { s.hid with bidx := s.hid.bidx + 1#16 } := rfl
@[simp] theorem tick_t100 : (tick s).time.t100 = s.time.t100 + 1#16 := rfl
@[simp] theorem tick_div : (tick s).time.div = s.time.div + 1 := rfl
@[simp] theorem tick_rsp_eq : (tick s).rsp = { s.rsp with done := false } := rfl
@[simp] theorem tick_env_eq : (tick s).env = { s.env with event := .tick, polled := false } := rfl
@[simp] theorem beginEngine_rsp_eq (p : Bool) : (beginEngine p s).rsp = { s.rsp with done := false } := rfl
@[simp] theorem beginEngine_env_eq (p : Bool) : (beginEngine p s).env = { s.env with event := .quiet, polled := p } :=
  rfl
@[simp] theorem loadBlock_blk_eq (mode bank : Byte) (offset length crc : Word) :
    (loadBlock mode bank offset length crc s).blk =
      { mode := mode, bank := bank, offset := offset, length := length, crc16 := crc, xferlen := 0#16 } :=
  rfl
@[simp] theorem loadBlock_lat_eq (mode bank : Byte) (offset length crc : Word) :
    (loadBlock mode bank offset length crc s).lat = { s.lat with chk := 0x00#8, hst := stOk, pst := stOk } := rfl

@[simp] theorem clearedLatches_chk : clearedLatches.chk = 0x00#8 := rfl
@[simp] theorem clearedLatches_devchk : clearedLatches.devchk = 0x00#8 := rfl
@[simp] theorem clearedLatches_hst : clearedLatches.hst = stOk := rfl
@[simp] theorem clearedLatches_pst : clearedLatches.pst = stOk := rfl

end Sys2Proof.Machine
end

