-- ==== Sys2Proof/Laws/Sequence.lean ====
section
/-! SUPPORT. Lemmas about `SEQ`: what dropping to a byte's return or to the command's exit leaves, and how the form
`seqOk` passes through the pieces the commands are made of. -/

namespace Sys2Proof.Machine

open Sys2Proof.Safety

/-! ## Dropping -/

@[simp] theorem dropToExit_sendBytes (bs : List Byte) (k : List Micro) :
    dropToExit (sendBytes bs ++ k) = dropToExit k := by
  induction bs with
  | nil => rfl
  | cons b rest ih => simpa [sendBytes, dropToExit] using ih

@[simp] theorem dropToExit_txByte (boot : Bool) (k : List Micro) :
    dropToExit (txByte boot ++ k) = dropToExit k := by
  simp [txByte, txPhase, dropToExit]

@[simp] theorem dropToExit_rxByte (k : List Micro) : dropToExit (rxByte ++ k) = dropToExit k := by
  simp [rxByte, rxPhase, dropToExit]

theorem dropToExit_writeFrame (mode bank : Byte) (offset length : Word) (k : List Micro) :
    dropToExit (writeFrame mode bank offset length ++ k) = dropToExit k := by
  simp [writeFrame, recvOne, dropToExit]

theorem dropToExit_readFrame (mode bank : Byte) (offset length : Word) (k : List Micro) :
    dropToExit (readFrame mode bank offset length ++ k) = dropToExit k := by
  simp [readFrame, recvOne, dropToExit]

/-- Inside a byte, the way to the command's exit goes through the byte's return. -/
theorem dropToExit_dropToByteEnd {k : List Micro} (h : inByte k = true) :
    dropToExit (dropToByteEnd k) = dropToExit k := by
  induction k with
  | nil => simp [inByte] at h
  | cons m rest ih => cases m <;> simp_all [inByte, dropToByteEnd, dropToExit]

/-- Where the abort path goes: the command's `StateOff()` and then its completion. -/
theorem exists_of_hasExit {k : List Micro} (h : hasExit k = true) :
    ∃ v c m, dropToExit k = [.exit, .latchData v, .latchClk c, m] ∧ completesOff m = true := by
  unfold hasExit at h
  split at h
  · next v c m hm => exact ⟨v, c, m, hm, h⟩
  · simp at h

/-! ## The form of `SEQ` -/

theorem hasExit_congr {k k' : List Micro} (h : dropToExit k = dropToExit k') : hasExit k = hasExit k' := by
  simp [hasExit, h]

theorem mayAbort_congr {l : Lines} {k k' : List Micro} (h : dropToExit k = dropToExit k') :
    mayAbort l k = mayAbort l k' := by
  simp [mayAbort, hasExit_congr h]

/-- `linesIdle` does not look at the levels of DATA and CLK. -/
@[simp] theorem linesIdle_levels (l : Lines) (ls : LineState) (d : Tri) (c : Bit) :
    linesIdle { l with ls := ls, dataOut := d, clkOut := c } = linesIdle l := rfl

theorem ready_levels (l : Lines) (d : Tri) (c : Bit) (k : List Micro) (m : Micro) :
    ready { l with dataOut := d, clkOut := c } k m = ready l k m := by
  cases m with
  | wire i => cases i <;> rfl
  | _ => rfl

theorem linesAfter_levels (l : Lines) (d : Tri) (c : Bit) (m : Micro) :
    linesAfter { l with dataOut := d, clkOut := c } m
      = { linesAfter l m with dataOut := d, clkOut := c } := by
  cases m with
  | wire i => cases i <;> rfl
  | _ => rfl

/-- `seqOk` does not look at the levels of DATA and CLK. -/
theorem seqOk_levels (l : Lines) (d : Tri) (c : Bit) (k : List Micro) :
    seqOk { l with dataOut := d, clkOut := c } k = seqOk l k := by
  induction k generalizing l with
  | nil => rfl
  | cons m rest ih => simp only [seqOk, ready_levels, linesAfter_levels, ih]

/-- A failed wait leaves a well-formed `SEQ`. -/
theorem seqOk_dropToByteEnd {l : Lines} {k : List Micro} (hb : inByte k = true) (h : seqOk l k = true) :
    seqOk l (dropToByteEnd k) = true := by
  induction k with
  | nil => simp [inByte] at hb
  | cons m rest ih =>
    cases m <;> simp_all [inByte, dropToByteEnd, seqOk, ready, completes, completesOff, linesAfter]

/-- The abort path leaves a well-formed `SEQ`. -/
theorem seqOk_dropToExit {l : Lines} {k : List Micro} (h : mayAbort l k = true) :
    seqOk l (dropToExit k) = true := by
  simp only [mayAbort, Bool.and_eq_true] at h
  obtain ⟨v, c, m, hm, hc⟩ := exists_of_hasExit h.2
  rw [hm]
  have hi : linesIdle { l with ls := .off } = true := h.1
  cases m <;> simp_all [completesOff, seqOk, ready, completes, linesAfter]

theorem seqOk_txByte {l : Lines} (boot : Bool) {k : List Micro} (hs : l.ls = .send)
    (h : seqOk l k = true) : seqOk l (txByte boot ++ k) = true := by
  simp [txByte, txPhase, seqOk, ready, completes, completesOff, linesAfter, inByte, hs, h]

theorem seqOk_rxByte {l : Lines} {k : List Micro} (h : seqOk l k = true) : seqOk l (rxByte ++ k) = true := by
  simp [rxByte, rxPhase, seqOk, ready, completes, completesOff, linesAfter, inByte, h]

theorem seqOk_sendBytes {l : Lines} (bs : List Byte) {k : List Micro} (hs : l.ls = .send)
    (ha : mayAbort l k = true) (h : seqOk l k = true) : seqOk l (sendBytes bs ++ k) = true := by
  induction bs with
  | nil => simpa [sendBytes] using h
  | cons b rest ih =>
    have hm : mayAbort l (sendBytes rest ++ k) = true := by
      rw [mayAbort_congr (dropToExit_sendBytes rest k)]; exact ha
    simp [sendBytes, seqOk, ready, wireReady, completes, completesOff, linesAfter, linesAfterWire, hs, hm, ih]

end Sys2Proof.Machine
end

