-- ==== Sys2Proof/Laws/Ops.lean ====
section
/-! SUPPORT. What each shared operation can do, said once: the outcomes of a sample, of a wait, of the probe, of the two
host ports and of the data loops; and what every statement of the pseudocode leaves alone. -/

namespace Sys2Proof.Machine

open Sys2Proof.Safety

/-! ## Implementation values -/

theorem codes_legal : Config.codes.legal = true := by
  unfold Config.codes
  split
  · assumption
  · decide

theorem vararg_ne_zero : Config.vararg ≠ 0#8 := by
  unfold Config.vararg
  split
  · decide
  · assumption

theorem genInMax_le : Config.genInMax ≤ 16 := Nat.min_le_right _ _

theorem noAck_ne_stOk (k : Phase) : noAck k ≠ stOk := by cases k <;> decide

/-! ## Parameter registers -/

theorem Params.get_set_same (p : Params) (i : Param) (v : Word) : (p.set i v).get i = v := by cases i <;> rfl

theorem Params.get_set_other (p : Params) {i j : Param} (v : Word) (h : j ≠ i) : (p.set i v).get j = p.get j := by
  cases i <;> cases j <;> first | rfl | exact absurd rfl h

/-! ## Samples -/

/-- A sample takes the next listed answer, or a free value where none is listed, and writes nothing else. -/
theorem sampleAck_spec (s : State) : ∃ a r d,
    sampleAck s = (a, { s with env.ackIn := r, env.draws := d, env.event := .sampleAck a }) ∧
    (s.env.ackIn = a :: r ∧ d = s.env.draws ∨
      s.env.ackIn = [] ∧ r = [] ∧ a = Config.freeAck s.env.draws ∧ d = s.env.draws + 1) := by
  unfold sampleAck
  split
  · next a r h => exact ⟨a, r, _, rfl, .inl ⟨h, rfl⟩⟩
  · next h => exact ⟨_, [], _, by rw [← h], .inr ⟨h, rfl, rfl, rfl⟩⟩

theorem sampleData_spec (s : State) : ∃ v r d,
    sampleData s = (v, { s with env.dataIn := r, env.draws := d, env.event := .sampleData v }) ∧
    (s.env.dataIn = v :: r ∧ d = s.env.draws ∨
      s.env.dataIn = [] ∧ r = [] ∧ v = Config.freeData s.env.draws ∧ d = s.env.draws + 1) := by
  unfold sampleData
  split
  · next v r h => exact ⟨v, r, _, rfl, .inl ⟨h, rfl⟩⟩
  · next h => exact ⟨_, [], _, by rw [← h], .inr ⟨h, rfl, rfl, rfl⟩⟩

/-! ## Waits (R110, R121) -/

/-- One poll: it goes on, it fails with the code of its phase, or it polls again. -/
theorem ackPoll_spec (s : State) : ∃ a r d, (sampleAck s).1 = a ∧
    ackPoll s = { s with
      env.ackIn := r, env.draws := d, env.event := .sampleAck a,
      seq.retStatus := if a ≠ phaseLevel s.hid.phase ∧ exceeds s.time.t100 s.hid.t0 s.par.waitAck = true
        then noAck s.hid.phase else s.seq.retStatus,
      seq.todo := if a = phaseLevel s.hid.phase then s.seq.todo
        else if exceeds s.time.t100 s.hid.t0 s.par.waitAck = true then dropToByteEnd s.seq.todo
        else .ackPoll :: s.seq.todo } := by
  obtain ⟨a, r, d, h, -⟩ := sampleAck_spec s
  refine ⟨a, r, d, by rw [h], ?_⟩
  simp only [ackPoll, h]
  by_cases ha : a = phaseLevel s.hid.phase
  · simp [ha]
  · by_cases he : exceeds s.time.t100 s.hid.t0 s.par.waitAck = true <;> simp [ha, he, failByte, doNext]

theorem aliveTest_spec (level : Bit) (timeout : Word) (s : State) :
    aliveTest level timeout s = s ∧ s.par.aliveRepeat.toNat ≤ s.hid.stab.toNat ∨
    aliveTest level timeout s = { s with seq.retStatus := stNotAlive, seq.todo := dropToExit s.seq.todo } ∧
      exceeds s.time.t10ms s.hid.t0a timeout = true ∨
    aliveTest level timeout s = { s with seq.todo := .aliveSample level timeout :: s.seq.todo } := by
  unfold aliveTest
  split
  · split
    · exact .inr (.inl ⟨rfl, ‹_›⟩)
    · exact .inr (.inr rfl)
  · exact .inl ⟨rfl, by omega⟩

theorem aliveSample_spec (level : Bit) (timeout : Word) (s : State) : ∃ a r d,
    aliveSample level timeout s = { s with
      hid.stab := nextStab s.hid.stab a level,
      env.ackIn := r, env.draws := d, env.event := .sampleAck a,
      seq.todo := .snap :: .tickPoll .aliveDelay :: .aliveTest level timeout :: s.seq.todo } := by
  obtain ⟨a, r, d, h, -⟩ := sampleAck_spec s
  exact ⟨a, r, d, by simp [aliveSample, h, doNext, tickWait]⟩

/-! ## Returns and checks -/

theorem byteEnd_spec (rx : Bool) (s : State) : ∃ v d,
    byteEnd rx s = { s with seq.retByte := v, env.draws := d } ∧
    (rx = true → s.seq.retStatus = stOk → v = s.hid.sr) ∧ (rx = false → v = s.seq.retByte) := by
  unfold byteEnd
  cases rx
  · exact ⟨_, _, rfl, by simp, fun _ => rfl⟩
  · by_cases h : s.seq.retStatus = stOk
    · exact ⟨s.hid.sr, s.env.draws, by rw [if_pos rfl, if_pos h], fun _ _ => rfl, by simp⟩
    · exact ⟨Config.freeByte s.env.draws, s.env.draws + 1, by rw [if_pos rfl, if_neg h], fun _ h' => absurd h' h,
        by simp⟩

theorem checkStatus_spec (s : State) :
    checkStatus s = { s with
      lat.pst := s.seq.retStatus,
      seq.todo := if s.seq.retStatus = stOk then s.seq.todo else dropToExit s.seq.todo } := by
  unfold checkStatus
  split <;> rfl

/-! ## The data loops and the host ports (R134, R135) -/

theorem sendLoop_spec (n : Word) (s : State) :
    sendLoop n s = { s with
      seq.todo :=
        (if s.hid.bidx.toNat < n.toNat then
          if s.lat.hst = stOk then [.pull, .sendLoop n]
          else [.wire (.wireByteNormal 0x00#8), .check, .accSend 0x00#8, .sendLoop n]
        else []) ++ s.seq.todo } := by
  unfold sendLoop
  split
  · split <;> rfl
  · rfl

/-- A pull waits, or takes the Host's answer: a byte to send, or a failure and a zero. -/
theorem hostPull_spec (s : State) :
    (s.env.pullIn = [] ∧ hostPull s = { s with seq.todo := .pull :: s.seq.todo }) ∨
    ∃ b h rest, s.env.pullIn = (b, h) :: rest ∧
      hostPull s = { s with
        env.pullIn := rest, env.event := .pull b h,
        lat.hst := if h = stOk then s.lat.hst else h,
        seq.todo := .wire (.wireByteNormal (if h = stOk then b else 0x00#8)) :: .check
          :: .accSend (if h = stOk then b else 0x00#8) :: s.seq.todo } := by
  unfold hostPull
  split
  · next h => exact .inl ⟨h, rfl⟩
  · next b h rest hp =>
    refine .inr ⟨b, h, rest, hp, ?_⟩
    by_cases hh : h = stOk <;> simp [hh, doNext]

/-- A byte that was sent counts while the Host has not failed; a filler does not. -/
theorem accSend_spec (b : Byte) (s : State) :
    accSend b s = { s with
      hid.bidx := s.hid.bidx + 1#16,
      lat.chk := if s.lat.hst = stOk then addChk s.lat.chk b else s.lat.chk,
      blk.crc16 := if s.lat.hst = stOk then addCrc s.blk.crc16 b else s.blk.crc16,
      blk.xferlen := if s.lat.hst = stOk then s.blk.xferlen + 1#16 else s.blk.xferlen } := by
  unfold accSend
  by_cases h : s.lat.hst = stOk <;> simp [h, nextByte, countByte]

theorem recvLoop_spec (n : Word) (s : State) :
    recvLoop n s = { s with
      seq.todo := (if s.hid.bidx.toNat < n.toNat then [recvOne, .check, .accRecv, .recvLoop n] else [])
        ++ s.seq.todo } := by
  unfold recvLoop
  split <;> rfl

/-- Every byte received enters the checksum; it is pushed while the Host has not failed. -/
theorem accRecv_spec (s : State) :
    accRecv s = { s with
      lat.chk := addChk s.lat.chk s.seq.retByte,
      hid.bidx := if s.lat.hst = stOk then s.hid.bidx else s.hid.bidx + 1#16,
      seq.todo := if s.lat.hst = stOk then .push s.seq.retByte :: s.seq.todo else s.seq.todo } := by
  unfold accRecv
  by_cases h : s.lat.hst = stOk <;> simp [h, nextByte, doNext]

/-- A push waits, or takes the Host's answer: the byte counts, or the failure is latched. -/
theorem hostPush_spec (b : Byte) (s : State) :
    (s.env.pushIn = [] ∧ hostPush b s = { s with seq.todo := .push b :: s.seq.todo }) ∨
    ∃ h rest, s.env.pushIn = h :: rest ∧
      hostPush b s = { s with
        env.pushIn := rest, env.event := .push b h,
        lat.hst := if h = stOk then s.lat.hst else h,
        hid.bidx := s.hid.bidx + 1#16,
        blk.crc16 := if h = stOk then addCrc s.blk.crc16 b else s.blk.crc16,
        blk.xferlen := if h = stOk then s.blk.xferlen + 1#16 else s.blk.xferlen } := by
  unfold hostPush
  split
  · next h => exact .inl ⟨h, rfl⟩
  · next h rest hp =>
    refine .inr ⟨h, rest, hp, ?_⟩
    by_cases hh : h = stOk <;> simp [hh, nextByte, countByte]

theorem genLoop_spec (m : Byte) (s : State) :
    genLoop m s = { s with
      seq.todo := (if m = 0#8 then [] else [recvOne, .check, .genStore, .genLoop (m - 1#8)]) ++ s.seq.todo } := by
  unfold genLoop
  split <;> rfl

/-! ## What every statement leaves alone -/

theorem ackPoll_frame (s : State) : (ackPoll s).lines = s.lines ∧ (ackPoll s).time = s.time ∧
    (ackPoll s).par = s.par ∧ (ackPoll s).blk = s.blk ∧ (ackPoll s).lat = s.lat ∧ (ackPoll s).rsp = s.rsp ∧
    (ackPoll s).hid = s.hid ∧ (ackPoll s).seq.packet = s.seq.packet ∧
    (ackPoll s).env.packets = s.env.packets := by
  obtain ⟨a, r, d, -, h⟩ := ackPoll_spec s
  rw [h]
  exact ⟨rfl, rfl, rfl, rfl, rfl, rfl, rfl, rfl, rfl⟩

/-- No statement writes a counter, takes a packet, changes the packet register, or writes the operand registers of a
block; PARAM_WR's alone writes a parameter register. -/
theorem runMicro_frame (m : Micro) (s : State) :
    (runMicro m s).time = s.time ∧
    ((∀ q v, m ≠ .paramWr q v) → (runMicro m s).par = s.par) ∧
    (runMicro m s).env.packets = s.env.packets ∧ (runMicro m s).seq.packet = s.seq.packet ∧
    (runMicro m s).blk.mode = s.blk.mode ∧ (runMicro m s).blk.bank = s.blk.bank ∧
    (runMicro m s).blk.offset = s.blk.offset ∧ (runMicro m s).blk.length = s.blk.length := by
  cases m with
  | ackPoll =>
    obtain ⟨-, h2, h3, h4, -, -, -, h8, h9⟩ := ackPoll_frame s
    simp [runMicro, h2, h3, h4, h8, h9]
  | rxSample =>
    obtain ⟨v, r, d, h, -⟩ := sampleData_spec s
    simp [runMicro, h]
  | byteEnd rx => obtain ⟨v, d, h, -⟩ := byteEnd_spec rx s; simp [runMicro, h]
  | tickPoll p => simp only [runMicro]; split <;> simp
  | aliveTest level timeout =>
    rcases aliveTest_spec level timeout s with ⟨h, -⟩ | ⟨h, -⟩ | h <;> simp [runMicro, h]
  | aliveSample level timeout =>
    obtain ⟨a, r, d, h⟩ := aliveSample_spec level timeout s; simp [runMicro, h]
  | check => simp [runMicro, checkStatus_spec]
  | sendLoop n => simp [runMicro, sendLoop_spec]
  | pull => rcases hostPull_spec s with ⟨-, h⟩ | ⟨b, e, r, -, h⟩ <;> simp [runMicro, h]
  | accSend b => simp [runMicro, accSend_spec]
  | recvLoop n => simp [runMicro, recvLoop_spec]
  | accRecv => simp [runMicro, accRecv_spec]
  | push b => rcases hostPush_spec b s with ⟨-, h⟩ | ⟨e, r, -, h⟩ <;> simp [runMicro, h]
  | genLoop n => simp [runMicro, genLoop_spec]
  | _ => simp [runMicro]

end Sys2Proof.Machine
end

