-- ==== Sys2Proof/Laws/PerInstr.lean ====
section
/-! SUPPORT. Facts about every instruction as syntax, one lemma per constructor. Family `CodeShape`: the space of an
instruction's code, its first byte and its length as R72, R73 and R133 give them, and for a byte on the wires the clock
levels of its four phases (R81). -/

namespace Sys2Proof.Laws.CodeShape

/-- A packet or a frame header with this first byte and this length. -/
def headAndLength (bytes : List Byte) (op : Byte) (n : Nat) : Prop := bytes.head? = some op ∧ bytes.length = n

/-- CLK is the lowest bit of each group of four: 0, 1, 0, 1. -/
def clockLevels (w : BitVec 16) : Prop := w &&& 0x1111#16 = 0x0101#16

def Statement (i : Instr) : Prop :=
  match i, encode i with
  | .stateOff, .packet p => headAndLength p 0x10#8 1
  | .stateSend, .packet p => headAndLength p 0x11#8 1
  | .stateRecv, .packet p => headAndLength p 0x12#8 1
  | .sendByte _, .packet p => headAndLength p 0x20#8 2
  | .recvByte, .packet p => headAndLength p 0x21#8 1
  | .sendByteBoot _, .packet p => headAndLength p 0x22#8 2
  | .isAlive _, .packet p => headAndLength p 0x30#8 3
  | .resetDevice _, .packet p => headAndLength p 0x31#8 2
  | .generic _ _ ins, .packet p => headAndLength p 0x40#8 (4 + ins.length)
  | .recvBlock _ _ _ _ _, .packet p => headAndLength p 0x41#8 9
  | .sendBlock _ _ _ _ _, .packet p => headAndLength p 0x42#8 9
  | .paramWr _ _, .packet p => headAndLength p 0x50#8 4
  | .paramRd _, .packet p => headAndLength p 0x51#8 2
  | .wireRead _ _ _ _, .frame p => headAndLength p 0x01#8 7
  | .wireWrite _ _ _ _, .frame p => headAndLength p 0x02#8 7
  | .wireByteNormal _, .phases w => clockLevels w
  | .wireByteBoot _, .phases w => clockLevels w
  | _, _ => False

theorem stateOff : Statement .stateOff := ⟨rfl, rfl⟩

theorem stateSend : Statement .stateSend := ⟨rfl, rfl⟩

theorem stateRecv : Statement .stateRecv := ⟨rfl, rfl⟩

theorem sendByte (b : Byte) : Statement (.sendByte b) := ⟨rfl, rfl⟩

theorem recvByte : Statement .recvByte := ⟨rfl, rfl⟩

theorem sendByteBoot (b : Byte) : Statement (.sendByteBoot b) := ⟨rfl, rfl⟩

theorem isAlive (timeout : Word) : Statement (.isAlive timeout) := ⟨rfl, rfl⟩

theorem resetDevice (mode : Byte) : Statement (.resetDevice mode) := ⟨rfl, rfl⟩

theorem generic (cmd : Byte) (outSize : Byte) (ins : List Byte) : Statement (.generic cmd outSize ins) :=
  ⟨rfl, by simp only [List.length_cons]; omega⟩

theorem recvBlock (mode : Byte) (bank : Byte) (offset : Word) (length : Word) (crc : Word) : Statement (.recvBlock mode bank offset length crc) := ⟨rfl, rfl⟩

theorem sendBlock (mode : Byte) (bank : Byte) (offset : Word) (length : Word) (crc : Word) : Statement (.sendBlock mode bank offset length crc) := ⟨rfl, rfl⟩

theorem paramWr (idx : Byte) (val : Word) : Statement (.paramWr idx val) := ⟨rfl, rfl⟩

theorem paramRd (idx : Byte) : Statement (.paramRd idx) := ⟨rfl, rfl⟩

theorem wireRead (mode : Byte) (bank : Byte) (offset : Word) (length : Word) : Statement (.wireRead mode bank offset length) := ⟨rfl, rfl⟩

theorem wireWrite (mode : Byte) (bank : Byte) (offset : Word) (length : Word) : Statement (.wireWrite mode bank offset length) := ⟨rfl, rfl⟩

theorem wireByteNormal (b : Byte) : Statement (.wireByteNormal b) := by
  have h : ∀ b : Byte, Machine.phaseWord false b &&& 0x1111#16 = 0x0101#16 := by decide
  exact h b

theorem wireByteBoot (b : Byte) : Statement (.wireByteBoot b) := by
  have h : ∀ b : Byte, Machine.phaseWord true b &&& 0x1111#16 = 0x0101#16 := by decide
  exact h b

end Sys2Proof.Laws.CodeShape
end

