-- ==== Sys2Proof/Laws/Run.lean ====
section
/-! SUPPORT. Runs of the Engine: how they join, what one step of the sequencer is, and what a byte sent or received with
every acknowledge does, once and for every continuation, so that no later proof steps through the phases again. -/

namespace Sys2Proof.Safety
open Sys2Proof.Machine

/-! ## Joining runs -/

theorem engineRun_add (m n : Nat) (s : State) : engineRun (m + n) s =
    match engineRun m s with
    | .next t => engineRun n t
    | .fault r => .fault r
    | .refused r => .refused r := by
  induction m generalizing s with
  | zero => simp [engineRun]
  | succ m ih =>
    rw [Nat.add_right_comm]
    simp only [engineRun]
    cases engineStep s <;> simp [ih]

theorem engineTrace_add {m : Nat} {s t : State} (n : Nat) (h : engineRun m s = .next t) :
    engineTrace (m + n) s = engineTrace m s ++ engineTrace n t := by
  induction m generalizing s with
  | zero => cases h; simp [engineTrace]
  | succ m ih =>
    rw [Nat.add_right_comm]
    simp only [engineRun, engineTrace] at h ⊢
    cases hs : engineStep s with
    | next u =>
      rw [hs] at h
      simp only [ih h]
      split <;> simp
    | fault r => simp [hs] at h
    | refused r => simp [hs] at h

theorem engineReaches_refl (s : State) : EngineReaches s [] s := ⟨0, rfl, rfl⟩

theorem engineReaches_trans {s t u : State} {es fs : List Event} (h : EngineReaches s es t)
    (g : EngineReaches t fs u) : EngineReaches s (es ++ fs) u := by
  obtain ⟨m, hm, rfl⟩ := h
  obtain ⟨n, hn, rfl⟩ := g
  exact ⟨m + n, by rw [engineRun_add, hm]; exact hn, engineTrace_add n hm⟩

theorem engineReaches_quiet {s t u : State} {es : List Event} (h : engineStep s = .next t) (hq : t.env.event = .quiet)
    (g : EngineReaches t es u) : EngineReaches s es u := by
  obtain ⟨n, hn, rfl⟩ := g
  exact ⟨n + 1, by simp [engineRun, h, hn], by simp [engineTrace, h, hq]⟩

theorem engineReaches_shown {s t u : State} {es : List Event} {e : Event} (h : engineStep s = .next t)
    (he : t.env.event = e) (hq : e ≠ .quiet) (g : EngineReaches t es u) : EngineReaches s (e :: es) u := by
  obtain ⟨n, hn, rfl⟩ := g
  subst he
  exact ⟨n + 1, by simp [engineRun, h, hn], by simp [engineTrace, h, hq]⟩

/-! ## One step of a running command -/

theorem engineStep_statement {s : State} {m : Micro} {k : List Micro} (hb : s.rsp.busy = true)
    (h : s.seq.todo = m :: k) (hw : ∀ i, m ≠ .wire i) :
    engineStep s = .next (runMicro m (beginEngine (polledAfter m s.env.polled) { s with seq.todo := k })) := by
  simp only [engineStep, hb, runSeq, h, ite_true]

theorem engineStep_wire {s : State} {i : Instr} {k : List Micro} (hb : s.rsp.busy = true)
    (h : s.seq.todo = .wire i :: k) :
    engineStep s = exec i (beginEngine true { s with seq.todo := k }) := by
  rw [engineStep, if_pos hb, runSeq, h]

/-! ## The way out of a compound command -/

/-- What `StateOff()` does on the way to the completion `m` (R101). -/
theorem reaches_exit (s : State) (m : Micro) (hb : s.rsp.busy = true) (ht : s.seq.todo = exitSteps m) :
    EngineReaches s offTrace
      { s with
        lines.ls := .off, lines.dataOut := 0b111#3, lines.clkOut := 1#1, rsp.done := false, seq.todo := [m],
        env.event := .clkOut 1#1, env.polled := true } := by
  rcases s with ⟨lines, time, par, blk, lat, rsp, hid, seq, env⟩
  rcases rsp with ⟨_, _, _, _, _, _, _, _⟩
  rcases seq with ⟨_, _, _, _, _⟩
  rcases env with ⟨_, _, _, _, _, _, _, _, _⟩
  simp only at hb ht
  subst hb ht
  exact ⟨3, rfl, rfl⟩

/-! ## A byte -/

/-- What `SendByte` and `SendByteBoot` do with every acknowledge (R112, R114). -/
theorem reaches_txByte (s : State) (boot : Bool) (k : List Micro) (acks : List Bit)
    (hb : s.rsp.busy = true) (ht : s.seq.todo = txByte boot ++ k) (ha : s.env.ackIn = ackEcho 1 ++ acks) :
    EngineReaches s
      [.data (txGroup boot s.hid.sr .p1), .clk 0#1, .sampleAck 0#1,
       .data (txGroup boot s.hid.sr .p2), .clk 1#1, .sampleAck 1#1,
       .data (txGroup boot s.hid.sr .p3), .clk 0#1, .sampleAck 0#1,
       .data (txGroup boot s.hid.sr .p4), .clk 1#1, .sampleAck 1#1]
      { s with
        lines.dataOut := txGroup boot s.hid.sr .p4, lines.clkOut := 1#1, rsp.done := false,
        hid.t0 := s.time.t100, hid.phase := .p4, seq.todo := k,
        env.ackIn := acks, env.event := .quiet, env.polled := true } := by
  rcases s with ⟨lines, time, par, blk, lat, rsp, hid, seq, env⟩
  rcases rsp with ⟨_, _, _, _, _, _, _, _⟩
  rcases seq with ⟨_, _, _, _, _⟩
  rcases env with ⟨_, _, _, _, _, _, _, _, _⟩
  simp only at hb ht ha
  subst hb ht ha
  exact ⟨17, rfl, rfl⟩

/-- What `RecvByte` does with every acknowledge (R113). -/
theorem reaches_rxByte (s : State) (k : List Micro) (acks : List Bit) (d : Samples) (datas : List Tri)
    (hb : s.rsp.busy = true) (ht : s.seq.todo = rxByte ++ k) (ha : s.env.ackIn = ackEcho 1 ++ acks)
    (hd : s.env.dataIn = samples [d] ++ datas) (hr : s.seq.retStatus = 0x00#8) :
    EngineReaches s (receivedTrace d)
      { s with
        lines.clkOut := 1#1, rsp.done := false,
        hid.t0 := s.time.t100, hid.sr := rxPlace (rxPlace (rxPlace s.hid.sr .p1 d.1) .p2 d.2.1) .p3 d.2.2,
        hid.phase := .p4, seq.todo := k,
        seq.retByte := rxPlace (rxPlace (rxPlace s.hid.sr .p1 d.1) .p2 d.2.1) .p3 d.2.2,
        env.ackIn := acks, env.dataIn := datas, env.event := .quiet, env.polled := true } := by
  rcases s with ⟨lines, time, par, blk, lat, rsp, hid, seq, env⟩
  rcases rsp with ⟨_, _, _, _, _, _, _, _⟩
  rcases seq with ⟨_, _, _, _, _⟩
  rcases env with ⟨_, _, _, _, _, _, _, _, _⟩
  simp only at hb ht ha hd hr
  subst hb ht ha hd hr
  exact ⟨19, rfl, rfl⟩

/-- The three samples fill the byte, whatever stood in `SR` (R82). -/
theorem rxPlace_all (sr : Byte) (d : Samples) :
    rxPlace (rxPlace (rxPlace sr .p1 d.1) .p2 d.2.1) .p3 d.2.2 = received d := by
  obtain ⟨a, b, c⟩ := d
  apply BitVec.eq_of_getElem_eq
  intro i hi
  have : i = 0 ∨ i = 1 ∨ i = 2 ∨ i = 3 ∨ i = 4 ∨ i = 5 ∨ i = 6 ∨ i = 7 := by omega
  rcases this with rfl | rfl | rfl | rfl | rfl | rfl | rfl | rfl <;>
    simp [rxPlace, received, @BitVec.getLsbD_append 6 2, @BitVec.getLsbD_append 3 3, @BitVec.getLsbD_append 3 5, BitVec.getLsbD_extractLsb', ← BitVec.getLsbD_eq_getElem]

/-! ## A byte as the commands issue it -/

theorem reaches_sendOne (s : State) (b : Byte) (k : List Micro) (acks : List Bit)
    (hb : s.rsp.busy = true) (hl : s.lines.ls = .send) (ht : s.seq.todo = .wire (.wireByteNormal b) :: k)
    (ha : s.env.ackIn = ackEcho 1 ++ acks) :
    EngineReaches s (sentTrace b)
      { s with
        lines.dataOut := 0b111#3, lines.clkOut := 1#1, rsp.done := false,
        hid.t0 := s.time.t100, hid.sr := b, hid.phase := .p4, seq.todo := k, seq.retStatus := 0x00#8,
        env.ackIn := acks, env.event := .quiet, env.polled := true } := by
  rcases s with ⟨lines, time, par, blk, lat, rsp, hid, seq, env⟩
  rcases lines with ⟨_, _, _, _, _, _⟩
  rcases rsp with ⟨_, _, _, _, _, _, _, _⟩
  rcases seq with ⟨_, _, _, _, _⟩
  rcases env with ⟨_, _, _, _, _, _, _, _, _⟩
  simp only at hb hl ht ha
  subst hb hl ht ha
  exact ⟨18, rfl, rfl⟩

theorem reaches_recvOne (s : State) (b : Byte) (k : List Micro) (acks : List Bit) (d : Samples) (datas : List Tri)
    (hb : s.rsp.busy = true) (hl : s.lines.ls = .recv) (ht : s.seq.todo = .wire (.wireByteNormal b) :: k)
    (ha : s.env.ackIn = ackEcho 1 ++ acks) (hd : s.env.dataIn = samples [d] ++ datas) :
    EngineReaches s (receivedTrace d)
      { s with
        lines.clkOut := 1#1, rsp.done := false,
        hid.t0 := s.time.t100, hid.sr := received d, hid.phase := .p4, seq.todo := k, seq.retStatus := 0x00#8,
        seq.retByte := received d,
        env.ackIn := acks, env.dataIn := datas, env.event := .quiet, env.polled := true } := by
  rw [← rxPlace_all 0#8 d]
  rcases s with ⟨lines, time, par, blk, lat, rsp, hid, seq, env⟩
  rcases lines with ⟨_, _, _, _, _, _⟩
  rcases rsp with ⟨_, _, _, _, _, _, _, _⟩
  rcases seq with ⟨_, _, _, _, _⟩
  rcases env with ⟨_, _, _, _, _, _, _, _, _⟩
  simp only at hb hl ht ha hd
  subst hb hl ht ha hd
  exact ⟨20, rfl, rfl⟩

theorem reaches_sendChecked (s : State) (b : Byte) (k : List Micro) (acks : List Bit)
    (hb : s.rsp.busy = true) (hl : s.lines.ls = .send) (ht : s.seq.todo = .wire (.wireByteNormal b) :: .check :: k)
    (ha : s.env.ackIn = ackEcho 1 ++ acks) :
    EngineReaches s (sentTrace b)
      { s with
        lines.dataOut := 0b111#3, lines.clkOut := 1#1, lat.pst := 0x00#8, rsp.done := false,
        hid.t0 := s.time.t100, hid.sr := b, hid.phase := .p4, seq.todo := k, seq.retStatus := 0x00#8,
        env.ackIn := acks, env.event := .quiet, env.polled := true } := by
  rcases s with ⟨lines, time, par, blk, lat, rsp, hid, seq, env⟩
  rcases lines with ⟨_, _, _, _, _, _⟩
  rcases rsp with ⟨_, _, _, _, _, _, _, _⟩
  rcases seq with ⟨_, _, _, _, _⟩
  rcases env with ⟨_, _, _, _, _, _, _, _, _⟩
  simp only at hb hl ht ha
  subst hb hl ht ha
  exact ⟨19, rfl, rfl⟩

theorem reaches_recvChecked (s : State) (b : Byte) (k : List Micro) (acks : List Bit) (d : Samples) (datas : List Tri)
    (hb : s.rsp.busy = true) (hl : s.lines.ls = .recv) (ht : s.seq.todo = .wire (.wireByteNormal b) :: .check :: k)
    (ha : s.env.ackIn = ackEcho 1 ++ acks) (hd : s.env.dataIn = samples [d] ++ datas) :
    EngineReaches s (receivedTrace d)
      { s with
        lines.clkOut := 1#1, lat.pst := 0x00#8, rsp.done := false,
        hid.t0 := s.time.t100, hid.sr := received d, hid.phase := .p4, seq.todo := k, seq.retStatus := 0x00#8,
        seq.retByte := received d,
        env.ackIn := acks, env.dataIn := datas, env.event := .quiet, env.polled := true } := by
  rw [← rxPlace_all 0#8 d]
  rcases s with ⟨lines, time, par, blk, lat, rsp, hid, seq, env⟩
  rcases lines with ⟨_, _, _, _, _, _⟩
  rcases rsp with ⟨_, _, _, _, _, _, _, _⟩
  rcases seq with ⟨_, _, _, _, _⟩
  rcases env with ⟨_, _, _, _, _, _, _, _, _⟩
  simp only at hb hl ht ha hd
  subst hb hl ht ha hd
  exact ⟨21, rfl, rfl⟩

/-! ## Bytes one after another (R133, R145) -/

theorem ackEcho_add (m n : Nat) : ackEcho (m + n) = ackEcho m ++ ackEcho n := by
  induction m with
  | zero => simp [ackEcho]
  | succ m ih => rw [Nat.add_right_comm]; simp [ackEcho, ih]

theorem reaches_sendBytes (bs : List Byte) (s : State) (b : Byte) (k : List Micro) (acks : List Bit)
    (hb : s.rsp.busy = true) (hl : s.lines.ls = .send) (ht : s.seq.todo = sendBytes (b :: bs) ++ k)
    (ha : s.env.ackIn = ackEcho (bs.length + 1) ++ acks) :
    EngineReaches s ((b :: bs).flatMap sentTrace)
      { s with
        lines.dataOut := 0b111#3, lines.clkOut := 1#1, lat.pst := 0x00#8, rsp.done := false,
        hid.t0 := s.time.t100, hid.sr := (b :: bs).getLast (by simp), hid.phase := .p4, seq.todo := k,
        seq.retStatus := 0x00#8, env.ackIn := acks, env.event := .quiet, env.polled := true } := by
  induction bs generalizing s b with
  | nil =>
    simpa using reaches_sendChecked s b k acks hb hl ht ha
  | cons c rest ih =>
    have ha' : s.env.ackIn = ackEcho 1 ++ (ackEcho (rest.length + 1) ++ acks) := by
      rw [ha, List.length_cons, Nat.add_comm, ackEcho_add, List.append_assoc]
    have h1 := reaches_sendChecked s b (sendBytes (c :: rest) ++ k) _ hb hl ht ha'
    have h2 := ih _ c hb hl rfl rfl |> engineReaches_trans h1
    simpa [List.getLast_cons] using h2
end Sys2Proof.Safety
end

