-- ==== Sys2Proof/Laws/Step.lean ====
section
/-! SUPPORT. What one step can do, said once (R5, R22, R33), and what taking an instruction leaves alone. -/

namespace Sys2Proof.Machine

open Sys2Proof.Safety

/-- A next state is an Engine step's, a tick's, a Host's or a Device's step's, or a block reset's. -/
theorem takeTurn_cases {turn : Turn} {waits goes t : State} (h : takeTurn turn waits goes = .next t) :
    engineStep goes = .next t ∨ (tickHeld waits = true ∧ engineStep waits = .next t) ∨
    (tickHeld waits = false ∧ t = tick goes) ∨ (∃ m, t = hostStep m goes) ∨ (∃ m, t = deviceStep m goes) ∨
    t = blockReset goes := by
  cases turn with
  | engine => exact .inl h
  | timebase =>
    simp only [takeTurn, timebaseTurn] at h
    split at h
    · exact .inr (.inl ⟨‹_›, h⟩)
    · cases h
      exact .inr (.inr (.inl ⟨by simp_all, rfl⟩))
  | host m => cases h; exact .inr (.inr (.inr (.inl ⟨m, rfl⟩)))
  | device m => cases h; exact .inr (.inr (.inr (.inr (.inl ⟨m, rfl⟩))))
  | blockReset => cases h; exact .inr (.inr (.inr (.inr (.inr rfl))))

/-- The same of `step`: the state the step starts from, `u`, differs from `s` in the schedule alone. -/
theorem step_cases {s t : State} (h : step s = .next t) :
    ∃ u sched draws, u = { s with env.sched := sched, env.draws := draws } ∧
      (engineStep u = .next t ∨ (tickHeld s = false ∧ t = tick u) ∨ (∃ m, t = hostStep m u) ∨
        (∃ m, t = deviceStep m u) ∨ t = blockReset u) := by
  unfold step at h
  split at h
  · next turn ts _ =>
    rcases takeTurn_cases h with h | ⟨-, h⟩ | h | h | h | h
    · exact ⟨_, _, _, rfl, .inl h⟩
    · exact ⟨s, _, _, rfl, .inl h⟩
    · exact ⟨_, _, _, rfl, .inr (.inl h)⟩
    · exact ⟨_, _, _, rfl, .inr (.inr (.inl h))⟩
    · exact ⟨_, _, _, rfl, .inr (.inr (.inr (.inl h)))⟩
    · exact ⟨_, _, _, rfl, .inr (.inr (.inr (.inr h)))⟩
  · rcases takeTurn_cases h with h | ⟨-, h⟩ | h | h | h | h
    · exact ⟨_, _, _, rfl, .inl h⟩
    · exact ⟨_, _, _, rfl, .inl h⟩
    · exact ⟨_, _, _, rfl, .inr (.inl h)⟩
    · exact ⟨_, _, _, rfl, .inr (.inr (.inl h))⟩
    · exact ⟨_, _, _, rfl, .inr (.inr (.inr (.inl h)))⟩
    · exact ⟨_, _, _, rfl, .inr (.inr (.inr (.inr h)))⟩

/-! ## The start of a command (R29): the latches are cleared or stay, and nothing else changes -/

section StartCommand
variable (i : Instr) (s : State)
@[simp] theorem startCommand_lines : (startCommand i s).lines = s.lines := rfl
@[simp] theorem startCommand_time : (startCommand i s).time = s.time := rfl
@[simp] theorem startCommand_par : (startCommand i s).par = s.par := rfl
@[simp] theorem startCommand_blk : (startCommand i s).blk = s.blk := rfl
@[simp] theorem startCommand_rsp : (startCommand i s).rsp = s.rsp := rfl
@[simp] theorem startCommand_hid : (startCommand i s).hid = s.hid := rfl
@[simp] theorem startCommand_seq : (startCommand i s).seq = s.seq := rfl
@[simp] theorem startCommand_env : (startCommand i s).env = s.env := rfl
end StartCommand

/-- Whether a start clears the latches depends on the line state alone. -/
theorem startsFresh_congr (i : Instr) {s t : State} (h : s.lines.ls = t.lines.ls) : startsFresh i s = startsFresh i t := by
  cases i <;> simp [startsFresh, blockReady, genericReady, h]

/-- An Engine step with no command running: nothing offered, a command taken, or a packet to be refused. -/
theorem engineStep_idle_cases {s t : State} (hb : s.rsp.busy = false) (h : engineStep s = .next t) :
    (s.env.packets = [] ∧ t = beginEngine true s) ∨
    ∃ p rest, s.env.packets = p :: rest ∧
      ((∃ i, decodePacket p = .ok i ∧
          exec i (startCommand i { beginEngine true s with seq.packet := p, env.packets := rest }) = .next t) ∨
        ∃ e, decodePacket p = .error e ∧
          t = reject { beginEngine true s with seq.packet := p, env.packets := rest }) := by
  rw [engineStep, if_neg (by simp [hb]), takePacket] at h
  split at h
  · next hp => cases h; exact .inl ⟨hp, rfl⟩
  · next p rest hp =>
    split at h
    · next i hi => exact .inr ⟨p, rest, hp, .inl ⟨i, hi, h⟩⟩
    · next e he => cases h; exact .inr ⟨p, rest, hp, .inr ⟨e, he, rfl⟩⟩

/-- An Engine step of a running command: a frame or byte it issues, or a statement of its pseudocode. -/
theorem engineStep_busy_cases {s t : State} (hb : s.rsp.busy = true) (h : engineStep s = .next t) :
    (∃ i k, s.seq.todo = .wire i :: k ∧ exec i (beginEngine true { s with seq.todo := k }) = .next t) ∨
    ∃ m k, s.seq.todo = m :: k ∧ (∀ i, m ≠ .wire i) ∧
      t = runMicro m (beginEngine (polledAfter m s.env.polled) { s with seq.todo := k }) := by
  rw [engineStep, if_pos hb, runSeq] at h
  split at h
  · cases h
  · next i k hk => exact .inl ⟨i, k, hk, h⟩
  · next m k hm hk => cases h; exact .inr ⟨m, k, hk, fun i e => hm i e, rfl⟩

/-- The next states of a command (R101 to R151) and of a frame or byte (R112 to R114, R133): taken with its pseudocode,
taken to be refused, or put in front of what is left; and what each leaves alone. -/
theorem exec_frame {i : Instr} {s t : State} (h : exec i s = .next t) :
    t.time = s.time ∧ t.env.packets = s.env.packets ∧ t.seq.packet = s.seq.packet ∧
    t.par = s.par ∧ t.lines = s.lines ∧ t.env = s.env ∧ t.rsp = { s.rsp with busy := t.rsp.busy } ∧
    (t.blk = s.blk ∨ ∃ mode bank offset length crc, blockOperandsOK offset length = true ∧
      t.blk = { mode := mode, bank := bank, offset := offset, length := length, crc16 := crc, xferlen := 0#16 }) := by
  cases i with
  | stateOff => cases h; simp
  | stateSend => cases h; simp
  | stateRecv => cases h; simp
  | sendByte b => simp only [exec, execSendByte] at h; split at h <;> cases h <;> simp
  | recvByte => simp only [exec, execRecvByte] at h; split at h <;> cases h <;> simp
  | sendByteBoot b => simp only [exec, execSendByteBoot] at h; split at h <;> cases h <;> simp
  | isAlive timeout => simp only [exec, execIsAlive] at h; split at h <;> cases h <;> simp
  | resetDevice mode => simp only [exec, execResetDevice] at h; split at h <;> cases h <;> simp
  | generic cmd outSize ins => simp only [exec, execGeneric] at h; split at h <;> cases h <;> simp
  | recvBlock mode bank offset length crc =>
    simp only [exec, execRecvBlock] at h
    split at h
    · next hr =>
      cases h
      simp only [blockReady, Bool.and_eq_true] at hr
      exact ⟨rfl, rfl, rfl, rfl, rfl, rfl, rfl, .inr ⟨mode, bank, offset, length, crc, hr.2, rfl⟩⟩
    · cases h; simp
  | sendBlock mode bank offset length crc =>
    simp only [exec, execSendBlock] at h
    split at h
    · next hr =>
      cases h
      simp only [blockReady, Bool.and_eq_true] at hr
      exact ⟨rfl, rfl, rfl, rfl, rfl, rfl, rfl, .inr ⟨mode, bank, offset, length, crc, hr.2, rfl⟩⟩
    · cases h; simp
  | paramWr idx val =>
    simp only [exec, execParamWr] at h
    split at h <;> cases h <;> simp
  | paramRd idx => simp only [exec, execParamRd] at h; split at h <;> cases h <;> simp
  | wireRead mode bank offset length => cases h; simp
  | wireWrite mode bank offset length => cases h; simp
  | wireByteNormal b => simp only [exec, execWireByteNormal] at h; split at h <;> cases h <;> simp
  | wireByteBoot b => simp only [exec, execWireByteBoot] at h; split at h <;> cases h; simp

end Sys2Proof.Machine
end

