-- ==== Sys2Proof/Machine/Text.lean ====
section
/-! DEFINITION. The textual form of a command (R89): the mnemonic of R73, then the operands in the order of R72,
separated by commas, numbers in hexadecimal with `0x`. It is notation, not behaviour. -/

namespace Sys2Proof.Machine

def hexDigit (n : Nat) : Char :=
  if n < 10 then Char.ofNat (48 + n) else Char.ofNat (55 + n)

/-- The `k` lowest hexadecimal digits of `n`, the most significant first. -/
def hexDigits : Nat → Nat → List Char
  | 0, _ => []
  | k + 1, n => hexDigits k (n / 16) ++ [hexDigit (n % 16)]

def hex8 (b : Byte) : List Char := ['0', 'x'] ++ hexDigits 2 b.toNat

def hex16 (w : Word) : List Char := ['0', 'x'] ++ hexDigits 4 w.toNat

/-- Items separated by a comma and a blank. -/
def commaSep : List (List Char) → List Char
  | [] => []
  | [a] => a
  | a :: b :: rest => a ++ [',', ' '] ++ commaSep (b :: rest)

/-- The mnemonic and the written operands. -/
def asm (name : List Char) (ops : List (List Char)) : List Char :=
  match ops with
  | [] => name
  | _ => name ++ [' '] ++ commaSep ops

/-- The text of an instruction (R89). The frames and bytes of the wires, which R89 gives no form, are written the
same way under their names in the opcode table. -/
def Instr.text : Instr → List Char
  | .stateOff => asm "STATE_OFF".toList []
  | .stateSend => asm "STATE_SEND".toList []
  | .stateRecv => asm "STATE_RECV".toList []
  | .sendByte b => asm "SEND_BYTE".toList [hex8 b]
  | .recvByte => asm "RECV_BYTE".toList []
  | .sendByteBoot b => asm "SEND_BYTE_BOOT".toList [hex8 b]
  | .isAlive timeout => asm "IS_ALIVE".toList [hex16 timeout]
  | .resetDevice mode => asm "RESET_DEVICE".toList [hex8 mode]
  | .generic cmd outSize ins =>
    asm "GENERIC".toList [hex8 cmd, hex8 outSize, ['['] ++ commaSep (ins.map hex8) ++ [']']]
  | .recvBlock mode bank offset length crc =>
    asm "RECV_BLOCK".toList [hex8 mode, hex8 bank, hex16 offset, hex16 length, hex16 crc]
  | .sendBlock mode bank offset length crc =>
    asm "SEND_BLOCK".toList [hex8 mode, hex8 bank, hex16 offset, hex16 length, hex16 crc]
  | .paramWr idx val => asm "PARAM_WR".toList [hex8 idx, hex16 val]
  | .paramRd idx => asm "PARAM_RD".toList [hex8 idx]
  | .wireRead mode bank offset length => asm "WIRE_READ".toList [hex8 mode, hex8 bank, hex16 offset, hex16 length]
  | .wireWrite mode bank offset length => asm "WIRE_WRITE".toList [hex8 mode, hex8 bank, hex16 offset, hex16 length]
  | .wireByteNormal b => asm "WIRE_BYTE_NORMAL".toList [hex8 b]
  | .wireByteBoot b => asm "WIRE_BYTE_BOOT".toList [hex8 b]

end Sys2Proof.Machine
end

