-- ==== Sys2Proof/Tests/Slice0.lean ====
section
/-! SUPPORT. The model's own tests: what `wellFormed` refuses, words written out from the spec's encodings, one step of
each instruction on a small state, the spec's worked examples, and for every statement with hypotheses a state that
meets them. -/

namespace Sys2Proof.Tests

open Sys2Proof Sys2Proof.Machine Sys2Proof.Safety

/-! ## Small states -/

/-- The state after reset with parameters that are numbers. -/
def idle : State :=
  { State.reset with
    par := { waitAck := 2#16, recvDelay := 0#16, aliveDelay := 0#16, aliveRepeat := 1#16,
             resetPre := 3#16, resetHold := 5#16 } }

/-- Idle in line state `l`, with a packet offered and an Engine turn. -/
def offered (l : LineState) (p : List Byte) : State :=
  { idle with lines.ls := l, env.packets := [p], env.sched := [.engine] }

/-- A command running in line state `l` with these statements left, and an Engine turn. -/
def running (l : LineState) (k : List Micro) : State :=
  { idle with lines.ls := l, rsp.busy := true, seq.todo := k, env.sched := [.engine] }

/-- What a field of the next state is; none for a fault or a refusal. -/
def fieldOf {α : Type} (f : State → α) : Result → Option α
  | .next t => some (f t)
  | .fault _ => none
  | .refused _ => none

/-- The three samples a Device gives for the byte `b`. -/
def samplesOf (b : Byte) : Samples := (b.extractLsb' 5 3, b.extractLsb' 2 3, 0#1 ++ b.extractLsb' 0 2)

/-! ## Well-formedness: each check refuses an ill-formed term (R75) -/

theorem test_reset_mode_two_is_ill_formed : (Instr.resetDevice 0x02#8).wellFormed = false := by decide
theorem test_param_wr_index_six_is_ill_formed : (Instr.paramWr 0x06#8 0#16).wellFormed = false := by decide
theorem test_param_rd_index_six_is_ill_formed : (Instr.paramRd 0x06#8).wellFormed = false := by decide
theorem test_recv_block_across_bank_is_ill_formed :
    (Instr.recvBlock 0#8 0#8 0x3FFF#16 2#16 0#16).wellFormed = false := by decide
theorem test_send_block_offset_is_ill_formed :
    (Instr.sendBlock 0#8 0#8 0x4000#16 0#16 0#16).wellFormed = false := by decide
theorem test_send_block_length_is_ill_formed :
    (Instr.sendBlock 0#8 0#8 0#16 0x4001#16 0#16).wellFormed = false := by decide
theorem test_send_block_whole_bank_is_well_formed :
    (Instr.sendBlock 0#8 0#8 0#16 0x4000#16 0#16).wellFormed = true := by decide
theorem test_wire_read_across_bank_is_ill_formed :
    (Instr.wireRead 0#8 0#8 0x3FFF#16 2#16).wellFormed = false := by decide
theorem test_wire_write_across_bank_is_ill_formed :
    (Instr.wireWrite 0#8 0#8 0x3FFF#16 2#16).wellFormed = false := by decide

/-- More than 16 input bytes break every legal `GEN_IN_MAX` (R74). -/
theorem test_generic_seventeen_inputs_is_ill_formed :
    (Instr.generic 0#8 0#8 (List.replicate 17 0#8)).wellFormed = false := by
  have h : Config.genInMax ≤ 16 := Nat.min_le_right _ _
  have h17 : ¬ 17 ≤ Config.genInMax := by omega
  simp [Instr.wellFormed, genericInputsOK, h17]

/-! ## Decoding: every constructor from a word written out from R72, R82 to R85 -/

theorem test_decode_state_off : decode (.packet [0x10#8]) = .ok .stateOff := by decide
theorem test_decode_state_send : decode (.packet [0x11#8]) = .ok .stateSend := by decide
theorem test_decode_state_recv : decode (.packet [0x12#8]) = .ok .stateRecv := by decide
theorem test_decode_send_byte : decode (.packet [0x20#8, 0xA5#8]) = .ok (.sendByte 0xA5#8) := by decide
theorem test_decode_recv_byte : decode (.packet [0x21#8]) = .ok .recvByte := by decide
theorem test_decode_send_byte_boot : decode (.packet [0x22#8, 0x1B#8]) = .ok (.sendByteBoot 0x1B#8) := by decide
theorem test_decode_is_alive : decode (.packet [0x30#8, 0x34#8, 0x12#8]) = .ok (.isAlive 0x1234#16) := by decide
theorem test_decode_reset_device : decode (.packet [0x31#8, 0x01#8]) = .ok (.resetDevice 0x01#8) := by decide
theorem test_decode_generic :
    decode (.packet [0x40#8, 0x10#8, 0x02#8, 0x01#8, 0xAA#8]) = .ok (.generic 0x10#8 0x02#8 [0xAA#8]) := by decide
theorem test_decode_recv_block :
    decode (.packet [0x41#8, 0x00#8, 0x00#8, 0x34#8, 0x12#8, 0x02#8, 0x00#8, 0xCD#8, 0xAB#8])
      = .ok (.recvBlock 0x00#8 0x00#8 0x1234#16 0x0002#16 0xABCD#16) := by decide
theorem test_decode_send_block :
    decode (.packet [0x42#8, 0x00#8, 0x01#8, 0xF0#8, 0x3F#8, 0x10#8, 0x00#8, 0xFF#8, 0xFF#8])
      = .ok (.sendBlock 0x00#8 0x01#8 0x3FF0#16 0x0010#16 0xFFFF#16) := by decide
theorem test_decode_param_wr :
    decode (.packet [0x50#8, 0x00#8, 0x64#8, 0x00#8]) = .ok (.paramWr 0x00#8 0x0064#16) := by decide
theorem test_decode_param_rd : decode (.packet [0x51#8, 0x05#8]) = .ok (.paramRd 0x05#8) := by decide
theorem test_decode_wire_read :
    decode (.frame [0x01#8, 0x00#8, 0x00#8, 0x34#8, 0x12#8, 0x02#8, 0x00#8])
      = .ok (.wireRead 0x00#8 0x00#8 0x1234#16 0x0002#16) := by decide
theorem test_decode_wire_write :
    decode (.frame [0x02#8, 0x00#8, 0x00#8, 0x10#8, 0x00#8, 0x02#8, 0x00#8])
      = .ok (.wireWrite 0x00#8 0x00#8 0x0010#16 0x0002#16) := by decide
/-- 0xA5 in normal mode: DATA 5, 1, 1, 7 with CLK 0, 1, 0, 1 (R112's example). -/
theorem test_decode_wire_byte_normal :
    decode (.phases 0b1010001100101111#16) = .ok (.wireByteNormal 0xA5#8) := by decide
/-- 0x1B in boot mode: DATA 0, 1, 2, 3 with CLK 0, 1, 0, 1 (R114's example). -/
theorem test_decode_wire_byte_boot :
    decode (.phases 0b0000001101000111#16) = .ok (.wireByteBoot 0x1B#8) := by decide

theorem test_decode_wire_opcode_is_no_command :
    decode (.packet [0x01#8]) = .error (.unknownOpcode 0x01#8) := by decide
theorem test_decode_short_packet : decode (.packet [0x20#8]) = .error (.wrongLength 0x20#8) := by decide
theorem test_decode_long_packet : decode (.packet [0x10#8, 0x00#8]) = .error (.wrongLength 0x10#8) := by decide
theorem test_decode_generic_wrong_count :
    decode (.packet [0x40#8, 0x10#8, 0x02#8, 0x02#8, 0xAA#8]) = .error (.wrongLength 0x40#8) := by decide
theorem test_decode_wrong_clock : decode (.phases 0b1011001100101111#16) = .error .unknownPhases := by decide

/-! ## One step of each instruction -/

theorem test_state_off_taken :
    fieldOf (fun t => (t.rsp.busy, t.lines.ls, t.seq.todo)) (step (offered .send [0x10#8]))
      = some (true, .send, [.line .off, .latchData 0b111#3, .latchClk 1#1, .completeOk]) := by decide
/-- R101's example: a failed byte's levels go back to idle, one write of a latch at a time. -/
theorem test_state_off_restores_a_latch :
    fieldOf (fun t => (t.lines.dataOut, t.lines.clkOut, t.env.event))
      (step { running .off [.latchData 0b111#3, .latchClk 1#1] with lines.dataOut := 0b101#3, lines.clkOut := 0#1 })
      = some (0b111#3, 0#1, .dataOut 0b111#3) := by decide
theorem test_state_send_taken :
    fieldOf (fun t => (t.rsp.busy, t.lines.ls, t.seq.todo)) (step (offered .off [0x11#8]))
      = some (true, .off, [.line .send, .completeOk]) := by decide
/-- R102's example: the latches stay. -/
theorem test_state_send_drives :
    fieldOf (fun t => (t.lines.ls, t.lines.clkOut, t.lines.ports.dataOe, t.lines.ports.clkOe))
      (step (running .off [.line .send, .completeOk])) = some (.send, 1#1, true, true) := by decide
theorem test_state_recv_taken :
    fieldOf (fun t => (t.rsp.busy, t.seq.todo)) (step (offered .send [0x12#8]))
      = some (true, [.line .recv, .completeOk]) := by decide
/-- R103's example: DATA released, CLK still driven. -/
theorem test_state_recv_releases_data :
    fieldOf (fun t => (t.lines.ls, t.lines.ports.dataOe, t.lines.ports.clkOe))
      (step (running .send [.line .recv, .completeOk])) = some (.recv, false, true) := by decide
theorem test_send_byte_taken :
    fieldOf (fun t => (t.rsp.busy, t.seq.todo)) (step (offered .send [0x20#8, 0xA5#8]))
      = some (true, [.wire (.wireByteNormal 0xA5#8), .completeRet]) := by decide
theorem test_send_byte_refused_in_off :
    fieldOf (fun t => (t.rsp.busy, t.seq.todo)) (step (offered .off [0x20#8, 0xA5#8])) = some (true, [.refuse]) := by
  decide
/-- R76: `ILL` set, `BUSY` back to 0, `done`, `STATUS` kept. -/
theorem test_refusal :
    fieldOf (fun t => (t.rsp.ill, t.rsp.busy, t.rsp.done, t.rsp.status))
      (step { running .off [.refuse] with rsp.status := 0x03#8 }) = some (true, false, true, 0x03#8) := by decide
theorem test_recv_byte_refused_in_send :
    fieldOf (fun t => t.seq.todo) (step (offered .send [0x21#8])) = some [.refuse] := by decide
theorem test_recv_byte_taken :
    fieldOf (fun t => t.seq.todo) (step (offered .recv [0x21#8])) = some [recvOne, .completeRecv] := by decide
theorem test_send_byte_boot_taken :
    fieldOf (fun t => t.seq.todo) (step (offered .send [0x22#8, 0x1B#8]))
      = some [.wire (.wireByteBoot 0x1B#8), .completeRet] := by decide
theorem test_is_alive_taken :
    fieldOf (fun t => (t.rsp.busy, t.seq.todo.head?)) (step (offered .off [0x30#8, 0x01#8, 0x00#8]))
      = some (true, some (.line .recv)) := by decide
theorem test_reset_device_mode_two_refused :
    fieldOf (fun t => t.seq.todo) (step (offered .off [0x31#8, 0x02#8])) = some [.refuse] := by decide
/-- R123: without the knock the pre-delay is skipped. -/
theorem test_reset_device_plain :
    fieldOf (fun t => t.seq.todo.take 3) (step (offered .off [0x31#8, 0x00#8]))
      = some [.resetDrive true, .snap, .tickPoll .resetHold] := by decide
theorem test_generic_taken :
    fieldOf (fun t => (t.rsp.outcnt, t.lat.chk, t.seq.todo))
      (step { offered .off [0x40#8, 0x10#8, 0x00#8, 0x00#8] with rsp.outcnt := 9#8, lat.chk := 9#8 })
      = some (9#8, 0#8, [.line .send, .wire (.wireByteNormal 0x10#8), .check, .exit, .latchData 0b111#3, .latchClk 1#1,
          .completeGeneric]) := by decide
/-- R77: the output stands in `OUTBUF` when the command ends. -/
theorem test_generic_output (old : Vector Byte 255) :
    (storeOut [5#8, 6#8] old)[1] = 6#8 ∧ (storeOut [5#8, 6#8] old)[2] = old[2] := by simp [storeOut]
theorem test_recv_block_loads_the_scratch :
    fieldOf (fun t => (t.blk.bank, t.blk.offset, t.blk.length, t.blk.crc16, t.blk.xferlen))
      (step (offered .off [0x41#8, 0x00#8, 0x07#8, 0x34#8, 0x12#8, 0x02#8, 0x00#8, 0xCD#8, 0xAB#8]))
      = some (0x07#8, 0x1234#16, 0x0002#16, 0xABCD#16, 0#16) := by decide
theorem test_recv_block_refused_in_recv :
    fieldOf (fun t => (t.seq.todo, t.blk.offset))
      (step (offered .recv [0x41#8, 0x00#8, 0x07#8, 0x34#8, 0x12#8, 0x02#8, 0x00#8, 0xCD#8, 0xAB#8]))
      = some ([.refuse], 0#16) := by decide
/-- R138 (b): offset 0x3FFF, length 1 is accepted. -/
theorem test_send_block_last_byte_accepted :
    fieldOf (fun t => (t.rsp.busy, t.lat))
      (step { offered .off [0x42#8, 0x00#8, 0x00#8, 0xFF#8, 0x3F#8, 0x01#8, 0x00#8, 0x00#8, 0x00#8]
              with lat.hst := 7#8, lat.devchk := 7#8 })
      = some (true, { chk := 0#8, devchk := 0#8, hst := 0#8, pst := 0#8 }) := by decide
/-- R138 (b): offset 0x3FFF, length 2 is refused. -/
theorem test_send_block_across_bank_refused :
    fieldOf (fun t => t.seq.todo)
      (step (offered .off [0x42#8, 0x00#8, 0x00#8, 0xFF#8, 0x3F#8, 0x02#8, 0x00#8, 0x00#8, 0x00#8]))
      = some [.refuse] := by decide
/-- R150's example. -/
theorem test_param_wr_taken :
    fieldOf (fun t => (t.par.waitAck, t.seq.todo)) (step (offered .recv [0x50#8, 0x00#8, 0x64#8, 0x00#8]))
      = some (2#16, [.paramWr .waitAck 0x0064#16, .completeOk]) := by decide
theorem test_param_wr_stores :
    fieldOf (fun t => (t.par.waitAck, t.par.recvDelay)) (step (running .recv [.paramWr .waitAck 0x0064#16, .completeOk]))
      = some (0x0064#16, 0#16) := by decide
theorem test_param_rd_taken :
    fieldOf (fun t => t.seq.todo) (step (offered .off [0x51#8, 0x00#8])) = some [.completeWord .waitAck] := by decide
/-- R151's example. -/
theorem test_param_rd :
    fieldOf response
      (step { running .off [.completeWord .waitAck] with seq.packet := [0x51#8, 0x00#8], par.waitAck := 0x0064#16 })
      = some [0x00#8, 0x00#8, 0x64#8, 0x00#8] := by decide
theorem test_wire_write_header :
    fieldOf (fun t => t.seq.todo.take 4) (step (running .off [.wire (.wireWrite 0#8 0#8 0x10#16 2#16), .exit]))
      = some [.line .send, .wire (.wireByteNormal 0x02#8), .check, .wire (.wireByteNormal 0x00#8)] := by decide
theorem test_wire_read_turns_around :
    fieldOf (fun t => t.seq.todo.drop 15) (step (running .off [.wire (.wireRead 0#8 0#8 0x10#16 2#16), .exit]))
      = some [.line .recv, .startData, .recvLoop 2#16, recvOne, .latchDevchk, .check, .exit] := by decide
theorem test_wire_byte_normal_receives :
    fieldOf (fun t => (t.hid.sr, t.seq.todo.take 2)) (step (running .recv [.wire (.wireByteNormal 0xFF#8)]))
      = some (0#8, [.phaseClk .p1, .snap]) := by decide
theorem test_wire_byte_boot_sends :
    fieldOf (fun t => (t.hid.sr, t.seq.todo.take 2)) (step (running .send [.wire (.wireByteBoot 0x1B#8)]))
      = some (0x1B#8, [.txData true .p1, .phaseClk .p1]) := by decide

/-! ## One step of the other agents (R5, R61) -/

theorem test_host_offers_a_packet :
    fieldOf (fun t => t.env.packets) (step { offered .off [0x10#8] with env.sched := [.host (.offer [0x11#8])] })
      = some [[0x10#8], [0x11#8]] := by decide
theorem test_device_settles_a_level :
    fieldOf (fun t => t.env.ackIn) (step { running .send [.ackPoll] with env.sched := [.device (.ack 0#1)] })
      = some [0#1] := by decide
/-- R61 (b): at the snapshot of a wait that owes a poll the Timebase waits for the Engine; the turn stays. -/
theorem test_timebase_waits_for_the_poll :
    fieldOf (fun t => (t.time.t100, t.env.polled, t.env.sched))
      (step { running .recv [.snap, .tickPoll .aliveDelay] with env.polled := false, env.sched := [.timebase] })
      = some (0#16, false, [.timebase]) := by decide

/-! ## The spec's worked examples -/

/-- R112: 0xA5 drives 5, 1, 1, 7. -/
theorem test_groups_normal : [normalGroup 0xA5#8 .p1, normalGroup 0xA5#8 .p2, normalGroup 0xA5#8 .p3,
    normalGroup 0xA5#8 .p4] = [5#3, 1#3, 1#3, 7#3] := by decide
/-- R114: 0xFF drives 3, 3, 3, 3. -/
theorem test_groups_boot : [bootGroup 0xFF#8 .p1, bootGroup 0xFF#8 .p2, bootGroup 0xFF#8 .p3, bootGroup 0xFF#8 .p4]
    = [3#3, 3#3, 3#3, 3#3] := by decide
/-- R113: samples 7, 7, 4 give 0xFC. -/
theorem test_received_ignores_data2 : received (7#3, 7#3, 4#3) = 0xFC#8 := by decide
/-- R130: 0x12, 0x34 give 0x48; 0xFF gives 0x00. -/
theorem test_checksum : checksum 0#8 [0x12#8, 0x34#8] = 0x48#8 ∧ checksum 0#8 [0xFF#8] = 0x00#8 := by decide
/-- R133: `LENGTH = 0x4000` is sent as 0x00, 0x40. -/
theorem test_header_length : (headerBytes 0x02#8 0#8 0#8 0#16 0x4000#16).drop 5 = [0x00#8, 0x40#8] := by decide
/-- R155: base 0x3FF0, length 0x20, block size 0x1000 is two blocks. -/
theorem test_transfer_splits_at_the_bank : requests 0x1000 0x20 0x3FF0 0x20
    = [{ bank := 0, offset := 0x3FF0, length := 0x10 }, { bank := 1, offset := 0, length := 0x10 }] := by decide
/-- R89: the spec's text for its example packet. -/
theorem test_text : Instr.text (.sendBlock 0x00#8 0x01#8 0x3FF0#16 0x0010#16 0xFFFF#16)
    = "SEND_BLOCK 0x00, 0x01, 0x3FF0, 0x0010, 0xFFFF".toList := by decide
/-- R136: the Host's error before the protocol's, the protocol's before the checksum's. -/
theorem test_block_result_precedence :
    blockResult { chk := 1#8, devchk := 2#8, hst := 7#8, pst := 1#8 } = 7#8 ∧
    blockResult { chk := 1#8, devchk := 2#8, hst := 0#8, pst := 1#8 } = 1#8 ∧
    blockResult { chk := 1#8, devchk := 1#8, hst := 0#8, pst := 0#8 } = 0#8 := by decide
/-- A wait that polls at its budget goes on; one increment later it fails (R110). -/
theorem test_budget_is_strict : exceeds 0x0001#16 0xFFFF#16 2#16 = false ∧ exceeds 0x0002#16 0xFFFF#16 2#16 = true := by
  decide
/-- Reading a table word back: PARAM_RD 0x05 and the wire words. -/
theorem test_table_words :
    decodeTableWord 16 0x0551 = some (.paramRd 0x05#8) ∧ decodeTableWord 8 0x10 = some .stateOff ∧
    decodeTableWord 8 0x01 = some (.wireRead 0#8 0#8 0#16 0#16) ∧
    decodeTableWord 16 0b1010001100101111 = some (.wireByteNormal 0xA5#8) := by decide

/-! ## A state for every statement with hypotheses -/

theorem witness_DecodingAnEncodingGivesTheInstruction :
    (Instr.sendBlock 1#8 2#8 0x3FFF#16 1#16 3#16).wellFormed = true := by decide
theorem witness_EncodingADecodingGivesTheCode : decode (.packet [0x10#8]) = .ok .stateOff := by decide
/-- A packet that is a command, and one that is none. -/
theorem witness_ResponsePackets_refused :
    { idle with seq.packet := [0x21#8], rsp.ill := true }.rsp.ill = true ∧
    { idle with seq.packet := [0x99#8], rsp.ill := true }.rsp.ill = true := by decide
theorem witness_ResponsePackets_completed :
    let s := { idle with seq.packet := [0x51#8, 0x05#8] }
    decodePacket s.seq.packet = .ok (.paramRd 0x05#8) ∧ s.rsp.busy = false ∧ s.rsp.ill = false := by decide
theorem witness_OutputEnables :
    (running .off []).lines.ls = .off ∧ (running .send []).lines.ls = .send ∧ (running .recv []).lines.ls = .recv := by
  decide
theorem witness_WireByteNormalSends :
    let s := { running .send [] with env.ackIn := ackEcho 1 }
    s.rsp.busy = true ∧ s.lines.ls = .send ∧ s.env.ackIn = ackEcho 1 ++ [] := by decide
theorem witness_WireByteNormalReceives :
    let s := { running .recv [] with env.ackIn := ackEcho 1, env.dataIn := [7#3, 0#3, 4#3] }
    s.rsp.busy = true ∧ s.lines.ls = .recv ∧ s.env.ackIn = ackEcho 1 ++ [] ∧
      s.env.dataIn = 7#3 :: 0#3 :: 4#3 :: [] := by decide
theorem witness_WireByteBootSends :
    let s := { running .send [] with env.ackIn := ackEcho 1 }
    s.rsp.busy = true ∧ s.lines.ls = .send ∧ s.env.ackIn = ackEcho 1 ++ [] := by decide
theorem witness_ByteOrdersNeedTheirLineState : idle.lines.ls = .off ∧ (running .recv []).lines.ls ≠ .send := by decide
theorem witness_SendByteCompletes :
    let s := { offered .send [] with env.ackIn := ackEcho 1 }
    s.lines.ls = .send ∧ s.env.ackIn = ackEcho 1 ++ [] := by decide
theorem witness_RecvByteCompletes :
    let s := { offered .recv [] with env.ackIn := ackEcho 1, env.dataIn := [5#3, 1#3, 1#3] }
    s.lines.ls = .recv ∧ s.env.ackIn = ackEcho 1 ++ [] ∧ s.env.dataIn = samples [(5#3, 1#3, 1#3)] ++ [] := by decide
theorem witness_SendByteBootCompletes :
    let s := { offered .send [] with env.ackIn := ackEcho 1 }
    s.lines.ls = .send ∧ s.env.ackIn = ackEcho 1 ++ [] := by decide

/-- A wait of phase 2 with one increment more than the budget behind it, and `k` after it. -/
def overdue (l : LineState) (k : List Micro) : State :=
  { running l (.ackPoll :: k) with hid.phase := .p2, time.t100 := 3#16, env.ackIn := [0#1] }

theorem witness_FailedWaitEndsAByteCommand_send :
    let k := txPhase false .p3 ++ txPhase false .p4 ++ [.byteEnd false, .completeRet]
    let s := overdue .send k
    s.rsp.busy = true ∧ s.seq.todo = .ackPoll :: k ∧ s.env.ackIn = 0#1 :: [] ∧ 0#1 ≠ phaseLevel s.hid.phase ∧
      s.par.waitAck.toNat < (s.time.t100 - s.hid.t0).toNat ∧
      dropToByteEnd k = [.byteEnd false, .completeRet] := by decide
theorem witness_FailedWaitEndsAByteCommand_recv :
    let k := [.settle, .rxSample] ++ rxPhase .p3 ++ [.phaseClk .p4, .snap, .ackPoll, .byteEnd true, .completeRecv]
    let s := overdue .recv k
    s.rsp.busy = true ∧ s.seq.todo = .ackPoll :: k ∧ s.env.ackIn = 0#1 :: [] ∧ 0#1 ≠ phaseLevel s.hid.phase ∧
      s.par.waitAck.toNat < (s.time.t100 - s.hid.t0).toNat ∧
      dropToByteEnd k = [.byteEnd true, .completeRecv] := by decide
theorem witness_AckWaitPolls_snapshot :
    (running .send [.snap]).rsp.busy = true ∧ (running .send [.snap]).seq.todo = .snap :: [] := by decide
/-- The level, over the budget, and exactly at the budget. -/
theorem witness_AckWaitPolls_outcomes :
    let good := { overdue .send [] with env.ackIn := [1#1] }
    let late := overdue .send []
    let wait := { overdue .send [] with time.t100 := 2#16 }
    (good.rsp.busy = true ∧ good.seq.todo = .ackPoll :: [] ∧ good.env.ackIn = 1#1 :: [] ∧
      1#1 = phaseLevel good.hid.phase) ∧
    (late.env.ackIn = 0#1 :: [] ∧ 0#1 ≠ phaseLevel late.hid.phase ∧
      late.par.waitAck.toNat < (late.time.t100 - late.hid.t0).toNat) ∧
    (wait.env.ackIn = 0#1 :: [] ∧ 0#1 ≠ phaseLevel wait.hid.phase ∧
      ¬ wait.par.waitAck.toNat < (wait.time.t100 - wait.hid.t0).toNat) := by decide
theorem witness_AckWaitFailsAfterItsBudget :
    let s := { running .send [.ackPoll, .byteEnd false] with
      par.waitAck := 0#16, hid.phase := .p2, env.ackIn := [0#1, 0#1],
      env.sched := [.engine, .timebase, .engine] }
    s.rsp.busy = true ∧ s.seq.todo = .ackPoll :: [.byteEnd false] ∧ s.hid.t0 = s.time.t100 ∧
      s.par.waitAck ≠ 0xFFFF#16 ∧ 0#1 ≠ phaseLevel s.hid.phase ∧
      s.env.ackIn = List.replicate (s.par.waitAck.toNat + 2) 0#1 ++ [] ∧
      s.env.sched = .engine ::
        (List.replicate (s.par.waitAck.toNat + 1) [Turn.timebase, Turn.engine]).flatten ++ [] := by decide
theorem witness_WaitWithoutTimeout :
    let s := { overdue .send [] with par.waitAck := 0xFFFF#16, time.t100 := 0xFFFF#16 }
    s.rsp.busy = true ∧ s.seq.todo = .ackPoll :: [] ∧ s.env.ackIn = 0#1 :: [] ∧ 0#1 ≠ phaseLevel s.hid.phase ∧
      s.par.waitAck = 0xFFFF#16 := by decide
/-- The DATA values of a sender of 0xA5, taken by the receiver. -/
theorem witness_SendThenReceiveGivesTheByte :
    let s := { running .send [] with env.ackIn := ackEcho 1 }
    let r := { running .recv [] with env.ackIn := ackEcho 1, env.dataIn := [5#3, 1#3, 1#3] }
    s.rsp.busy = true ∧ s.lines.ls = .send ∧ s.env.ackIn = ackEcho 1 ++ [] ∧
      r.rsp.busy = true ∧ r.lines.ls = .recv ∧ r.env.ackIn = ackEcho 1 ++ [] ∧
      r.env.dataIn = ((sentTrace 0xA5#8).filterMap
        (fun e => match e with | .data v => some v | _ => none)).take 3 ++ [] := by decide
theorem witness_IsAliveCompletes :
    let s := { offered .off [] with par.aliveRepeat := 1#16, par.aliveDelay := 25#16, env.ackIn := ackEcho 1 }
    let r := s.par.aliveRepeat.toNat
    s.lines.ls = .off ∧ 4 * r * s.par.aliveDelay.toNat ≤ 100 * (1#16).toNat ∧
      s.env.ackIn = List.replicate r 0#1 ++ List.replicate r 1#1 ++ List.replicate r 0#1
        ++ List.replicate r 1#1 ++ [] := by decide
/-- The wrong level and the right one. -/
theorem witness_BadSampleRestartsTheLevel :
    let s := { running .recv [.aliveSample 1#1 5#16] with env.ackIn := [0#1] }
    let t := { running .recv [.aliveSample 1#1 5#16] with env.ackIn := [1#1] }
    s.rsp.busy = true ∧ s.seq.todo = .aliveSample 1#1 5#16 :: [] ∧ s.env.ackIn = 0#1 :: [] ∧
      t.env.ackIn = 1#1 :: [] := by decide
theorem witness_ProbeGivesUpOverBudget :
    let k := aliveLevelSteps 1#1 5#16 ++ exitSteps .completeRet
    let s := { running .recv (.aliveTest 0#1 5#16 :: k) with time.t10ms := 6#16 }
    s.rsp.busy = true ∧ s.seq.todo = .aliveTest 0#1 5#16 :: k ∧ dropToExit k = exitSteps .completeRet ∧
      s.hid.stab.toNat < s.par.aliveRepeat.toNat ∧ (5#16).toNat < (s.time.t10ms - s.hid.t0a).toNat := by decide
/-- At the count and one below it; and a whole delay of one increment. -/
theorem witness_TickWaitPolls :
    let s := { running .off [.tickPoll .resetPre] with time.t100 := 3#16 }
    let t := { running .off [.tickPoll .resetPre] with time.t100 := 2#16 }
    let u := { running .off [.snap, .tickPoll .aliveRepeat] with
      env.sched := [.engine, .engine, .timebase, .engine] }
    (s.rsp.busy = true ∧ s.seq.todo = .tickPoll .resetPre :: [] ∧
      (s.par.get .resetPre).toNat ≤ (s.time.t100 - s.hid.t0).toNat) ∧
    (t.rsp.busy = true ∧ t.seq.todo = .tickPoll .resetPre :: [] ∧
      ¬ (t.par.get .resetPre).toNat ≤ (t.time.t100 - t.hid.t0).toNat) ∧
    (u.rsp.busy = true ∧ u.seq.todo = .snap :: .tickPoll .aliveRepeat :: [] ∧ (u.par.get .aliveRepeat).toNat = 1 ∧
      u.env.sched = .engine :: .engine :: (List.replicate 1 [Turn.timebase, Turn.engine]).flatten ++ []) := by decide
theorem witness_ResetDeviceCompletes :
    (idle.lines.ls = .off ∧ (0x00#8 = 0x00#8 ∨ 0x00#8 = 0x01#8) ∧ (0x01#8 = 0x00#8 ∨ 0x01#8 = 0x01#8)) ∧
    ((running .send []).lines.ls ≠ .off ∧ 1 < (0x02#8 : Byte).toNat) := by decide

/-- A Device that acknowledges `n` bytes, gives these bytes, and a Host with these answers. -/
def answering (n : Nat) (bytes : List Byte) (pulls : List (Byte × Byte)) (pushes : List Byte) (s : State) : State :=
  { s with env.ackIn := ackEcho n, env.dataIn := samples (bytes.map samplesOf), env.pullIn := pulls,
           env.pushIn := pushes }

theorem witness_WireWriteMovesTheBlock :
    let s := answering 10 [0x13#8] [(0x12#8, 0#8)] [] (running .off [.exit])
    s.rsp.busy = true ∧ s.lat.hst = 0x00#8 ∧ [0x12#8].length = (1#16).toNat ∧
      s.env.ackIn = ackEcho ((1#16).toNat + 9) ++ [] ∧ s.env.dataIn = samples [samplesOf 0x13#8] ++ [] ∧
      s.env.pullIn = [0x12#8].map (fun b => (b, 0x00#8)) ++ [] := by decide
theorem witness_WireReadMovesTheBlock :
    let s := answering 9 [0x12#8, 0x13#8] [] [0#8] (running .off [.exit])
    s.rsp.busy = true ∧ s.lat.hst = 0x00#8 ∧ [samplesOf 0x12#8].length = (1#16).toNat ∧
      s.env.ackIn = ackEcho ((1#16).toNat + 8) ++ [] ∧
      s.env.dataIn = samples ([samplesOf 0x12#8] ++ [samplesOf 0x13#8]) ++ [] ∧
      s.env.pushIn = List.replicate (1#16).toNat 0x00#8 ++ [] := by decide
/-- The last byte of a bank. -/
theorem witness_SendBlockCompletes :
    let s := answering 10 [0x13#8] [(0x12#8, 0#8)] [] idle
    s.lines.ls = .off ∧ (0x3FFF#16).toNat < 0x4000 ∧ (0x3FFF#16).toNat + (1#16).toNat ≤ 0x4000 ∧
      [0x12#8].length = (1#16).toNat ∧ s.env.ackIn = ackEcho ((1#16).toNat + 9) ++ [] ∧
      s.env.dataIn = samples [samplesOf 0x13#8] ++ [] ∧
      s.env.pullIn = [0x12#8].map (fun b => (b, 0x00#8)) ++ [] := by decide
theorem witness_SendBlockHostFailure :
    let s := answering 10 [0x00#8] [(0x12#8, 7#8)] [] idle
    s.lines.ls = .off ∧ (0x3FFF#16).toNat < 0x4000 ∧ (0x3FFF#16).toNat + (1#16).toNat ≤ 0x4000 ∧
      ([] : List Byte).length < (1#16).toNat ∧ 7#8 ≠ 0x00#8 ∧ s.env.ackIn = ackEcho ((1#16).toNat + 9) ++ [] ∧
      s.env.dataIn = samples [samplesOf 0x00#8] ++ [] ∧
      s.env.pullIn = ([] : List Byte).map (fun b => (b, 0x00#8)) ++ (0x12#8, 7#8) :: [] := by decide
theorem witness_RecvBlockCompletes :
    let s := answering 9 [0x12#8, 0x13#8] [] [0#8] idle
    s.lines.ls = .off ∧ (0x3FFF#16).toNat < 0x4000 ∧ (0x3FFF#16).toNat + (1#16).toNat ≤ 0x4000 ∧
      [samplesOf 0x12#8].length = (1#16).toNat ∧ s.env.ackIn = ackEcho ((1#16).toNat + 8) ++ [] ∧
      s.env.dataIn = samples ([samplesOf 0x12#8] ++ [samplesOf 0x13#8]) ++ [] ∧
      s.env.pushIn = List.replicate (1#16).toNat 0x00#8 ++ [] := by decide
theorem witness_RecvBlockHostFailure :
    let s := answering 10 [0x12#8, 0x34#8, 0x48#8] [] [7#8] idle
    s.lines.ls = .off ∧ (0#16).toNat < 0x4000 ∧ (0#16).toNat + (2#16).toNat ≤ 0x4000 ∧
      ([] : List Samples).length + 1 + [samplesOf 0x34#8].length = (2#16).toNat ∧ 7#8 ≠ 0x00#8 ∧
      s.env.ackIn = ackEcho ((2#16).toNat + 8) ++ [] ∧
      s.env.dataIn = samples ([] ++ samplesOf 0x12#8 :: [samplesOf 0x34#8] ++ [samplesOf 0x48#8]) ++ [] ∧
      s.env.pushIn = List.replicate ([] : List Samples).length 0x00#8 ++ 7#8 :: [] := by decide
theorem witness_FailedByteAbortsTheCommand :
    let kg := sendBytes [0x10#8] ++ exitSteps .completeGeneric
    let kb := [.accSend 0#8, .sendLoop 1#16] ++ exitSteps .completeBlock
    let s := { running .send (.check :: kg) with seq.retStatus := 2#8 }
    let t := { running .send (.check :: kb) with seq.retStatus := 2#8, lat.hst := 7#8 }
    (s.rsp.busy = true ∧ s.seq.todo = .check :: kg ∧ s.seq.retStatus ≠ 0x00#8 ∧
      dropToExit kg = exitSteps .completeGeneric) ∧
    (t.rsp.busy = true ∧ t.seq.todo = .check :: kb ∧ t.seq.retStatus ≠ 0x00#8 ∧
      dropToExit kb = exitSteps .completeBlock) := by decide
/-- A wait over its budget in a byte that GENERIC sends, and in the checksum byte of a block. -/
theorem witness_FailedByteAbortsTheCommand_poll :
    let kg := sendBytes [0x10#8] ++ exitSteps .completeGeneric
    let kb := exitSteps .completeBlock
    let s := overdue .send (txPhase false .p3 ++ [.byteEnd false, .check] ++ kg)
    let t := overdue .recv (rxPhase .p3 ++ [.byteEnd true, .latchDevchk, .check] ++ kb)
    (s.rsp.busy = true ∧ s.seq.todo = .ackPoll :: s.seq.todo.tail ∧ s.env.ackIn = 0#1 :: [] ∧
      0#1 ≠ phaseLevel s.hid.phase ∧ s.par.waitAck.toNat < (s.time.t100 - s.hid.t0).toNat ∧
      dropToByteEnd s.seq.todo.tail = .byteEnd false :: [] ++ .check :: kg ∧
      dropToExit kg = exitSteps .completeGeneric) ∧
    (t.rsp.busy = true ∧ t.seq.todo = .ackPoll :: t.seq.todo.tail ∧ t.env.ackIn = 0#1 :: [] ∧
      0#1 ≠ phaseLevel t.hid.phase ∧ t.par.waitAck.toNat < (t.time.t100 - t.hid.t0).toNat ∧
      dropToByteEnd t.seq.todo.tail = .byteEnd true :: [.latchDevchk] ++ .check :: kb ∧
      dropToExit kb = exitSteps .completeBlock) := by decide
/-- A wait over its budget in a byte that GENERIC receives, no checksum byte, after one byte of output. -/
theorem witness_FailedByteAbortsTheCommand_received :
    let kg := [.genStore, .genLoop 0#8] ++ exitSteps .completeGeneric
    let s := { overdue .recv (rxPhase .p3 ++ [.byteEnd true, .check] ++ kg) with seq.out := [5#8] }
    s.rsp.busy = true ∧ s.seq.todo = .ackPoll :: s.seq.todo.tail ∧ s.env.ackIn = 0#1 :: [] ∧
      0#1 ≠ phaseLevel s.hid.phase ∧ s.par.waitAck.toNat < (s.time.t100 - s.hid.t0).toNat ∧
      dropToByteEnd s.seq.todo.tail = .byteEnd true :: [] ++ .check :: kg ∧
      dropToExit kg = exitSteps .completeGeneric := by decide
theorem witness_SilentHostHoldsTheEngine :
    let s := running .send [.pull, .exit]
    let t := running .recv [.push 5#8, .exit]
    (s.rsp.busy = true ∧ s.seq.todo = .pull :: [.exit] ∧ s.env.pullIn = []) ∧
    (t.rsp.busy = true ∧ t.seq.todo = .push 5#8 :: [.exit] ∧ t.env.pushIn = []) := by decide
theorem witness_GenericWithoutReply :
    let s := answering 1 [] [] [] idle
    s.lines.ls = .off ∧ (([] : List Byte) = [] ∨ ([] : List Byte).length ≤ Config.genInMax) ∧
      s.env.ackIn = ackEcho (([] : List Byte).length + 1) ++ [] := ⟨by decide, .inl rfl, by decide⟩
/-- A count that is neither 0 nor the sentinel exists whatever the sentinel is: 1 or 2. -/
theorem witness_GenericWithFixedReply : ∃ (outSize : Byte) (reply : List Samples),
    let s := answering (1 + outSize.toNat) (List.replicate outSize.toNat 0#8) [] [] idle
    s.lines.ls = .off ∧ (([] : List Byte) = [] ∨ ([] : List Byte).length ≤ Config.genInMax) ∧
      outSize ≠ 0x00#8 ∧ outSize ≠ Config.vararg ∧ reply.length = outSize.toNat ∧
      s.env.ackIn = ackEcho (([] : List Byte).length + 1 + outSize.toNat) ++ [] ∧
      s.env.dataIn = samples reply ++ [] := by
  by_cases h : 1#8 = Config.vararg
  · exact ⟨2#8, [samplesOf 0#8, samplesOf 0#8], by decide, .inl rfl, by decide, by rw [← h]; decide, by decide,
      by decide, by decide⟩
  · exact ⟨1#8, [samplesOf 0#8], by decide, .inl rfl, by decide, h, by decide, by decide, by decide⟩
/-- The smallest size byte and a larger one. -/
theorem witness_GenericWithSizedReply :
    let s := answering 2 [0#8] [] [] idle
    let t := answering 3 [1#8, 5#8] [] [] idle
    (s.lines.ls = .off ∧ ([] : List Samples).length = (received (samplesOf 0#8)).toNat ∧
      s.env.ackIn = ackEcho (([] : List Byte).length + 2 + (received (samplesOf 0#8)).toNat) ++ [] ∧
      s.env.dataIn = samples (samplesOf 0#8 :: []) ++ []) ∧
    (t.lines.ls = .off ∧ [samplesOf 5#8].length = (received (samplesOf 1#8)).toNat ∧
      t.env.ackIn = ackEcho (([] : List Byte).length + 2 + (received (samplesOf 1#8)).toNat) ++ [] ∧
      t.env.dataIn = samples (samplesOf 1#8 :: [samplesOf 5#8]) ++ []) := by decide
/-- Both ends of the index range, and the first reserved index. -/
theorem witness_ParamWrCompletes : (0#8 : Byte).toNat ≤ 5 ∧ (5#8 : Byte).toNat ≤ 5 ∧ 5 < (6#8 : Byte).toNat := by decide
theorem witness_ParamRdCompletes : (0#8 : Byte).toNat ≤ 5 ∧ (5#8 : Byte).toNat ≤ 5 ∧ 5 < (6#8 : Byte).toNat := by decide
/-- Both ends of the index range, a state where another register was written after, one before a block reset, and the
parameter invariant in the step that stores. -/
theorem witness_ParameterReadAfterWrite :
    let s := { running .off [.paramWr .resetHold 9#16, .completeOk] with seq.packet := [0x50#8, 0x05#8, 0x09#8, 0x00#8] }
    let r := { idle with env.sched := [.blockReset] }
    paramOfIndex 0x05#8 = some .resetHold ∧ paramOfIndex 0x00#8 = some .waitAck ∧
      { idle with par := (Params.reset.set .resetHold 9#16).set .waitAck 7#16 }.par.get .resetHold =
        (Params.reset.set .resetHold 9#16).get .resetHold ∧
      r.env.sched = .blockReset :: [] ∧
      ParamInv s ∧ fieldOf (fun t => t.par.resetHold) (step s) = some 9#16 := by
  refine ⟨rfl, rfl, rfl, rfl, ⟨rfl, ?_⟩, by decide⟩
  intro q v h
  simp only [running, List.mem_cons, List.not_mem_nil, or_false, reduceCtorEq, Micro.paramWr.injEq] at h
  obtain ⟨rfl, rfl⟩ := h
  exact ⟨0x05#8, rfl, rfl⟩
/-- Each of the three required line states missed; and operands just outside their bounds. -/
theorem witness_WrongLineStateOrOperandsAreRefused :
    (requiredLine (.sendByte 0#8) = some .send ∧ idle.lines.ls ≠ .send ∧
      requiredLine .recvByte = some .recv ∧ idle.lines.ls ≠ .recv ∧
      requiredLine (.isAlive 0#16) = some .off ∧ (running .send []).lines.ls ≠ .off) ∧
    Config.genInMax < (List.replicate 17 0#8).length ∧
    ¬ ((0x3FFF#16).toNat < 0x4000 ∧ (2#16).toNat ≤ 0x4000 ∧ (0x3FFF#16).toNat + (2#16).toNat ≤ 0x4000) := by
  have h : Config.genInMax ≤ 16 := Nat.min_le_right _ _
  exact ⟨by decide, by simpa using Nat.lt_succ_of_le h, by decide⟩
theorem witness_UndecodablePacketIsRefused :
    let s := offered .off [0x99#8]
    s.rsp.busy = false ∧ s.env.sched = .engine :: [] ∧ s.env.packets = [0x99#8] :: [] ∧
      decodePacket [0x99#8] = .error (.unknownOpcode 0x99#8) := by decide
/-- A command taken, a byte issued, a GENERIC whose start clears the latches, and one that is to be refused. -/
theorem witness_StepRunsTheInstruction :
    let s := offered .off [0x10#8]
    let g := { offered .off [0x40#8, 0x10#8, 0x00#8, 0x00#8] with lat.chk := 9#8 }
    let r := { offered .recv [0x40#8, 0x10#8, 0x00#8, 0x00#8] with lat.chk := 9#8 }
    let t := running .send [.wire (.wireByteNormal 0#8), .completeRet]
    (s.rsp.busy = false ∧ s.env.sched = .engine :: [] ∧ s.env.packets = [0x10#8] :: [] ∧
      decodePacket [0x10#8] = .ok .stateOff) ∧
    (t.rsp.busy = true ∧ t.env.sched = .engine :: [] ∧
      t.seq.todo = .wire (.wireByteNormal 0#8) :: [.completeRet]) ∧
    (g.rsp.busy = false ∧ g.env.sched = .engine :: [] ∧ fieldOf (fun u => decide (u.seq.todo ≠ [.refuse])) (step g) = some true) ∧
    (r.rsp.busy = false ∧ r.env.sched = .engine :: [] ∧ fieldOf (fun u => (u.seq.todo, u.lat.chk)) (step r)
      = some ([.refuse], 9#8)) := by decide
/-- A step of the Engine, and one of the Host, which alone adds a packet. -/
theorem witness_PacketsWaitWhileBusy :
    let s := { running .send [.snap] with env.packets := [[0x10#8]] }
    s.rsp.busy = true ∧ fieldOf (fun t => t.env.packets) (step s) = some [[0x10#8]] ∧
      fieldOf (fun t => t.env.packets) (step { s with env.sched := [.host (.offer [0x11#8])] })
        = some [[0x10#8], [0x11#8]] := by decide
theorem witness_ResponseIsStableUntilDone :
    fieldOf (fun t => (decide (t.env.event ≠ .blockReset), t.rsp.done)) (step (running .send [.snap]))
      = some (true, false) := by decide
theorem witness_LinesFollowTheTrace :
    fieldOf (fun t => t.env.event) (step (running .send [.phaseClk .p1])) = some (.clk 0#1) := by decide
theorem witness_OnlyTheTimebaseCounts :
    fieldOf (fun t => (t.env.event, t.time.t100)) (step { idle with env.sched := [.timebase] })
      = some (.tick, 1#16) := by decide
/-- A tick in a wait; then, with a poll owed, the Timebase's turn is a poll of the Engine. -/
theorem witness_EnginePollsBetweenTicks :
    let s := { overdue .send [] with env.sched := [.timebase] }
    let t := { s with env.polled := false }
    fieldOf (fun u => (u.env.event, u.env.polled)) (step s) = some (.tick, false) ∧
    (t.rsp.busy = true ∧ waiting t = true ∧ t.env.polled = false ∧
      fieldOf (fun u => (u.env.event, u.time.t100)) (step t) = some (.sampleAck 0#1, 3#16)) := by decide
theorem witness_AbsoluteTimeIsInvisible :
    fieldOf (fun t => t.hid.t0) (engineStep (running .send [.snap])) = some 0#16 ∧
      engineStep (running .send []) = .fault .sequencerEmpty := ⟨by decide, rfl⟩
theorem witness_BlockResetFromAnyState :
    { running .send [.snap] with env.sched := [Turn.blockReset] }.env.sched = .blockReset :: [] := by decide
/-- A running SEND_BYTE and an idle engine meet the sequencer's invariant, and both have a next state. -/
theorem witness_SequencerInvariantKept :
    SeqInv (running .send (txByte false ++ [.completeRet])) ∧ SeqInv idle := ⟨rfl, ⟨rfl, rfl⟩⟩
theorem witness_ScratchStaysInOneBank :
    ScratchInv idle ∧ fieldOf (fun t => t.blk.offset)
      (step (offered .off [0x41#8, 0x00#8, 0x00#8, 0xFF#8, 0x3F#8, 0x01#8, 0x00#8, 0x00#8, 0x00#8]))
      = some 0x3FFF#16 := ⟨rfl, by decide⟩
/-- A block command on its way, one at its very end, and one to be refused. -/
theorem witness_CompoundCommandsEndInOff :
    let s := { running .send (.check :: exitSteps .completeBlock) with seq.packet := [0x42#8] }
    let e := { running .off [.completeBlock] with seq.packet := [0x42#8] }
    let r := { running .send [.refuse] with seq.packet := [0x42#8] }
    EndsOffInv s ∧ EndsOffInv e ∧ EndsOffInv r ∧ compound e = true ∧
      fieldOf (fun t => (t.rsp.busy, t.rsp.ill)) (step e) = some (false, false) :=
  ⟨⟨rfl, fun _ _ => .inl rfl⟩, ⟨rfl, fun _ _ => .inl rfl⟩, ⟨rfl, fun _ _ => .inr rfl⟩, by decide, by decide⟩
/-- RESET_DEVICE about to drive RESET, and the step in which it does. -/
theorem witness_OnlyResetDeviceDrivesResetAndAck :
    let s := { running .off (resetBody 0x00#8) with seq.packet := [0x31#8, 0x00#8] }
    ResetInv s ∧ fieldOf (fun t => t.lines.ports.rstOe) (step s) = some true :=
  ⟨⟨rfl, fun _ => .inl rfl⟩, by decide⟩
theorem witness_TransferBlocksStayInOneBank : 1 ≤ 0x1000 := by decide

end Sys2Proof.Tests
end

