-- ==== Sys2Proof/Proofs/LineTrace.lean ====
section
/-! PROOF. The output latches and enables change by the one event of a step (R6 a, R24, R25). -/

namespace Sys2Proof.Machine

open Sys2Proof.Safety

/-- A statement that starts with no event shown either shows the one write it makes to the lines, or shows an event that
says nothing of the lines (or none) and writes none. -/
theorem runMicro_lines (m : Micro) (s : State) (hq : s.env.event = .quiet) :
    (runMicro m s).lines = applyEvent (runMicro m s).env.event s.lines := by
  cases m with
  | line l => rfl
  | latchData v => rfl
  | latchClk v => rfl
  | latchAck v => rfl
  | resetDrive on => rfl
  | knock on => rfl
  | txData boot k => rfl
  | phaseClk k => rfl
  | aliveClk level => rfl
  | exit => rfl
  | ackPoll =>
    obtain ⟨a, r, d, -, h⟩ := ackPoll_spec s
    simp [runMicro, h, applyEvent]
  | rxSample =>
    obtain ⟨v, r, d, h, -⟩ := sampleData_spec s
    simp [runMicro, h, applyEvent]
  | aliveSample level timeout =>
    obtain ⟨a, r, d, h⟩ := aliveSample_spec level timeout s
    simp [runMicro, h, applyEvent]
  | pull => rcases hostPull_spec s with ⟨-, h⟩ | ⟨b, e, r, -, h⟩ <;> simp [runMicro, h, hq, applyEvent]
  | push b => rcases hostPush_spec b s with ⟨-, h⟩ | ⟨e, r, -, h⟩ <;> simp [runMicro, h, hq, applyEvent]
  | byteEnd rx =>
    obtain ⟨v, d, h, -⟩ := byteEnd_spec rx s
    simp [runMicro, h, hq, applyEvent]
  | tickPoll p => simp only [runMicro]; split <;> simp [hq, applyEvent]
  | aliveTest level timeout =>
    rcases aliveTest_spec level timeout s with ⟨h, -⟩ | ⟨h, -⟩ | h <;> simp [runMicro, h, hq, applyEvent]
  | check => simp [runMicro, checkStatus_spec, hq, applyEvent]
  | sendLoop n => simp [runMicro, sendLoop_spec, hq, applyEvent]
  | accSend b => simp [runMicro, accSend_spec, hq, applyEvent]
  | recvLoop n => simp [runMicro, recvLoop_spec, hq, applyEvent]
  | accRecv => simp [runMicro, accRecv_spec, hq, applyEvent]
  | genLoop n => simp [runMicro, genLoop_spec, hq, applyEvent]
  | _ => simp [runMicro, hq, applyEvent]

/-- Taking an instruction is silent: it writes no line and shows no event. -/
theorem exec_lines {i : Instr} {s t : State} (h : exec i s = .next t) (hq : s.env.event = .quiet) :
    t.lines = applyEvent t.env.event s.lines := by
  obtain ⟨-, -, -, -, hlines, henv, -, -⟩ := exec_frame h
  rw [hlines, henv, hq, applyEvent]

/-- An Engine step begins with no event shown, and then takes an instruction or runs one statement. -/
theorem engineStep_lines {s t : State} (h : engineStep s = .next t) :
    t.lines = applyEvent t.env.event s.lines := by
  cases hb : s.rsp.busy with
  | false =>
    rcases engineStep_idle_cases hb h with ⟨-, rfl⟩ | ⟨p, rest, -, ⟨i, -, hx⟩ | ⟨e, -, rfl⟩⟩
    · rfl
    · exact (exec_lines hx rfl :)
    · rfl
  | true =>
    rcases engineStep_busy_cases hb h with ⟨i, k, -, hx⟩ | ⟨m, k, -, -, rfl⟩
    · exact (exec_lines hx rfl :)
    · exact runMicro_lines m _ rfl

/-- Settles O48, agent by agent: the Engine's statements write the lines, a block reset sets them, and the other agents
leave them alone. -/
theorem linesFollowTheTrace : Obligations.LinesFollowTheTrace := by
  intro s t h
  obtain ⟨u, sched, draws, rfl, hcase⟩ := step_cases h
  rcases hcase with hengine | ⟨-, rfl⟩ | ⟨m, rfl⟩ | ⟨m, rfl⟩ | rfl
  · exact (engineStep_lines hengine :)
  · rfl
  · rw [hostStep_lines, hostStep_event, applyEvent]
  · rw [deviceStep_lines, deviceStep_event, applyEvent]
  · rfl

end Sys2Proof.Machine
end

