-- ==== Sys2Proof/Proofs/TakingCommands.lean ====
section
/-! PROOF. Taking a command (R22, R70 to R76): the opcode of a decoded packet, the pseudocode a command is taken with or
its refusal, and what that leaves in the latches (R29). -/

namespace Sys2Proof.Machine

open Sys2Proof.Safety

/-! ## The opcode of a decoded packet (R73) -/

/-- The first byte of a command's packet; a frame or a byte on the wires has none. -/
def commandOpcode (i : Instr) : Option Byte :=
  match encode i with
  | .packet p => p.head?
  | .frame _ => none
  | .phases _ => none

section Formats
variable {op : Byte} {rest : List Byte} {j : Instr}

theorem formatF0_opcode {i : Instr} (hi : commandOpcode i = some op) (h : formatF0 op i rest = .ok j) :
    commandOpcode j = some op := by
  unfold formatF0 at h
  split at h <;> cases h
  exact hi

theorem formatF1_opcode {f : Byte → Instr} (hf : ∀ b, commandOpcode (f b) = some op)
    (h : formatF1 op f rest = .ok j) : commandOpcode j = some op := by
  unfold formatF1 at h
  split at h <;> cases h
  exact hf _

theorem formatF2_opcode {f : Word → Instr} (hf : ∀ w, commandOpcode (f w) = some op)
    (h : formatF2 op f rest = .ok j) : commandOpcode j = some op := by
  unfold formatF2 at h
  split at h <;> cases h
  exact hf _

theorem formatFP_opcode {f : Byte → Word → Instr} (hf : ∀ b w, commandOpcode (f b w) = some op)
    (h : formatFP op f rest = .ok j) : commandOpcode j = some op := by
  unfold formatFP at h
  split at h <;> cases h
  exact hf _ _

theorem formatFB_opcode {f : Byte → Byte → Word → Word → Word → Instr}
    (hf : ∀ m b o l c, commandOpcode (f m b o l c) = some op) (h : formatFB op f rest = .ok j) :
    commandOpcode j = some op := by
  unfold formatFB at h
  split at h <;> cases h
  exact hf _ _ _ _ _

theorem formatFG_opcode {f : Byte → Byte → List Byte → Instr} (hf : ∀ c o l, commandOpcode (f c o l) = some op)
    (h : formatFG op f rest = .ok j) : commandOpcode j = some op := by
  unfold formatFG at h
  split at h
  · split at h <;> cases h
    exact hf _ _ _
  · cases h

end Formats

/-- One test of the decoder's chain of opcodes. -/
theorem ite_ok_imp {c P : Prop} [Decidable c] {x y : Except DecodeError Instr} {i : Instr}
    (hx : c → x = .ok i → P) (hy : y = .ok i → P) : (if c then x else y) = .ok i → P := by
  by_cases hc : c
  · rw [if_pos hc]; exact hx hc
  · rw [if_neg hc]; exact hy

/-- A packet decodes to a command, never to a frame or a byte, and starts with that command's opcode. -/
theorem decodePacket_opcode {p : List Byte} {i : Instr} (h : decodePacket p = .ok i) :
    ∃ op, commandOpcode i = some op ∧ p.head? = some op := by
  cases p with
  | nil => cases h
  | cons op rest =>
    refine ⟨op, ?_, rfl⟩
    simp only [decodePacket] at h
    revert h
    refine ite_ok_imp (fun ho => ho ▸ formatF0_opcode rfl) ?_
    refine ite_ok_imp (fun ho => ho ▸ formatF0_opcode rfl) ?_
    refine ite_ok_imp (fun ho => ho ▸ formatF0_opcode rfl) ?_
    refine ite_ok_imp (fun ho => ho ▸ formatF1_opcode (fun _ => rfl)) ?_
    refine ite_ok_imp (fun ho => ho ▸ formatF0_opcode rfl) ?_
    refine ite_ok_imp (fun ho => ho ▸ formatF1_opcode (fun _ => rfl)) ?_
    refine ite_ok_imp (fun ho => ho ▸ formatF2_opcode (fun _ => rfl)) ?_
    refine ite_ok_imp (fun ho => ho ▸ formatF1_opcode (fun _ => rfl)) ?_
    refine ite_ok_imp (fun ho => ho ▸ formatFG_opcode (fun _ _ _ => rfl)) ?_
    refine ite_ok_imp (fun ho => ho ▸ formatFB_opcode (fun _ _ _ _ _ => rfl)) ?_
    refine ite_ok_imp (fun ho => ho ▸ formatFB_opcode (fun _ _ _ _ _ => rfl)) ?_
    refine ite_ok_imp (fun ho => ho ▸ formatFP_opcode (fun _ _ => rfl)) ?_
    refine ite_ok_imp (fun ho => ho ▸ formatF1_opcode (fun _ => rfl)) ?_
    exact nofun

/-! ## The pseudocode a command is taken with -/

/-- The pseudocode of a command (R101 to R151) as `SEQ` holds it right after the command is taken; a
parameter index that is reserved leaves the refusal alone. -/
def commandBody : Instr → List Micro
  | .stateOff => .line .off :: idleLatches ++ [.completeOk]
  | .stateSend => [.line .send, .completeOk]
  | .stateRecv => [.line .recv, .completeOk]
  | .sendByte b => [.wire (.wireByteNormal b), .completeRet]
  | .recvByte => [recvOne, .completeRecv]
  | .sendByteBoot b => [.wire (.wireByteBoot b), .completeRet]
  | .isAlive timeout => aliveBody timeout
  | .resetDevice mode => resetBody mode
  | .generic cmd outSize ins => genericBody cmd outSize ins
  | .recvBlock mode bank offset length _ => .wire (.wireRead mode bank offset length) :: exitSteps .completeBlock
  | .sendBlock mode bank offset length _ => .wire (.wireWrite mode bank offset length) :: exitSteps .completeBlock
  | .paramWr idx val => (paramOfIndex idx).elim [.refuse] fun p => [.paramWr p val, .completeOk]
  | .paramRd idx => (paramOfIndex idx).elim [.refuse] fun p => [.completeWord p]
  | .wireRead _ _ _ _ | .wireWrite _ _ _ _ | .wireByteNormal _ | .wireByteBoot _ => []

/-- The state `t` after the command `i` is taken in `s`: to be refused, or with its pseudocode ahead, in the line state
it requires (R104). -/
def TakenFrom (i : Instr) (s t : State) : Prop :=
  t.lines = s.lines ∧ t.rsp.busy = true ∧
    (t.seq.todo = [.refuse] ∨ t.seq.todo = commandBody i ∧ ∀ l, requiredLine i = some l → s.lines.ls = l)

theorem takenFrom_reject (i : Instr) (s : State) : TakenFrom i s (reject s) := ⟨rfl, rfl, .inl rfl⟩

theorem takenFrom_accept {i : Instr} {s u : State} (hu : u.lines = s.lines)
    (hl : ∀ l, requiredLine i = some l → s.lines.ls = l) : TakenFrom i s (accept (commandBody i) u) :=
  ⟨hu, rfl, .inr ⟨rfl, hl⟩⟩

/-- `exec` of a command always answers a next state, the one after taking it. -/
theorem exec_command {i : Instr} {op : Byte} (hi : commandOpcode i = some op) (s : State) :
    ∃ t, exec i s = .next t ∧ TakenFrom i s t := by
  cases i with
  | stateOff => exact ⟨_, rfl, takenFrom_accept (i := .stateOff) rfl nofun⟩
  | stateSend => exact ⟨_, rfl, takenFrom_accept (i := .stateSend) rfl nofun⟩
  | stateRecv => exact ⟨_, rfl, takenFrom_accept (i := .stateRecv) rfl nofun⟩
  | sendByte b =>
    simp only [exec, execSendByte]
    split
    · exact ⟨_, rfl, takenFrom_accept (i := .sendByte b) rfl (by simpa [requiredLine])⟩
    · exact ⟨_, rfl, takenFrom_reject _ s⟩
  | recvByte =>
    simp only [exec, execRecvByte]
    split
    · exact ⟨_, rfl, takenFrom_accept (i := .recvByte) rfl (by simpa [requiredLine])⟩
    · exact ⟨_, rfl, takenFrom_reject _ s⟩
  | sendByteBoot b =>
    simp only [exec, execSendByteBoot]
    split
    · exact ⟨_, rfl, takenFrom_accept (i := .sendByteBoot b) rfl (by simpa [requiredLine])⟩
    · exact ⟨_, rfl, takenFrom_reject _ s⟩
  | isAlive timeout =>
    simp only [exec, execIsAlive]
    split
    · exact ⟨_, rfl, takenFrom_accept (i := .isAlive timeout) rfl (by simpa [requiredLine])⟩
    · exact ⟨_, rfl, takenFrom_reject _ s⟩
  | resetDevice mode =>
    simp only [exec, execResetDevice]
    split
    · next h => exact ⟨_, rfl, takenFrom_accept (i := .resetDevice mode) rfl (by simp [requiredLine, h.1])⟩
    · exact ⟨_, rfl, takenFrom_reject _ s⟩
  | generic cmd outSize ins =>
    simp only [exec, execGeneric]
    split
    · next h =>
      exact ⟨_, rfl, takenFrom_accept (i := .generic cmd outSize ins) rfl (by simp_all [requiredLine, genericReady])⟩
    · exact ⟨_, rfl, takenFrom_reject _ s⟩
  | recvBlock mode bank offset length crc =>
    simp only [exec, execRecvBlock]
    split
    · exact ⟨_, rfl, takenFrom_accept (i := .recvBlock mode bank offset length crc) rfl
        (by simp_all [requiredLine, blockReady])⟩
    · exact ⟨_, rfl, takenFrom_reject _ s⟩
  | sendBlock mode bank offset length crc =>
    simp only [exec, execSendBlock]
    split
    · exact ⟨_, rfl, takenFrom_accept (i := .sendBlock mode bank offset length crc) rfl
        (by simp_all [requiredLine, blockReady])⟩
    · exact ⟨_, rfl, takenFrom_reject _ s⟩
  | paramWr idx val =>
    simp only [exec, execParamWr]
    split
    · next p hp => exact ⟨_, rfl, rfl, rfl, .inr ⟨by simp [commandBody, hp], nofun⟩⟩
    · exact ⟨_, rfl, takenFrom_reject _ s⟩
  | paramRd idx =>
    simp only [exec, execParamRd]
    split
    · next p hp => exact ⟨_, rfl, rfl, rfl, .inr ⟨by simp [commandBody, hp], nofun⟩⟩
    · exact ⟨_, rfl, takenFrom_reject _ s⟩
  | wireRead _ _ _ _ | wireWrite _ _ _ _ | wireByteNormal _ | wireByteBoot _ => cases hi

/-- The same when the next state is given. -/
theorem takenFrom_of_exec {i : Instr} {op : Byte} {s t : State} (hi : commandOpcode i = some op)
    (h : exec i s = .next t) : TakenFrom i s t := by
  obtain ⟨u, hu, htaken⟩ := exec_command hi s
  cases hu.symm.trans h
  exact htaken

/-! ## What an instruction leaves of `BUSY` and of the latches -/

/-- The frame or byte `i` puts statements in front of what is left of the command, in its line state (R112 to R114,
R133). -/
def wireBody (l : LineState) : Instr → List Micro
  | .wireRead mode bank offset length => readFrame mode bank offset length
  | .wireWrite mode bank offset length => writeFrame mode bank offset length
  | .wireByteNormal _ => if l = .send then txByte false else rxByte
  | .wireByteBoot _ => txByte true
  | _ => []

/-- What a frame or byte leaves: it starts in its line state, and its statements stand before what is left. -/
theorem exec_wire {i : Instr} {s : State} {k : List Micro} (hr : wireReady s.lines k i = true) :
    ∃ t, exec i s = .next t ∧ t.lines = s.lines ∧ t.rsp = s.rsp ∧
      t.seq.todo = wireBody s.lines.ls i ++ s.seq.todo := by
  cases i with
  | wireRead mode bank offset length => exact ⟨_, rfl, rfl, rfl, rfl⟩
  | wireWrite mode bank offset length => exact ⟨_, rfl, rfl, rfl, rfl⟩
  | wireByteNormal b =>
    cases hl : s.lines.ls with
    | off => simp [wireReady, hl] at hr
    | send => exact ⟨startByte b (txByte false) s, by simp only [exec, execWireByteNormal, hl], rfl, rfl, rfl⟩
    | recv => exact ⟨startByte 0#8 rxByte s, by simp only [exec, execWireByteNormal, hl], rfl, rfl, rfl⟩
  | wireByteBoot b =>
    have hl : s.lines.ls = .send := by simpa [wireReady] using hr
    exact ⟨startByte b (txByte true) s, by simp only [exec, execWireByteBoot, hl], rfl, rfl, rfl⟩
  | _ => simp [wireReady] at hr

/-- No instruction ends a command in the step that takes or issues it (R11, R22). -/
theorem exec_keeps_busy {i : Instr} {s t : State} (h : exec i s = .next t) (hb : s.rsp.busy = true) :
    t.rsp.busy = true := by
  cases hi : commandOpcode i with
  | some op =>
    obtain ⟨-, hbusy, -⟩ := takenFrom_of_exec hi h
    exact hbusy
  | none =>
    cases i with
    | wireRead _ _ _ _ | wireWrite _ _ _ _ => cases h; exact hb
    | wireByteNormal b => simp only [exec, execWireByteNormal] at h; split at h <;> cases h <;> exact hb
    | wireByteBoot b => simp only [exec, execWireByteBoot] at h; split at h <;> cases h; exact hb
    | _ => cases hi

end Sys2Proof.Machine
end

