-- ==== Sys2Proof/Proofs/SequencerInvariant.lean ====
section
/-! PROOF. What a statement does to `SEQ`, said once, and the sequencer invariant from it (R22, R25, R33, R104,
R176). -/

namespace Sys2Proof.Machine

open Sys2Proof.Safety

/-! ## What a statement leaves of `SEQ` -/

/-- The statements `l` that a statement may put before what follows it: a wait that goes on, or a turn of a loop. -/
inductive Pushes : Micro → List Micro → Prop
  | ackPoll : Pushes .ackPoll [.ackPoll]
  | tickPoll (p : Param) : Pushes (.tickPoll p) [.tickPoll p]
  | aliveTest (level : Bit) (timeout : Word) : Pushes (.aliveTest level timeout) [.aliveSample level timeout]
  | aliveSample (level : Bit) (timeout : Word) :
      Pushes (.aliveSample level timeout) [.snap, .tickPoll .aliveDelay, .aliveTest level timeout]
  | sendLoopPull (n : Word) : Pushes (.sendLoop n) [.pull, .sendLoop n]
  | sendLoopFiller (n : Word) :
      Pushes (.sendLoop n) [.wire (.wireByteNormal 0x00#8), .check, .accSend 0x00#8, .sendLoop n]
  | pullWaits : Pushes .pull [.pull]
  | pulled (b : Byte) : Pushes .pull [.wire (.wireByteNormal b), .check, .accSend b]
  | sendChk (b : Byte) : Pushes .sendChk [.wire (.wireByteNormal b), .check]
  | recvLoop (n : Word) : Pushes (.recvLoop n) [recvOne, .check, .accRecv, .recvLoop n]
  | accRecv (b : Byte) : Pushes .accRecv [.push b]
  | pushWaits (b : Byte) : Pushes (.push b) [.push b]
  | genSize (m : Byte) : Pushes .genSize [.genLoop m]
  | genLoop (m n : Byte) : Pushes (.genLoop m) [recvOne, .check, .genStore, .genLoop n]

/-- What stands in `SEQ` after the statement `m`, where `k` followed it and no command ended. -/
inductive Continues (m : Micro) (k : List Micro) : List Micro → Prop
  | rest : Continues m k k
  | pushes {l : List Micro} (h : Pushes m l) : Continues m k (l ++ k)
  /-- A failed wait: to the return of its byte procedure (R112 to R114). -/
  | byteFails (h : m = .ackPoll) : Continues m k (dropToByteEnd k)
  /-- The abort path (R176). -/
  | aborts (h : m = .check ∨ ∃ level timeout, m = .aliveTest level timeout) : Continues m k (dropToExit k)

/-- The levels of DATA and CLK aside, the lines `l'` are the lines `l`. -/
def SameDrive (l l' : Lines) : Prop := ∃ d c, l' = { l with dataOut := d, clkOut := c }

theorem seqOk_of_sameDrive {l l' : Lines} {k : List Micro} (h : SameDrive l l') : seqOk l' k = seqOk l k := by
  obtain ⟨d, c, rfl⟩ := h
  exact seqOk_levels l d c k

theorem linesIdle_of_sameDrive {l l' : Lines} (h : SameDrive l l') : linesIdle l' = linesIdle l := by
  obtain ⟨d, c, rfl⟩ := h
  rfl

/-- A statement that ends no command: no response register changes, the lines are those `linesAfter` says, and `SEQ`
goes on. -/
theorem runMicro_continues (m : Micro) (s : State) (hm : completes m = false) (hw : ∀ i, m ≠ .wire i) :
    (runMicro m s).rsp = s.rsp ∧ SameDrive (linesAfter s.lines m) (runMicro m s).lines ∧
      Continues m s.seq.todo (runMicro m s).seq.todo := by
  cases m with
  | wire i => exact absurd rfl (hw i)
  | line l => exact ⟨rfl, ⟨_, _, rfl⟩, .rest⟩
  | latchData v => exact ⟨rfl, ⟨_, _, rfl⟩, .rest⟩
  | latchClk v => exact ⟨rfl, ⟨_, _, rfl⟩, .rest⟩
  | latchAck v => exact ⟨rfl, ⟨_, _, rfl⟩, .rest⟩
  | resetDrive on => exact ⟨rfl, ⟨_, _, rfl⟩, .rest⟩
  | knock on => exact ⟨rfl, ⟨_, _, rfl⟩, .rest⟩
  | txData boot p => exact ⟨rfl, ⟨_, _, rfl⟩, .rest⟩
  | phaseClk p => exact ⟨rfl, ⟨_, _, rfl⟩, .rest⟩
  | aliveClk level => exact ⟨rfl, ⟨_, _, rfl⟩, .rest⟩
  | exit => exact ⟨rfl, ⟨_, _, rfl⟩, .rest⟩
  | ackPoll =>
    obtain ⟨a, r, d, -, h⟩ := ackPoll_spec s
    rw [runMicro, h]
    refine ⟨rfl, ⟨_, _, rfl⟩, ?_⟩
    dsimp only
    split
    · exact .rest
    · split
      · exact .byteFails rfl
      · exact .pushes .ackPoll
  | rxSample =>
    obtain ⟨v, r, d, h, -⟩ := sampleData_spec s
    rw [runMicro, h]
    exact ⟨rfl, ⟨_, _, rfl⟩, .rest⟩
  | byteEnd rx =>
    obtain ⟨v, d, h, -⟩ := byteEnd_spec rx s
    rw [runMicro, h]
    exact ⟨rfl, ⟨_, _, rfl⟩, .rest⟩
  | tickPoll p =>
    simp only [runMicro]
    split
    · exact ⟨rfl, ⟨_, _, rfl⟩, .rest⟩
    · exact ⟨rfl, ⟨_, _, rfl⟩, .pushes (.tickPoll p)⟩
  | aliveTest level timeout =>
    rcases aliveTest_spec level timeout s with ⟨h, -⟩ | ⟨h, -⟩ | h <;> rw [runMicro, h]
    · exact ⟨rfl, ⟨_, _, rfl⟩, .rest⟩
    · exact ⟨rfl, ⟨_, _, rfl⟩, .aborts (.inr ⟨level, timeout, rfl⟩)⟩
    · exact ⟨rfl, ⟨_, _, rfl⟩, .pushes (.aliveTest level timeout)⟩
  | aliveSample level timeout =>
    obtain ⟨a, r, d, h⟩ := aliveSample_spec level timeout s
    rw [runMicro, h]
    exact ⟨rfl, ⟨_, _, rfl⟩, .pushes (.aliveSample level timeout)⟩
  | check =>
    rw [runMicro, checkStatus_spec]
    refine ⟨rfl, ⟨_, _, rfl⟩, ?_⟩
    dsimp only
    split
    · exact .rest
    · exact .aborts (.inl rfl)
  | sendLoop n =>
    rw [runMicro, sendLoop_spec]
    refine ⟨rfl, ⟨_, _, rfl⟩, ?_⟩
    dsimp only
    split
    · split
      · exact .pushes (.sendLoopPull n)
      · exact .pushes (.sendLoopFiller n)
    · exact .rest
  | pull =>
    rcases hostPull_spec s with ⟨-, h⟩ | ⟨b, e, r, -, h⟩ <;> rw [runMicro, h]
    · exact ⟨rfl, ⟨_, _, rfl⟩, .pushes .pullWaits⟩
    · exact ⟨rfl, ⟨_, _, rfl⟩, .pushes (.pulled _)⟩
  | accSend b =>
    rw [runMicro, accSend_spec]
    exact ⟨rfl, ⟨_, _, rfl⟩, .rest⟩
  | sendChk => exact ⟨rfl, ⟨_, _, rfl⟩, .pushes (.sendChk _)⟩
  | recvLoop n =>
    rw [runMicro, recvLoop_spec]
    refine ⟨rfl, ⟨_, _, rfl⟩, ?_⟩
    dsimp only
    split
    · exact .pushes (.recvLoop n)
    · exact .rest
  | accRecv =>
    rw [runMicro, accRecv_spec]
    refine ⟨rfl, ⟨_, _, rfl⟩, ?_⟩
    dsimp only
    split
    · exact .pushes (.accRecv _)
    · exact .rest
  | push b =>
    rcases hostPush_spec b s with ⟨-, h⟩ | ⟨e, r, -, h⟩ <;> rw [runMicro, h]
    · exact ⟨rfl, ⟨_, _, rfl⟩, .pushes (.pushWaits b)⟩
    · exact ⟨rfl, ⟨_, _, rfl⟩, .rest⟩
  | genSize => exact ⟨rfl, ⟨_, _, rfl⟩, .pushes (.genSize _)⟩
  | genLoop m =>
    rw [runMicro, genLoop_spec]
    refine ⟨rfl, ⟨_, _, rfl⟩, ?_⟩
    dsimp only
    split
    · exact .rest
    · exact .pushes (.genLoop m _)
  | snap | settle | snapAlive | startData | latchDevchk | genStore | paramWr _ _ =>
    exact ⟨rfl, ⟨_, _, rfl⟩, .rest⟩
  | refuse | completeOk | completeRet | completeRecv | completeWord _ | completeGeneric | completeBlock => cases hm

/-- A statement that ends a command (R76, R77): `done` pulses, `SEQ` is idle, and no line changes. -/
theorem runMicro_completes {m : Micro} (hm : completes m = true) (s : State) :
    (runMicro m s).rsp.busy = false ∧ (runMicro m s).rsp.done = true ∧ (runMicro m s).seq.todo = [] ∧
      (runMicro m s).lines = s.lines := by
  cases m with
  | refuse | completeOk | completeRet | completeRecv | completeWord _ | completeGeneric | completeBlock =>
    exact ⟨rfl, rfl, rfl, rfl⟩
  | _ => cases hm

/-- An Engine step of a running command issues a frame or byte, ends the command, or goes on with it. -/
theorem engineStep_busy_outcome {s t : State} (hb : s.rsp.busy = true) (h : engineStep s = .next t) :
    (∃ i k, s.seq.todo = .wire i :: k ∧ exec i (beginEngine true { s with seq.todo := k }) = .next t) ∨
    (∃ m k, s.seq.todo = m :: k ∧ completes m = true ∧ t.rsp.busy = false ∧ t.rsp.done = true ∧ t.seq.todo = [] ∧
      t.lines = s.lines) ∨
    ∃ m k, s.seq.todo = m :: k ∧ completes m = false ∧ t.rsp = { s.rsp with done := false } ∧
      SameDrive (linesAfter s.lines m) t.lines ∧ Continues m k t.seq.todo := by
  rcases engineStep_busy_cases hb h with hwire | ⟨m, k, hk, hw, rfl⟩
  · exact .inl hwire
  · cases hm : completes m with
    | true => exact .inr (.inl ⟨m, k, hk, hm, runMicro_completes hm _⟩)
    | false => exact .inr (.inr ⟨m, k, hk, hm, runMicro_continues m _ hm hw⟩)

/-! ## The form of `SEQ` after a statement -/

/-- Only statements that leave the lines alone push others. -/
theorem linesAfter_of_pushes {m : Micro} {l : List Micro} (h : Pushes m l) (x : Lines) : linesAfter x m = x := by
  cases h <;> rfl

/-- What a statement pushes finds the line state and the way out that the statement itself found. -/
theorem seqOk_pushes {x : Lines} {m : Micro} {l k : List Micro} (h : Pushes m l) (hr : ready x k m = true)
    (hk : seqOk x k = true) : seqOk x (l ++ k) = true := by
  cases h <;>
    simp_all [seqOk, ready, wireReady, recvOne, completes, completesOff, linesAfter, linesAfterWire, mayAbort, hasExit,
      dropToExit]

theorem seqOk_continues {x : Lines} {m : Micro} {k k' : List Micro} (h : Continues m k k')
    (hm : completes m = false) (hs : seqOk x (m :: k) = true) : seqOk (linesAfter x m) k' = true := by
  simp only [seqOk, hm, Bool.false_or, Bool.and_eq_true] at hs
  obtain ⟨hready, hk⟩ := hs
  cases h with
  | rest => exact hk
  | pushes hp =>
    rw [linesAfter_of_pushes hp] at hk ⊢
    exact seqOk_pushes hp hready hk
  | byteFails hp =>
    subst hp
    exact seqOk_dropToByteEnd hready hk
  | aborts hp =>
    rcases hp with rfl | ⟨level, timeout, rfl⟩
    · exact seqOk_dropToExit hready
    · exact seqOk_dropToExit hready

/-- Where a command ends, RESET and ACK are released. -/
theorem linesIdle_of_completes {x : Lines} {m : Micro} {k : List Micro} (hm : completes m = true)
    (hr : ready x k m = true) : linesIdle x = true := by
  cases m with
  | refuse | completeOk | completeRet | completeRecv | completeWord _ | completeGeneric | completeBlock =>
    simp only [ready, Bool.and_eq_true] at hr
    simp only [hr]
  | _ => cases hm

/-! ## The form of `SEQ` after a frame or byte -/

theorem seqOk_cons {x : Lines} {m : Micro} {k : List Micro} (hr : ready x k m = true)
    (hk : seqOk (linesAfter x m) k = true) : seqOk x (m :: k) = true := by
  simp only [seqOk, hr, hk, Bool.or_true, Bool.and_true]

theorem seqOk_wire (x : Lines) (i : Instr) (k : List Micro) :
    seqOk x (.wire i :: k) = (wireReady x k i && seqOk (linesAfterWire x i) k) := rfl

/-- A frame sends its header first, in state Send. -/
theorem seqOk_header {x : Lines} (bs : List Byte) {k : List Micro} (hk : seqOk { x with ls := .send } k = true)
    (ha : mayAbort x k = true) : seqOk x (.line .send :: (sendBytes bs ++ k)) = true :=
  seqOk_cons rfl (seqOk_sendBytes (l := { x with ls := .send }) bs rfl ha hk)

/-- A byte may be received in state Recv, whatever follows it. -/
theorem seqOk_recvOne {x : Lines} {k : List Micro} (hk : seqOk { x with ls := .recv } k = true) :
    seqOk { x with ls := .recv } (recvOne :: k) = true :=
  seqOk_cons rfl hk

/-- What both frames end with: the Device's checksum is read back in state Recv. -/
theorem seqOk_readChecksum {x : Lines} {k : List Micro} (ha : mayAbort x k = true)
    (hk : seqOk { x with ls := .recv } k = true) :
    seqOk { x with ls := .recv } (recvOne :: .latchDevchk :: .check :: k) = true :=
  seqOk_recvOne (seqOk_cons rfl (seqOk_cons ha hk))

theorem seqOk_readFrame {x : Lines} (mode bank : Byte) (offset length : Word) {k : List Micro}
    (ha : mayAbort x k = true) (hk : seqOk { x with ls := .recv } k = true) :
    seqOk x (readFrame mode bank offset length ++ k) = true := by
  have hdata : seqOk { x with ls := .send }
      (.line .recv :: .startData :: .recvLoop length :: recvOne :: .latchDevchk :: .check :: k) = true :=
    seqOk_cons rfl (seqOk_cons rfl (seqOk_cons ha (seqOk_readChecksum ha hk)))
  simpa [readFrame] using seqOk_header (headerBytes wireOpRead mode bank offset length) hdata ha

theorem seqOk_writeFrame {x : Lines} (mode bank : Byte) (offset length : Word) {k : List Micro}
    (ha : mayAbort x k = true) (hk : seqOk { x with ls := .recv } k = true) :
    seqOk x (writeFrame mode bank offset length ++ k) = true := by
  have hdata : seqOk { x with ls := .send } (.startData :: .sendLoop length :: .sendChk :: .line .recv ::
      recvOne :: .latchDevchk :: .check :: k) = true :=
    seqOk_cons rfl (seqOk_cons ha (seqOk_cons ha (seqOk_cons rfl (seqOk_readChecksum ha hk))))
  simpa [writeFrame] using seqOk_header (headerBytes wireOpWrite mode bank offset length) hdata ha

/-- A frame or byte that finds what it needs leaves a well-formed `SEQ`. -/
theorem seqOk_wireBody {x : Lines} {i : Instr} {k : List Micro} (hr : wireReady x k i = true)
    (hk : seqOk (linesAfterWire x i) k = true) : seqOk x (wireBody x.ls i ++ k) = true := by
  cases i with
  | wireRead mode bank offset length => exact seqOk_readFrame mode bank offset length hr hk
  | wireWrite mode bank offset length => exact seqOk_writeFrame mode bank offset length hr hk
  | wireByteNormal b =>
    by_cases hl : x.ls = .send
    · simpa [wireBody, hl] using seqOk_txByte false hl hk
    · rw [wireBody, if_neg hl]; exact seqOk_rxByte hk
  | wireByteBoot b => exact seqOk_txByte true (by simpa [wireReady] using hr) hk
  | _ => cases hr

/-! ## The form of `SEQ` when a command is taken -/

/-- A completion in state Off ends `SEQ`. -/
theorem seqOk_completion {x : Lines} {m : Micro} (hi : linesIdle x = true) (hl : x.ls = .off)
    (hm : completesOff m = true) : seqOk x [m] = true := by
  cases m with
  | completeOk | completeRet | completeGeneric | completeBlock =>
    simp [seqOk, ready, completes, completesOff, hi, hl]
  | _ => cases hm

/-- The way out of a compound command, from any line state. -/
theorem seqOk_exitSteps {x : Lines} {m : Micro} (hi : linesIdle x = true) (hm : completesOff m = true) :
    seqOk x (exitSteps m) = true :=
  seqOk_cons rfl (seqOk_cons rfl (seqOk_cons rfl (seqOk_completion (x := { x with ls := .off }) hi rfl hm)))

theorem mayAbort_exitSteps {x : Lines} {m : Micro} (hi : linesIdle x = true) (hm : completesOff m = true) :
    mayAbort x (exitSteps m) = true := by
  have hexit : hasExit (exitSteps m) = true := hm
  rw [mayAbort, hi, hexit, Bool.and_true]

/-- One level of the probe, which may abort by its way out. -/
theorem seqOk_aliveLevelSteps {x : Lines} (level : Bit) (timeout : Word) {k : List Micro} (hk : seqOk x k = true)
    (ha : mayAbort x k = true) : seqOk x (aliveLevelSteps level timeout ++ k) = true :=
  seqOk_cons rfl (seqOk_cons ha hk)

theorem seqOk_aliveBody {x : Lines} (timeout : Word) (hi : linesIdle x = true) :
    seqOk x (aliveBody timeout) = true := by
  have ha : mayAbort x (exitSteps .completeRet) = true := mayAbort_exitSteps hi rfl
  have hexit : seqOk { x with ls := .recv } (exitSteps .completeRet) = true := seqOk_exitSteps hi rfl
  have h4 := seqOk_aliveLevelSteps 1#1 timeout hexit ha
  have h3 := seqOk_aliveLevelSteps 0#1 timeout h4 ha
  have h2 := seqOk_aliveLevelSteps 1#1 timeout h3 ha
  have h1 := seqOk_aliveLevelSteps 0#1 timeout h2 ha
  simp only [aliveBody, List.append_assoc]
  exact seqOk_cons rfl (seqOk_cons rfl h1)

/-- RESET_DEVICE releases what it drives before it ends, whatever the lines were. -/
theorem seqOk_resetBody (x : Lines) (mode : Byte) : seqOk x (resetBody mode) = true := by
  by_cases hm : mode = 0x01#8 <;>
    simp [resetBody, knockSteps, tickWait, hm, seqOk, ready, completes, completesOff, linesAfter, linesIdle]

theorem mayAbort_genericReply (x : Lines) (outSize : Byte) (k : List Micro) :
    mayAbort x (genericReply outSize ++ k) = mayAbort x k := by
  unfold genericReply
  split_ifs <;> rfl

theorem seqOk_genericBody {x : Lines} (cmd outSize : Byte) (ins : List Byte) (hi : linesIdle x = true) :
    seqOk x (genericBody cmd outSize ins) = true := by
  have ha : mayAbort x (exitSteps .completeGeneric) = true := mayAbort_exitSteps hi rfl
  have hexit (l : LineState) : seqOk { x with ls := l } (exitSteps .completeGeneric) = true := seqOk_exitSteps hi rfl
  have hreply : seqOk { x with ls := .send } (genericReply outSize ++ exitSteps .completeGeneric) = true := by
    unfold genericReply
    split_ifs
    · exact hexit .send
    · exact seqOk_cons rfl (seqOk_recvOne (seqOk_cons ha (seqOk_cons ha (hexit .recv))))
    · exact seqOk_cons rfl (seqOk_cons ha (hexit .recv))
  rw [genericBody, List.cons_append, List.cons_append, List.append_assoc]
  exact seqOk_header (cmd :: ins) hreply ((mayAbort_genericReply x outSize _).trans ha)

/-- What is left of a command to be refused. -/
theorem seqOk_refuse {x : Lines} (hi : linesIdle x = true) : seqOk x [.refuse] = true := by
  simp [seqOk, ready, completes, hi]

/-- The pseudocode of a command is well formed from the line state the command requires, with RESET and ACK
released. -/
theorem seqOk_commandBody {i : Instr} {op : Byte} {x : Lines} (hi : commandOpcode i = some op)
    (hidle : linesIdle x = true) (hl : ∀ l, requiredLine i = some l → x.ls = l) :
    seqOk x (commandBody i) = true := by
  have hret {y : Lines} (hy : linesIdle y = true) : seqOk y [.completeRet] = true := by
    simp [seqOk, ready, completes, completesOff, hy]
  have hok {y : Lines} (hy : linesIdle y = true) : seqOk y [.completeOk] = true := by
    simp [seqOk, ready, completes, completesOff, hy]
  cases i with
  | stateOff => exact seqOk_cons rfl (seqOk_cons rfl (seqOk_cons rfl (hok hidle)))
  | stateSend => exact seqOk_cons rfl (hok hidle)
  | stateRecv => exact seqOk_cons rfl (hok hidle)
  | sendByte b => exact seqOk_cons (by simp [ready, wireReady, hl .send rfl]) (hret hidle)
  | recvByte =>
    simp [commandBody, recvOne, seqOk, ready, wireReady, completes, linesAfter, linesAfterWire, hidle, hl .recv rfl]
  | sendByteBoot b => exact seqOk_cons (by simp [ready, wireReady, hl .send rfl]) (hret hidle)
  | isAlive timeout => exact seqOk_aliveBody timeout hidle
  | resetDevice mode => exact seqOk_resetBody x mode
  | generic cmd outSize ins => exact seqOk_genericBody cmd outSize ins hidle
  | recvBlock mode bank offset length crc =>
    exact seqOk_cons (mayAbort_exitSteps hidle rfl) (seqOk_exitSteps hidle rfl)
  | sendBlock mode bank offset length crc =>
    exact seqOk_cons (mayAbort_exitSteps hidle rfl) (seqOk_exitSteps hidle rfl)
  | paramWr idx val =>
    cases hp : paramOfIndex idx with
    | some p => simpa [commandBody, hp] using seqOk_cons (m := .paramWr p val) rfl (hok hidle)
    | none => simpa [commandBody, hp] using seqOk_refuse hidle
  | paramRd idx =>
    cases hp : paramOfIndex idx with
    | some p => simp [commandBody, hp, seqOk, ready, completes, hidle]
    | none => simpa [commandBody, hp] using seqOk_refuse hidle
  | wireRead _ _ _ _ | wireWrite _ _ _ _ | wireByteNormal _ | wireByteBoot _ => cases hi

/-! ## The invariant -/

theorem seqInv_of_busy {s : State} (hb : s.rsp.busy = true) : SeqInv s ↔ seqOk s.lines s.seq.todo = true := by
  rw [SeqInv, if_pos hb]

theorem seqInv_of_idle {s : State} (hb : s.rsp.busy = false) :
    SeqInv s ↔ s.seq.todo = [] ∧ linesIdle s.lines = true := by
  rw [SeqInv, if_neg (by simp [hb])]

/-- The invariant looks at `BUSY`, `SEQ` and the lines alone. -/
theorem seqInv_congr {s t : State} (hb : t.rsp.busy = s.rsp.busy) (ht : t.seq.todo = s.seq.todo)
    (hl : t.lines = s.lines) : SeqInv t ↔ SeqInv s := by
  simp only [SeqInv, hb, ht, hl]

/-- A command taken in an idle state with RESET and ACK released has a way to its end. -/
theorem seqInv_of_takenFrom {i : Instr} {op : Byte} {s t : State} (hi : commandOpcode i = some op)
    (hidle : linesIdle s.lines = true) (h : TakenFrom i s t) : SeqInv t := by
  obtain ⟨hlines, hbusy, htodo⟩ := h
  rw [seqInv_of_busy hbusy, hlines]
  rcases htodo with htodo | ⟨htodo, hline⟩
  · rw [htodo]; exact seqOk_refuse hidle
  · rw [htodo]; exact seqOk_commandBody hi hidle hline

/-- An idle Engine stays idle, takes a command, or takes a packet to be refused. -/
theorem takePacket_seqInv {s : State} (hb : s.rsp.busy = false) (h : SeqInv s) :
    ∃ t, takePacket s = .next t ∧ SeqInv t := by
  obtain ⟨-, hidle⟩ := (seqInv_of_idle hb).mp h
  unfold takePacket
  split
  · exact ⟨s, rfl, h⟩
  · next p rest _ =>
    split
    · next i hi =>
      obtain ⟨op, hop, -⟩ := decodePacket_opcode hi
      obtain ⟨t, ht, htaken⟩ := exec_command hop (startCommand i { s with seq.packet := p, env.packets := rest })
      exact ⟨t, ht, seqInv_of_takenFrom hop hidle htaken⟩
    · exact ⟨_, rfl, (seqInv_of_busy rfl).mpr (seqOk_refuse hidle)⟩

/-- A running command has a next statement, and what that is ready for, `exec` answers. -/
theorem runSeq_next {s : State} (h : seqOk s.lines s.seq.todo = true) : ∃ t, runSeq s = .next t := by
  unfold runSeq
  split
  · next hk => simp [hk, seqOk] at h
  · next i k hk =>
    rw [hk, seqOk_wire, Bool.and_eq_true] at h
    obtain ⟨t, ht, -⟩ := exec_wire (s := beginEngine true { s with seq.todo := k }) h.1
    exact ⟨t, ht⟩
  · exact ⟨_, rfl⟩

/-- A running command goes on, by a frame or byte or by a statement, or ends. -/
theorem engineStep_busy_seqInv {s t : State} (hb : s.rsp.busy = true) (hs : SeqInv s) (h : engineStep s = .next t) :
    SeqInv t := by
  rw [seqInv_of_busy hb] at hs
  rcases engineStep_busy_outcome hb h with ⟨i, k, hk, hx⟩ | ⟨m, k, hk, hm, hbusy, -, htodo, hlines⟩ |
      ⟨m, k, hk, hm, hrsp, hlines, hgoes⟩ <;> rw [hk] at hs
  · rw [seqOk_wire, Bool.and_eq_true] at hs
    obtain ⟨hready, hrest⟩ := hs
    obtain ⟨u, hu, hlines, hrsp, htodo⟩ := exec_wire (s := beginEngine true { s with seq.todo := k }) hready
    cases hu.symm.trans hx
    rw [seqInv_of_busy (by rw [hrsp]; exact hb), hlines, htodo]
    exact seqOk_wireBody hready hrest
  · simp only [seqOk, Bool.and_eq_true] at hs
    exact (seqInv_of_idle hbusy).mpr ⟨htodo, by rw [hlines]; exact linesIdle_of_completes hm hs.1⟩
  · rw [seqInv_of_busy (by rw [hrsp]; exact hb), seqOk_of_sameDrive hlines]
    exact seqOk_continues hgoes hm hs

/-- An Engine step from the invariant never stops, and keeps it. -/
theorem engineStep_seqInv {s : State} (h : SeqInv s) : ∃ t, engineStep s = .next t ∧ SeqInv t := by
  cases hb : s.rsp.busy with
  | true =>
    obtain ⟨t, ht⟩ := runSeq_next ((seqInv_of_busy hb).mp h)
    have hstep : engineStep s = .next t := by rw [engineStep, if_pos hb, ht]
    exact ⟨t, hstep, engineStep_busy_seqInv hb h hstep⟩
  | false =>
    rw [engineStep, if_neg (by simp [hb])]
    exact takePacket_seqInv (s := beginEngine true s) hb h

/-- A turn stops only where the Engine's step would. -/
theorem takeTurn_next {waits goes : State} (turn : Turn) (hwaits : ∃ t, engineStep waits = .next t)
    (hgoes : ∃ t, engineStep goes = .next t) : ∃ t, takeTurn turn waits goes = .next t := by
  cases turn with
  | engine => exact hgoes
  | timebase =>
    simp only [takeTurn, timebaseTurn]
    split
    · exact hwaits
    · exact ⟨_, rfl⟩
  | host m => exact ⟨_, rfl⟩
  | device m => exact ⟨_, rfl⟩
  | blockReset => exact ⟨_, rfl⟩

/-- The same of `step`. -/
theorem step_next_of_engineStep {s : State}
    (h : ∀ sched draws, ∃ t, engineStep { s with env.sched := sched, env.draws := draws } = .next t) :
    ∃ t, step s = .next t := by
  unfold step
  split
  · exact takeTurn_next _ (h s.env.sched s.env.draws) (h _ s.env.draws)
  · exact takeTurn_next _ (h s.env.sched _) (h s.env.sched _)

/-- No step of any agent breaks the invariant. -/
theorem step_seqInv {s t : State} (hs : SeqInv s) (h : step s = .next t) : SeqInv t := by
  obtain ⟨u, sched, draws, rfl, hcase⟩ := step_cases h
  have hu : SeqInv { s with env.sched := sched, env.draws := draws } := (seqInv_congr rfl rfl rfl).mpr hs
  rcases hcase with hengine | ⟨-, rfl⟩ | ⟨m, rfl⟩ | ⟨m, rfl⟩ | rfl
  · obtain ⟨v, hv, hinv⟩ := engineStep_seqInv hu
    cases hv.symm.trans hengine
    exact hinv
  · exact (seqInv_congr rfl rfl rfl).mpr hu
  · exact (seqInv_congr (by simp) (by simp) (by simp)).mpr hu
  · exact (seqInv_congr (by simp) (by simp) (by simp)).mpr hu
  · exact ⟨rfl, rfl⟩

/-- Settles O55: the Engine never stops from the invariant, so no step does; and every agent's step keeps it. -/
theorem sequencerInvariantKept : Obligations.SequencerInvariantKept := by
  intro s hs
  have hstep : ∃ t, step s = .next t := step_next_of_engineStep fun sched draws => by
    have hu : SeqInv { s with env.sched := sched, env.draws := draws } := (seqInv_congr rfl rfl rfl).mpr hs
    obtain ⟨t, ht, -⟩ := engineStep_seqInv hu
    exact ⟨t, ht⟩
  obtain ⟨t, ht⟩ := hstep
  exact ⟨t, ht, step_seqInv hs ht⟩

end Sys2Proof.Machine
end

