-- ==== Sys2Proof/Proofs/StateInvariants.lean ====
section
/-! PROOF. The other invariants of the state: the scratch registers inside one bank (R28, R55, C10), RESET and ACK
driven by RESET_DEVICE alone (R25, R123, R124 e), and the state after reset, where all of them start (R36). -/

namespace Sys2Proof.Machine

open Sys2Proof.Safety

/-! ## The scratch registers -/

/-- The invariant looks at `OFFSET` and `LENGTH` alone. -/
theorem scratchInv_congr {s t : State} (ho : t.blk.offset = s.blk.offset) (hl : t.blk.length = s.blk.length) :
    ScratchInv t ↔ ScratchInv s := by
  rw [ScratchInv, ScratchInv, ho, hl]

theorem scratchInv_reset : ScratchInv State.reset := by unfold ScratchInv; decide

/-- An instruction leaves the scratch registers alone or loads operands that passed the check of R132. -/
theorem exec_scratchInv {i : Instr} {s t : State} (hs : ScratchInv s) (h : exec i s = .next t) : ScratchInv t := by
  obtain ⟨-, -, -, -, -, -, -, hblk | ⟨mode, bank, offset, length, crc, hok, hblk⟩⟩ := exec_frame h
  · exact (scratchInv_congr (by rw [hblk]) (by rw [hblk])).mpr hs
  · rw [ScratchInv, hblk]
    exact hok

theorem engineStep_scratchInv {s t : State} (hs : ScratchInv s) (h : engineStep s = .next t) : ScratchInv t := by
  cases hb : s.rsp.busy with
  | false =>
    rcases engineStep_idle_cases hb h with ⟨-, rfl⟩ | ⟨p, rest, -, ⟨i, -, hx⟩ | ⟨e, -, rfl⟩⟩
    · exact (scratchInv_congr rfl rfl).mpr hs
    · refine exec_scratchInv ?_ hx
      exact (scratchInv_congr rfl rfl).mpr hs
    · exact (scratchInv_congr rfl rfl).mpr hs
  | true =>
    rcases engineStep_busy_cases hb h with ⟨i, k, -, hx⟩ | ⟨m, k, -, -, rfl⟩
    · refine exec_scratchInv ?_ hx
      exact (scratchInv_congr rfl rfl).mpr hs
    · obtain ⟨-, -, -, -, -, -, hoffset, hlength⟩ :=
        runMicro_frame m (beginEngine (polledAfter m s.env.polled) { s with seq.todo := k })
      exact (scratchInv_congr hoffset hlength).mpr hs

/-- Settles O56: the scratch registers are loaded with checked operands, or set to 0 by a block reset, or stay. -/
theorem scratchStaysInOneBank : Obligations.ScratchStaysInOneBank := by
  intro s t hs h
  obtain ⟨u, sched, draws, rfl, hcase⟩ := step_cases h
  rcases hcase with hengine | ⟨-, rfl⟩ | ⟨m, rfl⟩ | ⟨m, rfl⟩ | rfl
  · refine engineStep_scratchInv ?_ hengine
    exact (scratchInv_congr rfl rfl).mpr hs
  · exact (scratchInv_congr rfl rfl).mpr hs
  · exact (scratchInv_congr (by simp) (by simp)).mpr hs
  · exact (scratchInv_congr (by simp) (by simp)).mpr hs
  · exact scratchInv_reset

/-! ## RESET and ACK -/

/-- No statement of `k` drives RESET or ACK. -/
def drivesNone (k : List Micro) : Bool := k.all fun m => !drivesReset m

@[simp] theorem drivesNone_nil : drivesNone [] = true := rfl
@[simp] theorem drivesNone_cons (m : Micro) (k : List Micro) :
    drivesNone (m :: k) = (!drivesReset m && drivesNone k) := rfl
@[simp] theorem drivesNone_append (k l : List Micro) : drivesNone (k ++ l) = (drivesNone k && drivesNone l) :=
  List.all_append

theorem drivesNone_dropToByteEnd {k : List Micro} (h : drivesNone k = true) :
    drivesNone (dropToByteEnd k) = true := by
  fun_induction dropToByteEnd k with
  | case1 => rfl
  | case2 rx k => exact h
  | case3 m k _ ih =>
    rw [drivesNone_cons, Bool.and_eq_true] at h
    exact ih h.2

theorem drivesNone_dropToExit {k : List Micro} (h : drivesNone k = true) : drivesNone (dropToExit k) = true := by
  fun_induction dropToExit k with
  | case1 => rfl
  | case2 k => exact h
  | case3 m k _ ih =>
    rw [drivesNone_cons, Bool.and_eq_true] at h
    exact ih h.2

@[simp] theorem drivesNone_sendBytes (bs : List Byte) : drivesNone (sendBytes bs) = true := by
  induction bs with
  | nil => rfl
  | cons b rest ih => exact ih

/-- What a statement pushes are waits and loops, which drive DATA and CLK at most. -/
theorem drivesNone_pushes {m : Micro} {l : List Micro} (h : Pushes m l) : drivesNone l = true := by
  cases h <;> rfl

theorem drivesNone_continues {m : Micro} {k k' : List Micro} (h : Continues m k k') (hk : drivesNone k = true) :
    drivesNone k' = true := by
  cases h with
  | rest => exact hk
  | pushes hp => rw [drivesNone_append, drivesNone_pushes hp, hk, Bool.true_and]
  | byteFails _ => exact drivesNone_dropToByteEnd hk
  | aborts _ => exact drivesNone_dropToExit hk

/-- A frame or byte drives neither RESET nor ACK. -/
theorem drivesNone_wireBody (l : LineState) (i : Instr) : drivesNone (wireBody l i) = true := by
  cases i with
  | wireRead mode bank offset length => simp [wireBody, readFrame, recvOne, drivesReset]
  | wireWrite mode bank offset length => simp [wireBody, writeFrame, recvOne, drivesReset]
  | wireByteNormal b => cases l <;> rfl
  | wireByteBoot b => rfl
  | _ => rfl

/-- Of all commands RESET_DEVICE alone drives RESET or ACK. -/
theorem drivesNone_commandBody {i : Instr} (hi : commandOpcode i ≠ some opResetDevice) :
    drivesNone (commandBody i) = true := by
  cases i with
  | resetDevice mode => exact absurd rfl hi
  | generic cmd outSize ins =>
    have hreply : drivesNone (genericReply outSize) = true := by
      unfold genericReply
      split_ifs <;> rfl
    simp [commandBody, genericBody, exitSteps, idleLatches, hreply, drivesReset]
  | paramWr idx val => cases hp : paramOfIndex idx <;> simp [commandBody, hp, drivesReset]
  | paramRd idx => cases hp : paramOfIndex idx <;> simp [commandBody, hp, drivesReset]
  | _ => rfl

/-- RESET and ACK are released, and nothing ahead drives them. -/
def resetUnused (s : State) : Prop := drivesNone s.seq.todo = true ∧ linesIdle s.lines = true

theorem resetInv_iff (s : State) : ResetInv s ↔
    SeqInv s ∧ (s.rsp.busy = true → s.seq.packet.head? = some opResetDevice ∨ resetUnused s) := Iff.rfl

/-- A statement that does not drive RESET or ACK leaves them alone. -/
theorem linesIdle_linesAfter {x : Lines} {m : Micro} (hm : drivesReset m = false) :
    linesIdle (linesAfter x m) = linesIdle x := by
  cases m with
  | wire i => cases i <;> rfl
  | resetDrive _ | knock _ | latchAck _ => cases hm
  | _ => rfl

/-- Taking a packet in an idle state: only a RESET_DEVICE brings statements that drive RESET or ACK. -/
theorem engineStep_idle_resetUnused {s t : State} (hidle : linesIdle s.lines = true) (hb : s.rsp.busy = false)
    (h : engineStep s = .next t) (hbusy : t.rsp.busy = true) :
    t.seq.packet.head? = some opResetDevice ∨ resetUnused t := by
  rcases engineStep_idle_cases hb h with ⟨-, rfl⟩ | ⟨p, rest, -, ⟨i, hi, hx⟩ | ⟨e, -, rfl⟩⟩
  · rw [beginEngine_rsp_eq, hb] at hbusy; cases hbusy
  · obtain ⟨op, hop, hhead⟩ := decodePacket_opcode hi
    obtain ⟨-, -, hpacket, -⟩ := exec_frame hx
    obtain ⟨hlines, -, htodo⟩ := takenFrom_of_exec hop hx
    by_cases hreset : op = opResetDevice
    · left
      rw [hpacket, ← hreset]
      exact hhead
    · right
      refine ⟨?_, by rw [hlines]; exact hidle⟩
      rcases htodo with htodo | ⟨htodo, -⟩ <;> rw [htodo]
      · rfl
      · exact drivesNone_commandBody (by simpa [hop] using hreset)
  · exact .inr ⟨rfl, hidle⟩

/-- A running command that has nothing to do with RESET and ACK goes on, or ends, without them. -/
theorem engineStep_busy_resetUnused {s t : State} (hb : s.rsp.busy = true) (hinv : SeqInv s) (hs : resetUnused s)
    (h : engineStep s = .next t) : resetUnused t := by
  obtain ⟨htodo, hidle⟩ := hs
  rcases engineStep_busy_outcome hb h with ⟨i, k, hk, hx⟩ | ⟨m, k, hk, -, -, -, hnext, hlines⟩ |
      ⟨m, k, hk, -, -, hlines, hgoes⟩
  · rw [seqInv_of_busy hb, hk, seqOk_wire, Bool.and_eq_true] at hinv
    obtain ⟨u, hu, hlines, -, hnext⟩ := exec_wire (s := beginEngine true { s with seq.todo := k }) hinv.1
    cases hu.symm.trans hx
    rw [hk] at htodo
    refine ⟨?_, by rw [hlines]; exact hidle⟩
    rw [hnext, drivesNone_append, drivesNone_wireBody, Bool.true_and]
    exact htodo
  · exact ⟨by rw [hnext]; rfl, by rw [hlines]; exact hidle⟩
  · simp only [hk, drivesNone_cons, Bool.and_eq_true, Bool.not_eq_true'] at htodo
    obtain ⟨hquiet, hrest⟩ := htodo
    refine ⟨drivesNone_continues hgoes hrest, ?_⟩
    rw [linesIdle_of_sameDrive hlines, linesIdle_linesAfter hquiet]
    exact hidle

/-- The packet register of a running command stays. -/
theorem engineStep_busy_packet {s t : State} (h : engineStep s = .next t) (hb : s.rsp.busy = true) :
    t.seq.packet = s.seq.packet ∧ t.env.packets = s.env.packets := by
  rcases engineStep_busy_cases hb h with ⟨i, k, -, hx⟩ | ⟨m, k, -, -, rfl⟩
  · obtain ⟨-, hpackets, hpacket, -⟩ := exec_frame hx
    exact ⟨hpacket, hpackets⟩
  · obtain ⟨-, -, hpackets, hpacket, -⟩ :=
      runMicro_frame m (beginEngine (polledAfter m s.env.polled) { s with seq.todo := k })
    exact ⟨hpacket, hpackets⟩

theorem engineStep_resetInv {s t : State} (hs : ResetInv s) (h : engineStep s = .next t) : ResetInv t := by
  obtain ⟨hinv, huse⟩ := hs
  obtain ⟨u, hu, hnext⟩ := engineStep_seqInv hinv
  cases hu.symm.trans h
  refine ⟨hnext, fun hbusy => ?_⟩
  cases hb : s.rsp.busy with
  | false => exact engineStep_idle_resetUnused ((seqInv_of_idle hb).mp hinv).2 hb h hbusy
  | true =>
    rw [(engineStep_busy_packet h hb).1]
    exact (huse hb).imp_right fun hunused => engineStep_busy_resetUnused hb hinv hunused h

/-- The invariant looks at `BUSY`, `SEQ` and the lines alone. -/
theorem resetInv_congr {s t : State} (hb : t.rsp.busy = s.rsp.busy) (hq : t.seq = s.seq) (hl : t.lines = s.lines) :
    ResetInv t ↔ ResetInv s := by
  rw [resetInv_iff, resetInv_iff, resetUnused, resetUnused, seqInv_congr hb (congrArg _ hq) hl, hb, hq, hl]

theorem resetInv_of_idle {s : State} (hb : s.rsp.busy = false) (hs : SeqInv s) : ResetInv s :=
  ⟨hs, fun h => by rw [hb] at h; cases h⟩

theorem step_resetInv {s t : State} (hs : ResetInv s) (h : step s = .next t) : ResetInv t := by
  obtain ⟨u, sched, draws, rfl, hcase⟩ := step_cases h
  have hu : ResetInv { s with env.sched := sched, env.draws := draws } := (resetInv_congr rfl rfl rfl).mpr hs
  rcases hcase with hengine | ⟨-, rfl⟩ | ⟨m, rfl⟩ | ⟨m, rfl⟩ | rfl
  · exact engineStep_resetInv hu hengine
  · exact (resetInv_congr rfl rfl rfl).mpr hu
  · exact (resetInv_congr (by simp) (by simp) (by simp)).mpr hu
  · exact (resetInv_congr (by simp) (by simp) (by simp)).mpr hu
  · exact resetInv_of_idle rfl ⟨rfl, rfl⟩

/-- RESET or ACK is driven only while `RSTDRV` or `KNOCK` is set (R25). -/
theorem not_linesIdle_of_driven {x : Lines} (h : x.ports.rstOe = true ∨ x.ports.ackOe = true) :
    linesIdle x = false := by
  cases hl : x.ls with
  | off =>
    simp only [Lines.ports, hl] at h
    rcases h with h | h <;> simp [linesIdle, h]
  | send => simp [Lines.ports, hl] at h
  | recv => simp [Lines.ports, hl] at h

/-- Where RESET or ACK is driven, RESET_DEVICE runs. -/
theorem resetDevice_of_driven {s : State} (hs : ResetInv s)
    (h : s.lines.ports.rstOe = true ∨ s.lines.ports.ackOe = true) :
    s.rsp.busy = true ∧ s.seq.packet.head? = some opResetDevice := by
  have hdriven := not_linesIdle_of_driven h
  obtain ⟨hinv, huse⟩ := hs
  cases hb : s.rsp.busy with
  | false =>
    obtain ⟨-, hidle⟩ := (seqInv_of_idle hb).mp hinv
    simp [hdriven] at hidle
  | true =>
    rcases huse hb with hop | ⟨-, hidle⟩
    · exact ⟨rfl, hop⟩
    · simp [hdriven] at hidle

/-- Settles O58: the invariant is kept by every agent's step, and where RESET or ACK is driven it leaves RESET_DEVICE
alone. -/
theorem onlyResetDeviceDrivesResetAndAck : Obligations.OnlyResetDeviceDrivesResetAndAck := by
  intro s t hs h
  have ht := step_resetInv hs h
  exact ⟨ht, resetDevice_of_driven ht⟩

/-! ## After reset -/

/-- Settles O53: the values of R36. -/
theorem resetState : Obligations.ResetState := by
  unfold Obligations.ResetState
  exact ⟨rfl, rfl, rfl, rfl, rfl, rfl, rfl, rfl, rfl, rfl, rfl, rfl, rfl, rfl⟩

theorem seqInv_reset : SeqInv State.reset := ⟨rfl, rfl⟩

/-- Settles O59: no command runs after reset, so nothing is ahead in `SEQ` and nothing is driven. -/
theorem invariantsAtReset : Obligations.InvariantsAtReset := by
  refine ⟨seqInv_reset, scratchInv_reset, ⟨seqInv_reset, ?_⟩, resetInv_of_idle rfl seqInv_reset, seqInv_reset, ?_⟩
  · intro hbusy
    cases hbusy
  · intro q v hmem
    cases hmem

end Sys2Proof.Machine
end

