-- ==== Sys2Proof/Proofs/PortsAndResponse.lean ====
section
/-! PROOF. The ports: the pads (R20, R25), packets and host answers that wait (R22, R23, R194, R199), the response that
stays until a command ends (R30, R77), and the step that runs an instruction (R29, R33). -/

namespace Sys2Proof.Machine

open Sys2Proof.Safety

/-! ## The pads -/

/-- Settles O10, by the line state. -/
theorem outputEnables : Obligations.OutputEnables := by
  intro l
  cases hl : l.ls <;> simp [Lines.ports, hl]

/-! ## A Host that does not answer -/

/-- A pull or a push is outstanding and the Host has given no answer. -/
def awaitsHost (s : State) : Prop :=
  (∃ k, s.seq.todo = .pull :: k ∧ s.env.pullIn = []) ∨ ∃ b k, s.seq.todo = .push b :: k ∧ s.env.pushIn = []

theorem hostPull_waits {s : State} (h : s.env.pullIn = []) : hostPull s = doNext [.pull] s := by
  simp only [hostPull, h]

theorem hostPush_waits {s : State} (b : Byte) (h : s.env.pushIn = []) : hostPush b s = doNext [.push b] s := by
  simp only [hostPush, h]

/-- A statement put back where it stood. -/
theorem doNext_taken {s : State} {m : Micro} {k : List Micro} (p : Bool) (h : s.seq.todo = m :: k) :
    doNext [m] (beginEngine p { s with seq.todo := k }) = beginEngine p s := by
  simp only [doNext, beginEngine, List.singleton_append, ← h]

/-- The engine repeats the exchange: the statement stands again where it stood. -/
theorem engineStep_awaitsHost {s : State} (hb : s.rsp.busy = true) (hs : awaitsHost s) :
    engineStep s = .next (beginEngine true s) := by
  rcases hs with ⟨k, htodo, hnone⟩ | ⟨b, k, htodo, hnone⟩ <;> rw [engineStep_statement hb htodo nofun, runMicro]
  · rw [hostPull_waits (by exact hnone), doNext_taken _ htodo, polledAfter_of_not_inWait _ rfl]
  · rw [hostPush_waits b (by exact hnone), doNext_taken _ htodo, polledAfter_of_not_inWait _ rfl]

/-- Any number of Engine steps. -/
theorem engineRun_awaitsHost (n : Nat) {s : State} (hb : s.rsp.busy = true) (hs : awaitsHost s) :
    engineRun (n + 1) s = .next (beginEngine true s) := by
  induction n generalizing s with
  | zero => simp only [engineRun, engineStep_awaitsHost hb hs]
  | succ n ih =>
    rw [engineRun, engineStep_awaitsHost hb hs]
    exact ih (s := beginEngine true s) hb hs

/-- Settles O35: a step without an answer only puts the exchange back. -/
theorem silentHostHoldsTheEngine : Obligations.SilentHostHoldsTheEngine := by
  intro n s b k hb hs
  exact engineRun_awaitsHost n hb (hs.imp (fun h => ⟨k, h⟩) (fun h => ⟨b, k, h⟩))

/-! ## Packets wait while a command runs -/

theorem hostStep_packets (m : HostMove) (s : State) :
    (hostStep m s).env.packets = s.env.packets ∨ ∃ p, (hostStep m s).env.packets = s.env.packets ++ [p] := by
  cases m with
  | offer p => exact .inr ⟨p, rfl⟩
  | answerPull b h => exact .inl rfl
  | answerPush h => exact .inl rfl

/-- Settles O46, agent by agent: only the Host adds a packet, and only a block reset writes the packet register. -/
theorem packetsWaitWhileBusy : Obligations.PacketsWaitWhileBusy := by
  intro s t hb h
  obtain ⟨u, sched, draws, rfl, hcase⟩ := step_cases h
  rcases hcase with hengine | ⟨-, rfl⟩ | ⟨m, rfl⟩ | ⟨m, rfl⟩ | rfl
  · obtain ⟨hpacket, hpackets⟩ := engineStep_busy_packet hengine hb
    exact ⟨.inl hpackets, .inl hpacket⟩
  · exact ⟨.inl rfl, .inl rfl⟩
  · exact ⟨hostStep_packets m _, .inl (by rw [hostStep_seq])⟩
  · exact ⟨.inl (deviceStep_packets _ m), .inl (by rw [deviceStep_seq])⟩
  · exact ⟨.inl rfl, .inr rfl⟩

/-! ## The response is stable -/

/-- The response registers of `s` stand in `t` (R30), and a command that ran runs on. -/
def ResponseKept (s t : State) : Prop :=
  t.rsp.ill = s.rsp.ill ∧ t.rsp.status = s.rsp.status ∧ t.rsp.rbyte = s.rsp.rbyte ∧ t.rsp.rword = s.rsp.rword ∧
    t.rsp.outcnt = s.rsp.outcnt ∧ t.rsp.outbuf = s.rsp.outbuf ∧ (s.rsp.busy = true → t.rsp.busy = true)

/-- `BUSY` and `done` apart, no response register is written. -/
theorem responseKept_of_rsp {s t : State} {busy done : Bool} (h : t.rsp = { s.rsp with busy := busy, done := done })
    (hb : s.rsp.busy = true → busy = true) : ResponseKept s t := by
  rw [ResponseKept, h]
  exact ⟨rfl, rfl, rfl, rfl, rfl, rfl, hb⟩

/-- An Engine step writes the response registers only where it sets `done`. -/
theorem engineStep_responseKept {s t : State} (h : engineStep s = .next t) (hd : t.rsp.done = false) :
    ResponseKept s t := by
  cases hb : s.rsp.busy with
  | false =>
    rcases engineStep_idle_cases hb h with ⟨-, rfl⟩ | ⟨p, rest, -, ⟨i, -, hx⟩ | ⟨e, -, rfl⟩⟩
    · exact responseKept_of_rsp rfl id
    · obtain ⟨-, -, -, -, -, -, hrsp, -⟩ := exec_frame hx
      exact responseKept_of_rsp hrsp (by simp [hb])
    · exact responseKept_of_rsp rfl fun _ => rfl
  | true =>
    rcases engineStep_busy_outcome hb h with ⟨i, k, -, hx⟩ | ⟨-, -, -, -, -, hdone, -⟩ | ⟨-, -, -, -, hrsp, -⟩
    · obtain ⟨-, -, -, -, -, -, hrsp, -⟩ := exec_frame hx
      exact responseKept_of_rsp hrsp fun _ => exec_keeps_busy hx hb
    · rw [hdone] at hd
      cases hd
    · exact responseKept_of_rsp hrsp id

/-- Settles O47, agent by agent: only a command's end and the block reset write the response. -/
theorem responseIsStableUntilDone : Obligations.ResponseIsStableUntilDone := by
  intro s t h hreset hd
  obtain ⟨u, sched, draws, rfl, hcase⟩ := step_cases h
  rcases hcase with hengine | ⟨-, rfl⟩ | ⟨m, rfl⟩ | ⟨m, rfl⟩ | rfl
  · exact (engineStep_responseKept hengine hd :)
  · exact responseKept_of_rsp (s := s) (busy := s.rsp.busy) (done := false) rfl id
  · exact responseKept_of_rsp (s := s) (hostStep_rsp_eq _ m) id
  · exact responseKept_of_rsp (s := s) (deviceStep_rsp_eq _ m) id
  · exact absurd rfl hreset

/-! ## The step that runs an instruction -/

/-- In an Engine turn the step is the Engine's, with the turn taken off. -/
theorem step_engineTurn {s : State} {ts : List Turn} (h : s.env.sched = .engine :: ts) :
    step s = engineStep { s with env.sched := ts } := by
  simp only [step, h, takeTurn]

/-- An idle Engine runs the command it decodes from the packet it takes. -/
theorem engineStep_command {s : State} {p : List Byte} {rest : List (List Byte)} {i : Instr} (hb : s.rsp.busy = false)
    (hp : s.env.packets = p :: rest) (hi : decodePacket p = .ok i) : engineStep s =
      exec i (startCommand i { beginEngine true s with seq.packet := p, env.packets := rest }) := by
  have hidle : ¬ s.rsp.busy = true := by simp [hb]
  simp only [engineStep, if_neg hidle, takePacket, beginEngine_env_eq, hp, hi]

/-- The opcodes of GENERIC and of the two block commands, whose start clears the latches (R29). -/
def clearingOpcode (op : Option Byte) : Prop := op = some opGeneric ∨ op = some opRecvBlock ∨ op = some opSendBlock

theorem clearingOpcode_of_startsFresh {i : Instr} {s : State} (h : startsFresh i s = true) :
    clearingOpcode (commandOpcode i) := by
  cases i with
  | generic _ _ _ => exact .inl rfl
  | recvBlock _ _ _ _ _ => exact .inr (.inl rfl)
  | sendBlock _ _ _ _ _ => exact .inr (.inr rfl)
  | _ => cases h

/-- The latches that R29 has cleared stay cleared when the command loads its operands, and the command runs. -/
theorem exec_lat_of_startsFresh {i : Instr} {s t : State} (hf : startsFresh i s = true) (hc : s.lat = clearedLatches)
    (h : exec i s = .next t) : t.lat = clearedLatches ∧ t.seq.todo ≠ [.refuse] := by
  cases i with
  | generic cmd outSize ins =>
    have hready : genericReady ins s = true := hf
    rw [exec, execGeneric, if_pos hready] at h
    cases h
    exact ⟨by rw [accept_lat, hc]; rfl, by simp [genericBody]⟩
  | recvBlock mode bank offset length crc =>
    have hready : blockReady offset length s = true := hf
    rw [exec, execRecvBlock, if_pos hready] at h
    cases h
    exact ⟨by rw [accept_lat, loadBlock_lat_eq, hc]; rfl, by simp⟩
  | sendBlock mode bank offset length crc =>
    have hready : blockReady offset length s = true := hf
    rw [exec, execSendBlock, if_pos hready] at h
    cases h
    exact ⟨by rw [accept_lat, loadBlock_lat_eq, hc]; rfl, by simp⟩
  | _ => cases hf

/-- A block command or GENERIC that does not start is to be refused. -/
theorem exec_rejects {i : Instr} {s t : State} (hop : clearingOpcode (commandOpcode i))
    (hf : startsFresh i s = false) (h : exec i s = .next t) : t = reject s := by
  cases i with
  | generic cmd outSize ins =>
    have hready : genericReady ins s = false := hf
    rw [exec, execGeneric, hready] at h
    cases h
    rfl
  | recvBlock mode bank offset length crc =>
    have hready : blockReady offset length s = false := hf
    rw [exec, execRecvBlock, hready] at h
    cases h
    rfl
  | sendBlock mode bank offset length crc =>
    have hready : blockReady offset length s = false := hf
    rw [exec, execSendBlock, hready] at h
    cases h
    rfl
  | _ => rcases hop with hop | hop | hop <;> cases hop

/-- Every other instruction leaves the latches alone. -/
theorem exec_lat {i : Instr} {s t : State} (hop : ¬ clearingOpcode (commandOpcode i)) (h : exec i s = .next t) :
    t.lat = s.lat := by
  cases i with
  | stateOff => cases h; rfl
  | stateSend => cases h; rfl
  | stateRecv => cases h; rfl
  | sendByte b => simp only [exec, execSendByte] at h; split at h <;> cases h <;> rfl
  | recvByte => simp only [exec, execRecvByte] at h; split at h <;> cases h <;> rfl
  | sendByteBoot b => simp only [exec, execSendByteBoot] at h; split at h <;> cases h <;> rfl
  | isAlive timeout => simp only [exec, execIsAlive] at h; split at h <;> cases h <;> rfl
  | resetDevice mode => simp only [exec, execResetDevice] at h; split at h <;> cases h <;> rfl
  | generic cmd outSize ins => exact absurd (.inl rfl) hop
  | recvBlock mode bank offset length crc => exact absurd (.inr (.inl rfl)) hop
  | sendBlock mode bank offset length crc => exact absurd (.inr (.inr rfl)) hop
  | paramWr idx val => simp only [exec, execParamWr] at h; split at h <;> cases h <;> rfl
  | paramRd idx => simp only [exec, execParamRd] at h; split at h <;> cases h <;> rfl
  | wireRead mode bank offset length => cases h; rfl
  | wireWrite mode bank offset length => cases h; rfl
  | wireByteNormal b => simp only [exec, execWireByteNormal] at h; split at h <;> cases h <;> rfl
  | wireByteBoot b => simp only [exec, execWireByteBoot] at h; split at h <;> cases h; rfl

/-- What the step that takes a command leaves in the latches: cleared where one of the three commands starts, and as
they were otherwise. -/
theorem exec_startCommand_lat {i : Instr} {s t : State} (h : exec i (startCommand i s) = .next t) :
    (clearingOpcode (commandOpcode i) ∧ t.seq.todo ≠ [.refuse] → t.lat = clearedLatches) ∧
      (¬ (clearingOpcode (commandOpcode i) ∧ t.seq.todo ≠ [.refuse]) → t.lat = s.lat) := by
  have hcongr : startsFresh i (startCommand i s) = startsFresh i s := startsFresh_congr i rfl
  cases hf : startsFresh i s with
  | true =>
    have hc : (startCommand i s).lat = clearedLatches := if_pos hf
    obtain ⟨hlat, hruns⟩ := exec_lat_of_startsFresh (hcongr.trans hf) hc h
    exact ⟨fun _ => hlat, fun hnot => absurd ⟨clearingOpcode_of_startsFresh hf, hruns⟩ hnot⟩
  | false =>
    have hc : (startCommand i s).lat = s.lat := if_neg (by simp [hf])
    by_cases hop : clearingOpcode (commandOpcode i)
    · obtain rfl := exec_rejects hop (hcongr.trans hf) h
      exact ⟨fun hruns => absurd rfl hruns.2, fun _ => hc⟩
    · exact ⟨fun hruns => absurd hruns.1 hop, fun _ => (exec_lat hop h).trans hc⟩

/-- Settles O45: an Engine turn is an Engine step; what it does with the latches is what taking the packet does. -/
theorem stepRunsTheInstruction : Obligations.StepRunsTheInstruction := by
  refine ⟨?_, ?_, ?_⟩
  · intro s p rest ts i hb hs hp hi
    rw [step_engineTurn hs, engineStep_command (by exact hb) (by exact hp) hi, startCommand,
      startsFresh_congr i (t := s) rfl]
    rfl
  · intro s k ts i hb hs hk
    rw [step_engineTurn hs]
    exact engineStep_wire hb hk
  · intro s t p rest ts hb hs hp h
    rw [step_engineTurn hs] at h
    rcases engineStep_idle_cases (by exact hb) h with ⟨hnone, -⟩ | ⟨q, qs, hq, htaken⟩
    · cases hnone.symm.trans hp
    obtain ⟨rfl, rfl⟩ := List.cons.inj (hq.symm.trans hp)
    rcases htaken with ⟨i, hi, hx⟩ | ⟨e, -, rfl⟩
    · obtain ⟨op, hop, hhead⟩ := decodePacket_opcode hi
      have hlat := exec_startCommand_lat hx
      rw [hop, ← hhead] at hlat
      split
      · next hruns => exact hlat.1 hruns
      · next hnot => exact hlat.2 hnot
    · rw [if_neg (fun hruns => hruns.2 rfl)]; rfl

end Sys2Proof.Machine
end

