-- ==== Sys2Proof/Proofs/Time.lean ====
section
/-! PROOF. The tick counters (R26): the Timebase alone counts, a hundred increments of `T100` are one of `T10MS`, and no
step sees more of a counter than its distance from its snapshot (R36). -/

namespace Sys2Proof.Machine

open Sys2Proof.Safety

/-! ## Who counts -/

theorem engineStep_time {s t : State} (h : engineStep s = .next t) : t.time = s.time := by
  cases hb : s.rsp.busy with
  | false =>
    rcases engineStep_idle_cases hb h with ⟨-, rfl⟩ | ⟨p, rest, -, ⟨i, -, hx⟩ | ⟨e, -, rfl⟩⟩
    · rfl
    · exact (exec_frame hx).1
    · rfl
  | true =>
    rcases engineStep_busy_cases hb h with ⟨i, k, -, hx⟩ | ⟨m, k, -, -, rfl⟩
    · exact (exec_frame hx).1
    · exact (runMicro_frame m _).1

/-- Settles O50, agent by agent. -/
theorem onlyTheTimebaseCounts : Obligations.OnlyTheTimebaseCounts := by
  intro s t h
  obtain ⟨u, sched, draws, rfl, hcase⟩ := step_cases h
  rcases hcase with hengine | ⟨-, rfl⟩ | ⟨m, rfl⟩ | ⟨m, rfl⟩ | rfl
  · exact .inr (.inl (engineStep_time hengine :))
  · exact .inl ⟨rfl, rfl⟩
  · exact .inr (.inl (by rw [hostStep_time]))
  · exact .inr (.inl (by rw [deviceStep_time]))
  · exact .inr (.inr rfl)

/-! ## A hundred ticks -/

theorem tick_t10ms (s : State) :
    (tick s).time.t10ms = if s.time.div + 1 = 0 then s.time.t10ms + 1#16 else s.time.t10ms := rfl

theorem tick_iterate_t100 (n : Nat) (s : State) : (tick^[n] s).time.t100 = s.time.t100 + BitVec.ofNat 16 n := by
  induction n with
  | zero => simp
  | succ n ih => rw [Function.iterate_succ_apply', tick_t100, ih, BitVec.add_assoc, BitVec.ofNat_add]

theorem tick_iterate_div (n : Nat) (s : State) : ((tick^[n] s).time.div).val = (s.time.div.val + n) % 100 := by
  induction n with
  | zero => exact (Nat.mod_eq_of_lt s.time.div.isLt).symm
  | succ n ih =>
    have hone : (1 : Fin 100).val = 1 := rfl
    rw [Function.iterate_succ_apply', tick_div, Fin.val_add, ih, hone, Nat.mod_add_mod, Nat.add_assoc]

/-- `T10MS` counts the hundreds that the divider has passed. -/
theorem tick_iterate_t10ms (n : Nat) (s : State) :
    (tick^[n] s).time.t10ms = s.time.t10ms + BitVec.ofNat 16 ((s.time.div.val + n) / 100) := by
  induction n with
  | zero => simp [Nat.div_eq_of_lt s.time.div.isLt]
  | succ n ih =>
    have hval := tick_iterate_div n s
    rw [Function.iterate_succ_apply', tick_t10ms, ih, ← Nat.add_assoc]
    by_cases hlast : (tick^[n] s).time.div + 1 = 0
    · have hnext : (s.time.div.val + n + 1) / 100 = (s.time.div.val + n) / 100 + 1 := by
        have := congrArg Fin.val hlast
        simp only [Fin.val_add, hval] at this
        omega
      rw [if_pos hlast, hnext, BitVec.add_assoc, BitVec.ofNat_add]
    · have hsame : (s.time.div.val + n + 1) / 100 = (s.time.div.val + n) / 100 := by
        have : ((tick^[n] s).time.div + 1).val ≠ 0 := fun h => hlast (Fin.ext h)
        simp only [Fin.val_add, hval] at this
        omega
      rw [if_neg hlast, hsame]

/-- Settles O49: the closed forms of `n` ticks, at `n = 100`. -/
theorem hundredTicks : Obligations.HundredTicks := by
  intro s
  have hdiv : s.time.div.val < 100 := s.time.div.isLt
  refine ⟨tick_iterate_t100 100 s, ?_, ?_⟩
  · rw [tick_iterate_t10ms, Nat.add_div_right _ (by decide), Nat.div_eq_of_lt hdiv]
  · apply Fin.ext
    rw [tick_iterate_div, Nat.add_mod_right, Nat.mod_eq_of_lt hdiv]

/-! ## A shift of a counter and its snapshot -/

section Shift
variable (c d : Word)

/-- The same shift of an outcome. -/
def shiftResult : Result → Result
  | .next t => .next (shiftTime c d t)
  | .fault r => .fault r
  | .refused r => .refused r

theorem elapsed_shift (now start e : Word) : elapsed (now + e) (start + e) = elapsed now start := by
  simp [elapsed]

theorem exceeds_shift (now start budget e : Word) :
    exceeds (now + e) (start + e) budget = exceeds now start budget := by
  rw [exceeds, elapsed_shift, exceeds]

theorem waited_shift (now start n e : Word) : waited (now + e) (start + e) n = waited now start n := by
  rw [waited, elapsed_shift, waited]

section ShiftedFields
variable (s : State)
@[simp] theorem shiftTime_lines : (shiftTime c d s).lines = s.lines := rfl
@[simp] theorem shiftTime_seq : (shiftTime c d s).seq = s.seq := rfl
@[simp] theorem shiftTime_env : (shiftTime c d s).env = s.env := rfl
@[simp] theorem shiftTime_t100 : (shiftTime c d s).time.t100 = s.time.t100 + c := rfl
@[simp] theorem shiftTime_t10ms : (shiftTime c d s).time.t10ms = s.time.t10ms + d := rfl
@[simp] theorem shiftTime_t0 : (shiftTime c d s).hid.t0 = s.hid.t0 + c := rfl
@[simp] theorem shiftTime_t0a : (shiftTime c d s).hid.t0a = s.hid.t0a + d := rfl
end ShiftedFields

/-- No instruction reads a counter or a snapshot. -/
theorem exec_shiftTime (i : Instr) (s : State) : exec i (shiftTime c d s) = shiftResult c d (exec i s) := by
  cases i with
  | stateOff | stateSend | stateRecv | wireRead _ _ _ _ | wireWrite _ _ _ _ => rfl
  | sendByte b => simp only [exec, execSendByte, apply_ite (shiftResult c d)]; rfl
  | recvByte => simp only [exec, execRecvByte, apply_ite (shiftResult c d)]; rfl
  | sendByteBoot b => simp only [exec, execSendByteBoot, apply_ite (shiftResult c d)]; rfl
  | isAlive timeout => simp only [exec, execIsAlive, apply_ite (shiftResult c d)]; rfl
  | resetDevice mode => simp only [exec, execResetDevice, apply_ite (shiftResult c d)]; rfl
  | generic cmd outSize ins => simp only [exec, execGeneric, apply_ite (shiftResult c d)]; rfl
  | recvBlock mode bank offset length crc => simp only [exec, execRecvBlock, apply_ite (shiftResult c d)]; rfl
  | sendBlock mode bank offset length crc => simp only [exec, execSendBlock, apply_ite (shiftResult c d)]; rfl
  | paramWr idx val => simp only [exec, execParamWr]; cases paramOfIndex idx <;> rfl
  | paramRd idx => simp only [exec, execParamRd]; cases paramOfIndex idx <;> rfl
  | wireByteNormal b => simp only [exec, execWireByteNormal, shiftTime_lines]; cases s.lines.ls <;> rfl
  | wireByteBoot b => simp only [exec, execWireByteBoot, shiftTime_lines]; cases s.lines.ls <;> rfl

theorem sampleAck_shiftTime (s : State) :
    sampleAck (shiftTime c d s) = ((sampleAck s).1, shiftTime c d (sampleAck s).2) := by
  simp only [sampleAck, shiftTime_env]
  cases s.env.ackIn <;> rfl

theorem sampleData_shiftTime (s : State) :
    sampleData (shiftTime c d s) = ((sampleData s).1, shiftTime c d (sampleData s).2) := by
  simp only [sampleData, shiftTime_env]
  cases s.env.dataIn <;> rfl

/-- A statement reads a counter only to take a snapshot of it, or to subtract the snapshot from it. -/
theorem runMicro_shiftTime (m : Micro) (s : State) :
    runMicro m (shiftTime c d s) = shiftTime c d (runMicro m s) := by
  cases m with
  | ackPoll =>
    simp only [runMicro, ackPoll, sampleAck_shiftTime, shiftTime_t100, shiftTime_t0, exceeds_shift,
      apply_ite (shiftTime c d)]
    rfl
  | tickPoll p =>
    simp only [runMicro, shiftTime_t100, shiftTime_t0, waited_shift, apply_ite (shiftTime c d)]
    rfl
  | aliveTest level timeout =>
    simp only [runMicro, aliveTest, shiftTime_t10ms, shiftTime_t0a, exceeds_shift, apply_ite (shiftTime c d)]
    rfl
  | aliveSample level timeout =>
    simp only [runMicro, aliveSample, sampleAck_shiftTime]
    rfl
  | rxSample =>
    simp only [runMicro, sampleData_shiftTime]
    rfl
  | byteEnd rx =>
    simp only [runMicro, byteEnd, apply_ite (shiftTime c d)]
    rfl
  | check =>
    simp only [runMicro, checkStatus, apply_ite (shiftTime c d)]
    rfl
  | sendLoop n =>
    simp only [runMicro, sendLoop, apply_ite (shiftTime c d)]
    rfl
  | accSend b =>
    simp only [runMicro, accSend, apply_ite (shiftTime c d)]
    rfl
  | recvLoop n =>
    simp only [runMicro, recvLoop, apply_ite (shiftTime c d)]
    rfl
  | accRecv =>
    simp only [runMicro, accRecv, apply_ite (shiftTime c d)]
    rfl
  | genLoop n =>
    simp only [runMicro, genLoop, apply_ite (shiftTime c d)]
    rfl
  | pull =>
    simp only [runMicro, hostPull, shiftTime_env]
    cases s.env.pullIn with
    | nil => rfl
    | cons answer rest =>
      simp only [apply_ite (shiftTime c d)]
      rfl
  | push b =>
    simp only [runMicro, hostPush, shiftTime_env]
    cases s.env.pushIn with
    | nil => rfl
    | cons answer rest =>
      simp only [apply_ite (shiftTime c d)]
      rfl
  | _ => rfl

theorem takePacket_shiftTime (s : State) : takePacket (shiftTime c d s) = shiftResult c d (takePacket s) := by
  simp only [takePacket, shiftTime_env]
  cases s.env.packets with
  | nil => rfl
  | cons p rest =>
    cases hi : decodePacket p with
    | ok i => simp only [hi, ← exec_shiftTime]; rfl
    | error e => simp only [hi]; rfl

theorem runSeq_shiftTime (s : State) : runSeq (shiftTime c d s) = shiftResult c d (runSeq s) := by
  simp only [runSeq, shiftTime_seq]
  split
  · rfl
  · next i k hk => rw [← exec_shiftTime]; rfl
  · next m k hw hk => rw [shiftResult, ← runMicro_shiftTime]; rfl

/-- The same shift of a counter and its snapshot passes through an Engine step. -/
theorem engineStep_shiftTime (s : State) : engineStep (shiftTime c d s) = shiftResult c d (engineStep s) := by
  simp only [engineStep, apply_ite (shiftResult c d), ← runSeq_shiftTime, ← takePacket_shiftTime]
  rfl

/-- So does a tick. -/
theorem tick_shiftTime (s : State) : tick (shiftTime c d s) = shiftTime c d (tick s) := by
  simp only [tick, shiftTime, add_right_comm _ _ (1#16), apply_ite (· + d)]

end Shift

/-- Settles O52: an Engine step and a tick pass the shift on. -/
theorem absoluteTimeIsInvisible : Obligations.AbsoluteTimeIsInvisible := by
  intro c d s t
  refine ⟨fun h => ?_, fun r h => ?_, tick_shiftTime c d s⟩
  · rw [engineStep_shiftTime, h, shiftResult]
  · rw [engineStep_shiftTime, h, shiftResult]

end Sys2Proof.Machine
end

/-! PROOF. Polling density (R61 b, R200): a tick is a step of the Timebase alone and owes a poll; in a wait the owed poll
holds the next tick back until the Engine runs a poll. -/

namespace Sys2Proof.Machine

/-! ## Statements of the waits -/

theorem isPoll_iff (m : Micro) : isPoll m = true ↔
    m = .ackPoll ∨ (∃ p, m = .tickPoll p) ∨ (∃ level timeout, m = .aliveTest level timeout) ∨
      ∃ level timeout, m = .aliveSample level timeout := by
  cases m <;> simp [isPoll]

theorem inWait_iff (m : Micro) :
    inWait m = true ↔ isPoll m = true ∨ m = .snap ∨ ∃ level, m = .aliveClk level := by
  cases m <;> simp [inWait, isPoll]

theorem inWait_of_waiting {s : State} {m : Micro} {k : List Micro} (hw : waiting s = true)
    (hk : s.seq.todo = m :: k) : inWait m = true := by
  simpa [waiting, hk] using hw

theorem tickHeld_of_owed {s : State} (hb : s.rsp.busy = true) (hw : waiting s = true) (hp : s.env.polled = false) :
    tickHeld s = true := by
  simp [tickHeld, hb, hw, hp]

/-! ## Only the Timebase ticks -/

/-- A statement shows the event of its own write or sample, or none. -/
theorem runMicro_event_ne_tick (m : Micro) {s : State} (hs : s.env.event ≠ .tick) :
    (runMicro m s).env.event ≠ .tick := by
  cases m with
  | ackPoll =>
    obtain ⟨a, r, d, -, h⟩ := ackPoll_spec s
    simp [runMicro, h]
  | rxSample =>
    obtain ⟨v, r, d, h, -⟩ := sampleData_spec s
    simp [runMicro, h]
  | byteEnd rx =>
    obtain ⟨v, d, h, -⟩ := byteEnd_spec rx s
    simpa [runMicro, h] using hs
  | tickPoll p => simp only [runMicro]; split <;> exact hs
  | aliveTest level timeout =>
    rcases aliveTest_spec level timeout s with ⟨h, -⟩ | ⟨h, -⟩ | h <;> simpa [runMicro, h] using hs
  | aliveSample level timeout =>
    obtain ⟨a, r, d, h⟩ := aliveSample_spec level timeout s
    simp [runMicro, h]
  | check => simpa [runMicro, checkStatus_spec] using hs
  | sendLoop n => simpa [runMicro, sendLoop_spec] using hs
  | pull =>
    rcases hostPull_spec s with ⟨-, h⟩ | ⟨b, e, r, -, h⟩
    · simpa [runMicro, h] using hs
    · simp [runMicro, h]
  | accSend b => simpa [runMicro, accSend_spec] using hs
  | recvLoop n => simpa [runMicro, recvLoop_spec] using hs
  | accRecv => simpa [runMicro, accRecv_spec] using hs
  | push b =>
    rcases hostPush_spec b s with ⟨-, h⟩ | ⟨e, r, -, h⟩
    · simpa [runMicro, h] using hs
    · simp [runMicro, h]
  | genLoop n => simpa [runMicro, genLoop_spec] using hs
  | line _ | latchData _ | latchClk _ | latchAck _ | resetDrive _ | knock _ | txData _ _ | phaseClk _ | aliveClk _
  | exit => exact Event.noConfusion
  | wire _ | snap | settle | snapAlive | startData | sendChk | latchDevchk | genSize | genStore | paramWr _ _ | refuse
  | completeOk | completeRet | completeRecv | completeWord _ | completeGeneric | completeBlock => exact hs

/-- Taking an instruction is silent, so it shows no tick after the quiet beginning of an Engine step. -/
theorem exec_event_ne_tick {i : Instr} {s t : State} (h : exec i s = .next t) (hs : s.env.event ≠ .tick) :
    t.env.event ≠ .tick := by
  obtain ⟨-, -, -, -, -, henv, -, -⟩ := exec_frame h
  rwa [henv]

theorem engineStep_event_ne_tick {s t : State} (h : engineStep s = .next t) : t.env.event ≠ .tick := by
  cases hb : s.rsp.busy with
  | false =>
    rcases engineStep_idle_cases hb h with ⟨-, rfl⟩ | ⟨p, rest, -, ⟨i, -, hx⟩ | ⟨e, -, rfl⟩⟩
    · exact Event.noConfusion
    · exact exec_event_ne_tick hx Event.noConfusion
    · exact Event.noConfusion
  | true =>
    rcases engineStep_busy_cases hb h with ⟨i, k, -, hx⟩ | ⟨m, k, -, -, rfl⟩
    · exact exec_event_ne_tick hx Event.noConfusion
    · exact runMicro_event_ne_tick m Event.noConfusion

/-- A step that shows a tick is the Timebase's, and it owes a poll. -/
theorem polled_of_step_tick {s t : State} (h : step s = .next t) (he : t.env.event = .tick) :
    t.env.polled = false := by
  obtain ⟨u, sched, draws, -, hcase⟩ := step_cases h
  rcases hcase with hengine | ⟨-, rfl⟩ | ⟨m, rfl⟩ | ⟨m, rfl⟩ | rfl
  · exact absurd he (engineStep_event_ne_tick hengine)
  · rfl
  · rw [hostStep_event] at he; cases he
  · rw [deviceStep_event] at he; cases he
  · cases he

/-! ## The owed poll -/

@[simp] theorem hostStep_polled (m : HostMove) (s : State) : (hostStep m s).env.polled = s.env.polled := by
  cases m <;> rfl

@[simp] theorem deviceStep_polled (m : DeviceMove) (s : State) : (deviceStep m s).env.polled = s.env.polled := by
  cases m <;> rfl

/-- The Engine in a wait polls, or it takes the snapshot or writes the clock, which pay no poll. -/
theorem engineStep_waiting_polled {s t : State} (h : engineStep s = .next t) (hb : s.rsp.busy = true)
    (hw : waiting s = true) :
    t.env.polled = s.env.polled ∨ ∃ m k, s.seq.todo = m :: k ∧ isPoll m = true := by
  rcases engineStep_busy_cases hb h with ⟨i, k, hk, -⟩ | ⟨m, k, hk, -, rfl⟩
  · cases inWait_of_waiting hw hk
  · rcases (inWait_iff m).mp (inWait_of_waiting hw hk) with hpoll | rfl | ⟨level, rfl⟩
    · exact .inr ⟨m, k, hk, hpoll⟩
    · exact .inl rfl
    · exact .inl rfl

/-- Settles O51, agent by agent: a tick is held while a poll is owed, the Engine's statement in a wait is a poll or
leaves it owed, and the Host and the Device do not touch it. -/
theorem enginePollsBetweenTicks : Obligations.EnginePollsBetweenTicks := by
  refine ⟨fun s t h => polled_of_step_tick h, fun s t hb hw hp h => ?_⟩
  obtain ⟨u, sched, draws, rfl, hcase⟩ := step_cases h
  rcases hcase with hengine | ⟨hfree, -⟩ | ⟨m, rfl⟩ | ⟨m, rfl⟩ | rfl
  · refine ⟨engineStep_event_ne_tick hengine, fun _ => (engineStep_time hengine :), ?_⟩
    rcases engineStep_waiting_polled hengine hb hw with hkeep | ⟨m, k, hk, hpoll⟩
    · exact .inl (hkeep.trans hp)
    · exact .inr (.inr ⟨m, k, hk, (isPoll_iff m).mp hpoll⟩)
  · rw [tickHeld_of_owed hb hw hp] at hfree
    cases hfree
  · exact ⟨by simp, fun _ => by simp, .inl (by simpa using hp)⟩
  · exact ⟨by simp, fun _ => by simp, .inl (by simpa using hp)⟩
  · exact ⟨Event.noConfusion, fun hreset => absurd rfl hreset, .inr (.inl rfl)⟩

end Sys2Proof.Machine

/-! PROOF. The codes (R70 to R74, R82 to R85): each format reads exactly the bytes it writes, decoding and encoding are
inverse to each other in the three code spaces, and what that says of the packets that are commands (R76 a, b) and of
the response to each (R78). -/

namespace Sys2Proof.Machine

open Sys2Proof.Safety

/-! ## Words of two bytes (R71) -/

@[simp] theorem le16_lowByte_highByte (w : Word) : le16 (lowByte w) (highByte w) = w := by
  apply BitVec.eq_of_toNat_eq
  simp only [le16, lowByte, highByte, BitVec.toNat_append, BitVec.extractLsb'_toNat, ← Nat.shiftLeft_add_eq_or_of_lt
    (Nat.mod_lt _ (by decide : 2 ^ 8 > 0))]
  omega

@[simp] theorem lowByte_le16 (lo hi : Byte) : lowByte (le16 lo hi) = lo := BitVec.extractLsb'_append_eq_right

@[simp] theorem highByte_le16 (lo hi : Byte) : highByte (le16 lo hi) = hi := BitVec.extractLsb'_append_eq_left

/-! ## What each format reads (R72) -/

section Formats
variable {op : Byte} {rest : List Byte} {j : Instr}

theorem formatF0_eq_ok {i : Instr} : formatF0 op i rest = .ok j ↔ rest = [] ∧ i = j := by
  cases rest <;> simp [formatF0]

theorem formatF1_eq_ok {f : Byte → Instr} : formatF1 op f rest = .ok j ↔ ∃ b, rest = [b] ∧ f b = j := by
  unfold formatF1
  split
  · simp
  · next hne => simpa using fun b hb => absurd hb (hne b)

theorem formatF2_eq_ok {f : Word → Instr} :
    formatF2 op f rest = .ok j ↔ ∃ lo hi, rest = [lo, hi] ∧ f (le16 lo hi) = j := by
  unfold formatF2
  split
  · simp
  · next hne => simpa using fun lo hi h => absurd h (hne lo hi)

theorem formatFP_eq_ok {f : Byte → Word → Instr} :
    formatFP op f rest = .ok j ↔ ∃ idx lo hi, rest = [idx, lo, hi] ∧ f idx (le16 lo hi) = j := by
  unfold formatFP
  split
  · simp
  · next hne => simpa using fun idx lo hi h => absurd h (hne idx lo hi)

theorem formatFB_eq_ok {f : Byte → Byte → Word → Word → Word → Instr} :
    formatFB op f rest = .ok j ↔ ∃ mode bank ol oh ll lh cl ch, rest = [mode, bank, ol, oh, ll, lh, cl, ch] ∧
      f mode bank (le16 ol oh) (le16 ll lh) (le16 cl ch) = j := by
  unfold formatFB
  split
  · simp
  · next hne => simpa using fun mode bank ol oh ll lh cl ch h => absurd h (hne mode bank ol oh ll lh cl ch)

theorem formatFG_eq_ok {f : Byte → Byte → List Byte → Instr} :
    formatFG op f rest = .ok j ↔ ∃ cmd outSize nIn ins, rest = cmd :: outSize :: nIn :: ins ∧
      ins.length = nIn.toNat ∧ f cmd outSize ins = j := by
  unfold formatFG
  split
  · next cmd outSize nIn ins =>
    split
    · next hlen => simp [hlen]
    · next hlen => simpa using fun hlen' => absurd hlen' hlen
  · next hne => simpa using fun cmd outSize nIn ins h => absurd h (hne cmd outSize nIn ins)

/-! ## A format writes what it read -/

theorem encode_of_formatF0 {i : Instr} (hi : encode i = .packet [op]) (h : formatF0 op i rest = .ok j) :
    encode j = .packet (op :: rest) := by
  obtain ⟨rfl, rfl⟩ := formatF0_eq_ok.mp h
  exact hi

theorem encode_of_formatF1 {f : Byte → Instr} (hf : ∀ b, encode (f b) = .packet [op, b])
    (h : formatF1 op f rest = .ok j) : encode j = .packet (op :: rest) := by
  obtain ⟨b, rfl, rfl⟩ := formatF1_eq_ok.mp h
  exact hf b

theorem encode_of_formatF2 {f : Word → Instr} (hf : ∀ w, encode (f w) = .packet [op, lowByte w, highByte w])
    (h : formatF2 op f rest = .ok j) : encode j = .packet (op :: rest) := by
  obtain ⟨lo, hi, rfl, rfl⟩ := formatF2_eq_ok.mp h
  simp [hf]

theorem encode_of_formatFP {f : Byte → Word → Instr}
    (hf : ∀ idx w, encode (f idx w) = .packet [op, idx, lowByte w, highByte w])
    (h : formatFP op f rest = .ok j) : encode j = .packet (op :: rest) := by
  obtain ⟨idx, lo, hi, rfl, rfl⟩ := formatFP_eq_ok.mp h
  simp [hf]

theorem encode_of_formatFB {f : Byte → Byte → Word → Word → Word → Instr}
    (hf : ∀ mode bank o l c, encode (f mode bank o l c) = .packet (op :: blockBytes mode bank o l c))
    (h : formatFB op f rest = .ok j) : encode j = .packet (op :: rest) := by
  obtain ⟨mode, bank, ol, oh, ll, lh, cl, ch, rfl, rfl⟩ := formatFB_eq_ok.mp h
  simp [hf, blockBytes]

theorem encode_of_formatFG {f : Byte → Byte → List Byte → Instr}
    (hf : ∀ cmd n ins, encode (f cmd n ins) = .packet (op :: cmd :: n :: BitVec.ofNat 8 ins.length :: ins))
    (h : formatFG op f rest = .ok j) : encode j = .packet (op :: rest) := by
  obtain ⟨cmd, outSize, nIn, ins, rfl, hlen, rfl⟩ := formatFG_eq_ok.mp h
  simp [hf, hlen]

end Formats

/-! ## Packets (R70 to R74) -/

/-- A packet that decodes is the code of its command. -/
theorem encode_of_decodePacket {p : List Byte} {i : Instr} (h : decodePacket p = .ok i) : encode i = .packet p := by
  cases p with
  | nil => cases h
  | cons op rest =>
    simp only [decodePacket] at h
    revert h
    refine ite_ok_imp (fun ho => ho ▸ encode_of_formatF0 rfl) ?_
    refine ite_ok_imp (fun ho => ho ▸ encode_of_formatF0 rfl) ?_
    refine ite_ok_imp (fun ho => ho ▸ encode_of_formatF0 rfl) ?_
    refine ite_ok_imp (fun ho => ho ▸ encode_of_formatF1 fun _ => rfl) ?_
    refine ite_ok_imp (fun ho => ho ▸ encode_of_formatF0 rfl) ?_
    refine ite_ok_imp (fun ho => ho ▸ encode_of_formatF1 fun _ => rfl) ?_
    refine ite_ok_imp (fun ho => ho ▸ encode_of_formatF2 fun _ => rfl) ?_
    refine ite_ok_imp (fun ho => ho ▸ encode_of_formatF1 fun _ => rfl) ?_
    refine ite_ok_imp (fun ho => ho ▸ encode_of_formatFG fun _ _ _ => rfl) ?_
    refine ite_ok_imp (fun ho => ho ▸ encode_of_formatFB fun _ _ _ _ _ => rfl) ?_
    refine ite_ok_imp (fun ho => ho ▸ encode_of_formatFB fun _ _ _ _ _ => rfl) ?_
    refine ite_ok_imp (fun ho => ho ▸ encode_of_formatFP fun _ _ => rfl) ?_
    refine ite_ok_imp (fun ho => ho ▸ encode_of_formatF1 fun _ => rfl) ?_
    exact nofun

/-! ## Frame headers (R84, R85, R133) -/

/-- A header that decodes is the code of its frame. -/
theorem encode_of_decodeFrame {p : List Byte} {i : Instr} (h : decodeFrame p = .ok i) : encode i = .frame p := by
  unfold decodeFrame at h
  split at h
  · next op mode bank ol oh ll lh =>
    revert h
    refine ite_ok_imp (fun hread h => ?_) (ite_ok_imp (fun hwrite h => ?_) nofun)
    · cases h; simp [encode, headerBytes, hread]
    · cases h; simp [encode, headerBytes, hwrite]
  · cases h

/-! ## The levels of four phases (R82, R83) -/

/-- The byte that the groups of the normal mode carry (R82). -/
def normalByte (w : BitVec 16) : Byte := w.extractLsb' 13 3 ++ w.extractLsb' 9 3 ++ w.extractLsb' 5 2

/-- The byte that the groups of the boot mode carry (R83). -/
def bootByte (w : BitVec 16) : Byte :=
  w.extractLsb' 13 2 ++ w.extractLsb' 9 2 ++ w.extractLsb' 5 2 ++ w.extractLsb' 1 2

theorem decodePhases_eq (w : BitVec 16) : decodePhases w =
    if w &&& normalMask = normalMatch then .ok (.wireByteNormal (normalByte w))
    else if w &&& bootMask = bootMatch then .ok (.wireByteBoot (bootByte w))
    else .error .unknownPhases := rfl

theorem normal_fixed_bits (b : Byte) : phaseWord false b &&& normalMask = normalMatch := by
  revert b; decide

theorem boot_fixed_bits (b : Byte) : phaseWord true b &&& bootMask = bootMatch := by
  revert b; decide

theorem boot_not_normal (b : Byte) : phaseWord true b &&& normalMask ≠ normalMatch := by
  revert b; decide

theorem normalByte_phaseWord (b : Byte) : normalByte (phaseWord false b) = b := by
  revert b; decide

theorem bootByte_phaseWord (b : Byte) : bootByte (phaseWord true b) = b := by
  revert b; decide

/-- A word is known from its bits outside a mask and from what it shows under the mask. -/
theorem eq_of_bits_under_mask {v w mask shown : BitVec 16} (h : w &&& mask = shown)
    (hv : ∀ k < 16, v.getLsbD k = if mask.getLsbD k then shown.getLsbD k else w.getLsbD k) : v = w := by
  apply BitVec.eq_of_getLsbD_eq
  intro k hk
  rw [hv k hk]
  split
  · next hmask => rw [← h, BitVec.getLsbD_and, hmask, Bool.and_true]
  · rfl

/-- The pattern `aaa0bbb10cc01111`: eight bits are fixed, the other eight are the byte's. -/
theorem getLsbD_phaseWord_normalByte (w : BitVec 16) {k : Nat} (hk : k < 16) :
    (phaseWord false (normalByte w)).getLsbD k =
      if normalMask.getLsbD k then normalMatch.getLsbD k else w.getLsbD k := by
  interval_cases k <;>
    simp +decide [phaseWord, txGroup, normalGroup, normalByte, phaseLevel, @BitVec.getLsbD_append 12 4,
      @BitVec.getLsbD_append 8 4, @BitVec.getLsbD_append 4 4, @BitVec.getLsbD_append 3 1,
      @BitVec.getLsbD_append 1 2, @BitVec.getLsbD_append 6 2, @BitVec.getLsbD_append 3 3,
      BitVec.getLsbD_extractLsb', -BitVec.getLsbD_eq_getElem]

/-- The pattern `0aa00bb10cc00dd1`, likewise. -/
theorem getLsbD_phaseWord_bootByte (w : BitVec 16) {k : Nat} (hk : k < 16) :
    (phaseWord true (bootByte w)).getLsbD k = if bootMask.getLsbD k then bootMatch.getLsbD k else w.getLsbD k := by
  interval_cases k <;>
    simp +decide [phaseWord, txGroup, bootGroup, bootByte, phaseLevel, @BitVec.getLsbD_append 12 4,
      @BitVec.getLsbD_append 8 4, @BitVec.getLsbD_append 4 4, @BitVec.getLsbD_append 3 1,
      @BitVec.getLsbD_append 1 2, @BitVec.getLsbD_append 6 2, @BitVec.getLsbD_append 4 2, @BitVec.getLsbD_append 2 2,
      BitVec.getLsbD_extractLsb', -BitVec.getLsbD_eq_getElem]

theorem phaseWord_normalByte {w : BitVec 16} (h : w &&& normalMask = normalMatch) :
    phaseWord false (normalByte w) = w :=
  eq_of_bits_under_mask h fun _ hk => getLsbD_phaseWord_normalByte w hk

theorem phaseWord_bootByte {w : BitVec 16} (h : w &&& bootMask = bootMatch) : phaseWord true (bootByte w) = w :=
  eq_of_bits_under_mask h fun _ hk => getLsbD_phaseWord_bootByte w hk

/-- Levels that decode are the code of their byte. -/
theorem encode_of_decodePhases {w : BitVec 16} {i : Instr} (h : decodePhases w = .ok i) : encode i = .phases w := by
  rw [decodePhases_eq] at h
  revert h
  refine ite_ok_imp (fun hnormal h => ?_) (ite_ok_imp (fun hboot h => ?_) nofun)
  · cases h; rw [encode, phaseWord_normalByte hnormal]
  · cases h; rw [encode, phaseWord_bootByte hboot]

theorem decodePhases_normal (b : Byte) : decodePhases (phaseWord false b) = .ok (.wireByteNormal b) := by
  rw [decodePhases_eq, if_pos (normal_fixed_bits b), normalByte_phaseWord]

theorem decodePhases_boot (b : Byte) : decodePhases (phaseWord true b) = .ok (.wireByteBoot b) := by
  rw [decodePhases_eq, if_neg (boot_not_normal b), if_pos (boot_fixed_bits b), bootByte_phaseWord]

/-! ## Decoding and encoding -/

/-- Settles O2, code space by code space. -/
theorem encodingADecodingGivesTheCode : Obligations.EncodingADecodingGivesTheCode := by
  intro c i h
  cases c with
  | packet p => exact encode_of_decodePacket h
  | frame p => exact encode_of_decodeFrame h
  | phases w => exact encode_of_decodePhases h

/-- A legal GENERIC has at most 16 input bytes (R74), so its `n_in` byte holds their number. -/
theorem genericInputs_fit {ins : List Byte} (h : genericInputsOK ins = true) :
    ins.length = (BitVec.ofNat 8 ins.length).toNat := by
  have hmax := genInMax_le
  have hlen : ins = [] ∨ ins.length ≤ Config.genInMax := by simpa [genericInputsOK] using h
  rw [BitVec.toNat_ofNat]
  rcases hlen with rfl | hlen
  · rfl
  · omega

/-- Settles O1: a packet's format reads back the operands it was written from, and so does a frame's header; the byte
of four phases is read from its groups. -/
theorem decodingAnEncodingGivesTheInstruction : Obligations.DecodingAnEncodingGivesTheInstruction := by
  intro i hwf
  cases i with
  | stateOff => rfl
  | stateSend => rfl
  | stateRecv => rfl
  | sendByte b => rfl
  | recvByte => rfl
  | sendByteBoot b => rfl
  | isAlive timeout => exact formatF2_eq_ok (op := opIsAlive) |>.mpr ⟨_, _, rfl, by simp⟩
  | resetDevice mode => rfl
  | generic cmd outSize ins =>
    exact formatFG_eq_ok (op := opGeneric) |>.mpr ⟨_, _, _, _, rfl, genericInputs_fit hwf, rfl⟩
  | recvBlock mode bank offset length crc =>
    exact formatFB_eq_ok (op := opRecvBlock) |>.mpr ⟨_, _, _, _, _, _, _, _, rfl, by simp⟩
  | sendBlock mode bank offset length crc =>
    exact formatFB_eq_ok (op := opSendBlock) |>.mpr ⟨_, _, _, _, _, _, _, _, rfl, by simp⟩
  | paramWr idx val => exact formatFP_eq_ok (op := opParamWr) |>.mpr ⟨_, _, _, rfl, by simp⟩
  | paramRd idx => rfl
  | wireRead mode bank offset length => simp [decode, encode, decodeFrame, headerBytes]
  | wireWrite mode bank offset length => simp [decode, encode, decodeFrame, headerBytes, wireOpRead, wireOpWrite]
  | wireByteNormal b => exact decodePhases_normal b
  | wireByteBoot b => exact decodePhases_boot b

/-- Settles O3, by evaluating the decoder. -/
theorem writtenWordsDecode : Obligations.WrittenWordsDecode := by
  refine ⟨rfl, rfl, rfl, rfl, rfl, rfl, rfl, ?_, ?_⟩ <;> decide

/-! ## The packets that are commands (R76 a, b) -/

/-- The opcodes of F0 (R73). -/
def opcodesF0 : List Byte := [opStateOff, opStateSend, opStateRecv, opRecvByte]
/-- The opcodes of F1. -/
def opcodesF1 : List Byte := [opSendByte, opSendByteBoot, opResetDevice, opParamRd]
/-- The opcodes of FB. -/
def opcodesFB : List Byte := [opRecvBlock, opSendBlock]

theorem decodePacket_opcodesF0 {op : Byte} (h : op ∈ opcodesF0) : ∃ i, decodePacket [op] = .ok i := by
  simp only [opcodesF0, List.mem_cons, List.not_mem_nil, or_false] at h
  rcases h with rfl | rfl | rfl | rfl <;> exact ⟨_, rfl⟩

theorem decodePacket_opcodesF1 {op : Byte} (h : op ∈ opcodesF1) (b : Byte) : ∃ i, decodePacket [op, b] = .ok i := by
  simp only [opcodesF1, List.mem_cons, List.not_mem_nil, or_false] at h
  rcases h with rfl | rfl | rfl | rfl <;> exact ⟨_, rfl⟩

theorem decodePacket_opcodesFB {op : Byte} (h : op ∈ opcodesFB) (mode bank ol oh ll lh cl ch : Byte) :
    ∃ i, decodePacket [op, mode, bank, ol, oh, ll, lh, cl, ch] = .ok i := by
  simp only [opcodesFB, List.mem_cons, List.not_mem_nil, or_false] at h
  rcases h with rfl | rfl <;> exact ⟨_, rfl⟩

theorem decodePacket_generic (rest : List Byte) :
    decodePacket (opGeneric :: rest) = formatFG opGeneric .generic rest := rfl

/-- A packet with a command's opcode and the length of its format decodes. -/
theorem decodePacket_of_length {op : Byte} {rest : List Byte}
    (h : (op ∈ opcodesF0 ∧ (op :: rest).length = 1) ∨ (op ∈ opcodesF1 ∧ (op :: rest).length = 2) ∨
      (op = opIsAlive ∧ (op :: rest).length = 3) ∨ (op = opParamWr ∧ (op :: rest).length = 4) ∨
      (op ∈ opcodesFB ∧ (op :: rest).length = 9)) : ∃ i, decodePacket (op :: rest) = .ok i := by
  rcases h with ⟨hop, hlen⟩ | ⟨hop, hlen⟩ | ⟨rfl, hlen⟩ | ⟨rfl, hlen⟩ | ⟨hop, hlen⟩
  · match rest, hlen with
    | [], _ => exact decodePacket_opcodesF0 hop
  · match rest, hlen with
    | [b], _ => exact decodePacket_opcodesF1 hop b
  · match rest, hlen with
    | [_, _], _ => exact ⟨_, rfl⟩
  · match rest, hlen with
    | [_, _, _], _ => exact ⟨_, rfl⟩
  · match rest, hlen with
    | [mode, bank, ol, oh, ll, lh, cl, ch], _ => exact decodePacket_opcodesFB hop mode bank ol oh ll lh cl ch

/-- Settles O4: a packet that decodes is the code of its command, which has the length of its format; and a format
reads every packet of its length. -/
theorem packetsThatDecode : Obligations.PacketsThatDecode := by
  intro p
  constructor
  · rintro ⟨i, hi⟩
    have hcode := encode_of_decodePacket hi
    cases i with
    | stateOff | stateSend | stateRecv | recvByte =>
      cases hcode; exact ⟨_, _, rfl, .inl ⟨by decide, rfl⟩⟩
    | sendByte _ | sendByteBoot _ | resetDevice _ | paramRd _ =>
      cases hcode; exact ⟨_, _, rfl, .inr (.inl ⟨by decide, rfl⟩)⟩
    | isAlive _ => cases hcode; exact ⟨_, _, rfl, .inr (.inr (.inl ⟨rfl, rfl⟩))⟩
    | paramWr _ _ => cases hcode; exact ⟨_, _, rfl, .inr (.inr (.inr (.inl ⟨rfl, rfl⟩)))⟩
    | recvBlock _ _ _ _ _ | sendBlock _ _ _ _ _ =>
      cases hcode; exact ⟨_, _, rfl, .inr (.inr (.inr (.inr (.inl ⟨by decide, rfl⟩))))⟩
    | generic _ _ _ =>
      cases hcode
      rw [decodePacket_generic, formatFG_eq_ok] at hi
      obtain ⟨cmd, outSize, nIn, ins, hrest, hlen, -⟩ := hi
      exact ⟨_, _, rfl, .inr (.inr (.inr (.inr (.inr ⟨rfl, cmd, outSize, nIn, ins, hrest, hlen⟩))))⟩
    | wireRead _ _ _ _ | wireWrite _ _ _ _ | wireByteNormal _ | wireByteBoot _ => cases hcode
  · rintro ⟨op, rest, rfl, h | h | h | h | h | ⟨rfl, cmd, outSize, nIn, ins, rfl, hlen⟩⟩
    · exact decodePacket_of_length (.inl h)
    · exact decodePacket_of_length (.inr (.inl h))
    · exact decodePacket_of_length (.inr (.inr (.inl h)))
    · exact decodePacket_of_length (.inr (.inr (.inr (.inl h))))
    · exact decodePacket_of_length (.inr (.inr (.inr (.inr h))))
    · exact ⟨_, (decodePacket_generic _).trans (formatFG_eq_ok.mpr ⟨cmd, outSize, nIn, ins, rfl, hlen, rfl⟩)⟩

/-! ## Status codes (R79) -/

/-- R79's constraint as two facts: the open codes differ from each other, and none is one of the five fixed codes. -/
theorem codes_legal_iff (c : Config.Codes) :
    c.legal = true ↔ c.toList.Nodup ∧ ∀ x ∈ c.toList, 4 < x.toNat := by
  simp [Config.Codes.legal]

/-- Settles O5: the fixed codes are at most 4 and the open ones are above. -/
theorem statusCodesAreDistinct : Obligations.StatusCodesAreDistinct := by
  obtain ⟨hopen, habove⟩ := (codes_legal_iff _).mp codes_legal
  refine ⟨rfl, rfl, rfl, rfl, rfl, ?_⟩
  have hfixed : [stOk, noAck .p1, noAck .p2, noAck .p3, noAck .p4].Nodup := by decide
  have hsmall : ∀ x ∈ [stOk, noAck .p1, noAck .p2, noAck .p3, noAck .p4], x.toNat ≤ 4 := by decide
  refine List.nodup_append.mpr ⟨hfixed, hopen, fun x hx y hy hxy => ?_⟩
  have hle := hsmall x hx
  have hlt := habove y hy
  rw [hxy] at hle
  omega

/-! ## The response (R78) -/

/-- The response of a command that was not refused, whose packet is known. -/
theorem response_of_packet {s : State} {p : List Byte} (hill : s.rsp.ill = false) (hp : s.seq.packet = p) :
    response s = 0x00#8 :: s.rsp.status :: payload { s with seq.packet := p } := by
  subst hp
  simp only [response, hill]
  rfl

/-- Settles O6: a packet that decodes is its command's code, and the payload goes by the opcode. -/
theorem responsePackets : Obligations.ResponsePackets := by
  refine ⟨fun s hill => if_pos hill, fun s i hi _ hill => ?_⟩
  have hcode := encode_of_decodePacket hi
  cases i with
  | wireRead _ _ _ _ | wireWrite _ _ _ _ | wireByteNormal _ | wireByteBoot _ => cases hcode
  | _ => exact response_of_packet hill (Code.packet.inj hcode).symm

end Sys2Proof.Machine

/-! PROOF. Refusal (R76): a packet that is no command, a command in a line state it does not require (R104) and a
command with operands outside its bounds (R75, R132) are taken and refused. -/

namespace Sys2Proof.Machine

open Sys2Proof.Safety

/-- What is taken to be refused is refused in the next Engine step, without an event. -/
theorem reaches_refusal (s : State) : EngineReaches (reject s) [] (refusedState s) :=
  engineReaches_quiet (engineStep_statement rfl rfl nofun) rfl (engineReaches_refl _)

theorem refused_of_exec {i : Instr} {s : State} (h : exec i s = .next (reject s)) : Refused i s :=
  ⟨reject s, h, rfl, reaches_refusal s⟩

/-- A block command or GENERIC whose precondition fails is to be refused. -/
theorem exec_eq_reject {i : Instr} {s : State} (hop : clearingOpcode (commandOpcode i))
    (hf : startsFresh i s = false) : exec i s = .next (reject s) := by
  have taken {op : Byte} (h : commandOpcode i = some op) : exec i s = .next (reject s) := by
    obtain ⟨t, ht, -⟩ := exec_command h s
    rw [ht, exec_rejects hop hf ht]
  rcases hop with h | h | h <;> exact taken h

/-- The required line state is tested before anything else is done (R104). -/
theorem exec_wrong_line {i : Instr} {s : State} {l : LineState} (hreq : requiredLine i = some l)
    (hl : s.lines.ls ≠ l) : exec i s = .next (reject s) := by
  cases i with
  | sendByte b => cases hreq; exact if_neg hl
  | recvByte => cases hreq; exact if_neg hl
  | sendByteBoot b => cases hreq; exact if_neg hl
  | isAlive timeout => cases hreq; exact if_neg hl
  | resetDevice mode => cases hreq; exact if_neg fun h => hl h.1
  | generic cmd outSize ins =>
    cases hreq; exact exec_eq_reject (.inl rfl) (by simp [startsFresh, genericReady, hl])
  | recvBlock mode bank offset length crc =>
    cases hreq; exact exec_eq_reject (.inr (.inl rfl)) (by simp [startsFresh, blockReady, hl])
  | sendBlock mode bank offset length crc =>
    cases hreq; exact exec_eq_reject (.inr (.inr rfl)) (by simp [startsFresh, blockReady, hl])
  | _ => cases hreq

theorem genericReady_of_too_many {ins : List Byte} (s : State) (h : Config.genInMax < ins.length) :
    genericReady ins s = false := by
  have hne : ins ≠ [] := List.ne_nil_of_length_pos (by omega)
  simp [genericReady, genericInputsOK, hne, h]

theorem blockOperandsOK_iff {offset length : Word} : blockOperandsOK offset length = true ↔
    offset.toNat < 0x4000 ∧ length.toNat ≤ 0x4000 ∧ offset.toNat + length.toNat ≤ 0x4000 := by
  simp only [blockOperandsOK, Bool.and_eq_true, decide_eq_true_eq, and_assoc]
  rfl

theorem blockReady_outside_bank {offset length : Word} (s : State)
    (h : ¬ (offset.toNat < 0x4000 ∧ length.toNat ≤ 0x4000 ∧ offset.toNat + length.toNat ≤ 0x4000)) :
    blockReady offset length s = false := by
  have hbad : blockOperandsOK offset length = false := Bool.eq_false_iff.mpr (mt blockOperandsOK_iff.mp h)
  rw [blockReady, hbad, Bool.and_false]

/-- Settles O43: each precondition is a test of `exec`, and a command that fails it is refused. -/
theorem wrongLineStateOrOperandsAreRefused : Obligations.WrongLineStateOrOperandsAreRefused := by
  refine ⟨fun s i l hreq hl => refused_of_exec (exec_wrong_line hreq hl), ?_⟩
  intro s mode bank cmd outSize offset length crc ins
  refine ⟨fun hmany => ?_, fun hout => ⟨?_, ?_⟩⟩
  · exact refused_of_exec (exec_eq_reject (.inl rfl) (genericReady_of_too_many s hmany))
  · exact refused_of_exec (exec_eq_reject (.inr (.inl rfl)) (blockReady_outside_bank s hout))
  · exact refused_of_exec (exec_eq_reject (.inr (.inr rfl)) (blockReady_outside_bank s hout))

/-- An idle Engine takes a packet that is no command, to refuse it. -/
theorem engineStep_undecodable {s : State} {p : List Byte} {rest : List (List Byte)} {e : DecodeError}
    (hb : s.rsp.busy = false) (hp : s.env.packets = p :: rest) (he : decodePacket p = .error e) :
    engineStep s = .next (reject { beginEngine true s with seq.packet := p, env.packets := rest }) := by
  have hidle : ¬ s.rsp.busy = true := by simp [hb]
  simp only [engineStep, if_neg hidle, takePacket, beginEngine_env_eq, hp, he]

/-- Settles O44: the step takes the packet, and the next Engine step refuses it. -/
theorem undecodablePacketIsRefused : Obligations.UndecodablePacketIsRefused := by
  intro s p rest ts e hb hs hp he
  refine ⟨_, (step_engineTurn hs).trans (engineStep_undecodable hb hp he), rfl, rfl, ?_⟩
  have hend := reaches_refusal { beginEngine true { s with env.sched := ts } with seq.packet := p, env.packets := rest }
  simpa [refusedState, beginEngine, hb] using hend

end Sys2Proof.Machine

/-! PROOF. Bytes and frames on the wires (R82 to R85): a byte order as its procedure runs it with every acknowledge, the
data loops of the two frames by induction on the bytes still to move (R134, R135), and the frames put together from
header, data and checksum. -/

namespace Sys2Proof.Machine

open Sys2Proof.Safety

/-! ## A byte order in its line state (R112 to R114) -/

theorem exec_wireByteNormal_send {s : State} (b : Byte) (hl : s.lines.ls = .send) :
    exec (.wireByteNormal b) s = .next (startByte b (txByte false) s) := by
  simp only [exec, execWireByteNormal, hl]

theorem exec_wireByteNormal_recv {s : State} (b : Byte) (hl : s.lines.ls = .recv) :
    exec (.wireByteNormal b) s = .next (startByte 0#8 rxByte s) := by
  simp only [exec, execWireByteNormal, hl]

theorem exec_wireByteBoot_send {s : State} (b : Byte) (hl : s.lines.ls = .send) :
    exec (.wireByteBoot b) s = .next (startByte b (txByte true) s) := by
  simp only [exec, execWireByteBoot, hl]

/-- Settles O11: the order starts `SendByte`, which runs its four phases. -/
theorem wireByteNormalSends : Obligations.WireByteNormalSends := by
  intro s b acks hb hl ha
  exact ⟨_, exec_wireByteNormal_send b hl, reaches_txByte (startByte b (txByte false) s) false _ acks hb rfl ha⟩

/-- Settles O12: the order starts `RecvByte` with `SR` at zero, and the three samples fill `SR`. -/
theorem wireByteNormalReceives : Obligations.WireByteNormalReceives := by
  intro s b acks d1 d2 d3 datas hb hl ha hd
  have hrun := reaches_rxByte (startByte 0#8 rxByte s) _ acks (d1, d2, d3) datas hb rfl ha hd rfl
  rw [rxPlace_all] at hrun
  exact ⟨_, exec_wireByteNormal_recv b hl, hrun⟩

/-- Settles O13: the order starts `SendByteBoot`, whose four phases all carry data. -/
theorem wireByteBootSends : Obligations.WireByteBootSends := by
  intro s b acks hb hl ha
  exact ⟨_, exec_wireByteBoot_send b hl, reaches_txByte (startByte b (txByte true) s) true _ acks hb rfl ha⟩

/-! ## Single statements of a frame -/

/-- A statement that is no frame, no byte and no part of a wait owes no poll when it has run. -/
theorem engineStep_outside_wait {s t : State} {m : Micro} {k : List Micro} (hb : s.rsp.busy = true)
    (ht : s.seq.todo = m :: k) (hwire : ∀ i, m ≠ .wire i) (hwait : inWait m = false)
    (hrun : runMicro m (beginEngine true { s with seq.todo := k }) = t) : engineStep s = .next t := by
  rw [engineStep_statement hb ht hwire, polledAfter_of_not_inWait _ hwait, hrun]

/-- A step without an event at the end of a run. -/
theorem engineReaches_then_quiet {s t u : State} {es : List Event} (g : EngineReaches s es t)
    (h : engineStep t = .next u) (hq : u.env.event = .quiet) : EngineReaches s es u := by
  rw [← List.append_nil es]
  exact engineReaches_trans g (engineReaches_quiet h hq (engineReaches_refl u))

/-- `LS <- l` (R102, R103). -/
theorem reaches_line (s : State) (l : LineState) (k : List Micro) (hb : s.rsp.busy = true)
    (ht : s.seq.todo = .line l :: k) :
    EngineReaches s [.line l]
      { s with lines.ls := l, rsp.done := false, seq.todo := k, env.event := .line l, env.polled := true } :=
  engineReaches_shown (engineStep_outside_wait hb ht nofun rfl rfl) rfl nofun (engineReaches_refl _)

/-! ## The head and the tail of a frame (R133, R134, R135) -/

/-- `StateSend()` and the seven header bytes. -/
theorem reaches_header (s : State) (op mode bank : Byte) (offset length : Word) (k : List Micro) (acks : List Bit)
    (hb : s.rsp.busy = true) (ht : s.seq.todo = .line .send :: sendBytes (headerBytes op mode bank offset length) ++ k)
    (ha : s.env.ackIn = ackEcho 7 ++ acks) :
    EngineReaches s (.line .send :: headerTrace op mode bank offset length)
      { s with
        lines.ls := .send, lines.dataOut := 0b111#3, lines.clkOut := 1#1, lat.pst := 0x00#8, rsp.done := false,
        hid.t0 := s.time.t100, hid.sr := highByte length, hid.phase := .p4, seq.todo := k,
        seq.retStatus := 0x00#8, env.ackIn := acks, env.event := .quiet, env.polled := true } :=
  engineReaches_trans (reaches_line s .send _ hb ht)
    (reaches_sendBytes [mode, bank, lowByte offset, highByte offset, lowByte length, highByte length] _ op k acks
      hb rfl rfl ha)

/-- The Device's checksum, received and latched; it ends both frames. -/
theorem reaches_deviceChecksum (s : State) (k : List Micro) (acks : List Bit) (d : Samples) (datas : List Tri)
    (hb : s.rsp.busy = true) (hl : s.lines.ls = .recv) (ht : s.seq.todo = recvOne :: .latchDevchk :: .check :: k)
    (ha : s.env.ackIn = ackEcho 1 ++ acks) (hd : s.env.dataIn = samples [d] ++ datas) :
    EngineReaches s (receivedTrace d)
      { s with
        lines.clkOut := 1#1, lat.devchk := received d, lat.pst := 0x00#8, rsp.done := false,
        hid.t0 := s.time.t100, hid.sr := received d, hid.phase := .p4, seq.todo := k, seq.retStatus := 0x00#8,
        seq.retByte := received d,
        env.ackIn := acks, env.dataIn := datas, env.event := .quiet, env.polled := true } := by
  have hbyte := reaches_recvOne s 0#8 (.latchDevchk :: .check :: k) acks d datas hb hl ht ha hd
  have hlatch := engineReaches_then_quiet hbyte (engineStep_outside_wait hb rfl nofun rfl rfl) rfl
  exact engineReaches_then_quiet hlatch (engineStep_outside_wait (m := .check) (k := k) hb rfl nofun rfl rfl) rfl

/-! ## The data loop of the write frame (R134) -/

/-- The index of the next byte, with `m` bytes behind it. -/
theorem toNat_index_next {i n : Word} {m : Nat} (h : i.toNat + (m + 1) = n.toNat) : (i + 1#16).toNat + m = n.toNat := by
  have hn := n.isLt
  rw [BitVec.toNat_add_of_lt] <;> simp <;> omega

/-- A byte more is counted, a byte less remains. -/
theorem remaining_next (x i n : Word) : x + 1#16 + (n - (i + 1#16)) = x + (n - i) := by
  bv_omega

theorem sendLoop_pulls {s : State} {n : Word} (hn : s.hid.bidx.toNat < n.toNat) (hh : s.lat.hst = 0x00#8) :
    sendLoop n s = doNext [.pull, .sendLoop n] s :=
  (if_pos hn).trans (if_pos hh)

theorem sendLoop_ends {s : State} {n : Word} (hn : ¬ s.hid.bidx.toNat < n.toNat) : sendLoop n s = s := if_neg hn

theorem hostPull_taken {s : State} {b : Byte} {pulls : List (Byte × Byte)} (hp : s.env.pullIn = (b, 0x00#8) :: pulls) :
    hostPull s = doNext [.wire (.wireByteNormal b), .check, .accSend b]
      { s with env.pullIn := pulls, env.event := .pull b 0x00#8 } := by
  simp only [hostPull, hp]
  rfl

theorem accSend_counts {s : State} (b : Byte) (hh : s.lat.hst = 0x00#8) :
    accSend b s = nextByte (countByte b { s with lat.chk := addChk s.lat.chk b }) := if_pos hh

/-- One data byte: pulled, sent, and counted. -/
theorem reaches_dataByteSent (s : State) (n : Word) (b : Byte) (k : List Micro) (acks : List Bit)
    (pulls : List (Byte × Byte)) (hb : s.rsp.busy = true) (hl : s.lines.ls = .send) (hh : s.lat.hst = 0x00#8)
    (ht : s.seq.todo = .sendLoop n :: k) (hn : s.hid.bidx.toNat < n.toNat) (ha : s.env.ackIn = ackEcho 1 ++ acks)
    (hp : s.env.pullIn = (b, 0x00#8) :: pulls) :
    EngineReaches s (.pull b 0x00#8 :: sentTrace b)
      { s with
        lines.dataOut := 0b111#3, lines.clkOut := 1#1,
        blk.crc16 := addCrc s.blk.crc16 b, blk.xferlen := s.blk.xferlen + 1#16,
        lat.chk := addChk s.lat.chk b, lat.pst := 0x00#8, rsp.done := false,
        hid.t0 := s.time.t100, hid.sr := b, hid.phase := .p4, hid.bidx := s.hid.bidx + 1#16,
        seq.todo := .sendLoop n :: k, seq.retStatus := 0x00#8,
        env.ackIn := acks, env.pullIn := pulls, env.event := .quiet, env.polled := true } := by
  refine engineReaches_quiet (engineStep_outside_wait hb ht nofun rfl (sendLoop_pulls hn hh)) rfl ?_
  refine engineReaches_shown (engineStep_outside_wait hb rfl nofun rfl (hostPull_taken hp)) rfl nofun ?_
  refine engineReaches_then_quiet (reaches_sendChecked _ b (.accSend b :: .sendLoop n :: k) acks ?_ ?_ ?_ ?_)
    (engineStep_outside_wait ?_ rfl nofun rfl (accSend_counts b hh)) rfl
  exacts [hb, hl, rfl, ha, hb]

/-- `SendByte(CHK)`. -/
theorem reaches_checksumSent (s : State) (k : List Micro) (acks : List Bit) (hb : s.rsp.busy = true)
    (hl : s.lines.ls = .send) (ht : s.seq.todo = .sendChk :: k) (ha : s.env.ackIn = ackEcho 1 ++ acks) :
    EngineReaches s (sentTrace s.lat.chk)
      { s with
        lines.dataOut := 0b111#3, lines.clkOut := 1#1, lat.pst := 0x00#8, rsp.done := false,
        hid.t0 := s.time.t100, hid.sr := s.lat.chk, hid.phase := .p4, seq.todo := k, seq.retStatus := 0x00#8,
        env.ackIn := acks, env.event := .quiet, env.polled := true } :=
  engineReaches_quiet (engineStep_outside_wait hb ht nofun rfl rfl) rfl
    (reaches_sendChecked
      (doNext [.wire (.wireByteNormal s.lat.chk), .check] (beginEngine true { s with seq.todo := k }))
      s.lat.chk k acks hb hl rfl ha)

theorem pulledTrace_cons (b : Byte) (rest : List Byte) :
    pulledTrace (b :: rest) = (.pull b 0x00#8 :: sentTrace b) ++ pulledTrace rest := List.flatMap_cons

/-- The data bytes and the checksum after them. -/
theorem reaches_sendData (data : List Byte) (s : State) (n x : Word) (k : List Micro) (acks : List Bit)
    (pulls : List (Byte × Byte)) (hb : s.rsp.busy = true) (hl : s.lines.ls = .send) (hh : s.lat.hst = 0x00#8)
    (ht : s.seq.todo = .sendLoop n :: .sendChk :: k) (hn : s.hid.bidx.toNat + data.length = n.toNat)
    (hx : s.blk.xferlen + (n - s.hid.bidx) = x) (ha : s.env.ackIn = ackEcho (data.length + 1) ++ acks)
    (hp : s.env.pullIn = data.map (fun b => (b, 0x00#8)) ++ pulls) :
    EngineReaches s (pulledTrace data ++ sentTrace (checksum s.lat.chk data))
      { s with
        lines.dataOut := 0b111#3, lines.clkOut := 1#1,
        blk.crc16 := crcOver s.blk.crc16 data, blk.xferlen := x,
        lat.chk := checksum s.lat.chk data, lat.pst := 0x00#8, rsp.done := false,
        hid.t0 := s.time.t100, hid.sr := checksum s.lat.chk data, hid.phase := .p4, hid.bidx := n,
        seq.todo := k, seq.retStatus := 0x00#8,
        env.ackIn := acks, env.pullIn := pulls, env.event := .quiet, env.polled := true } := by
  induction data generalizing s with
  | nil =>
    obtain rfl : s.hid.bidx = n := BitVec.eq_of_toNat_eq hn
    obtain rfl : s.blk.xferlen = x := by simpa using hx
    obtain rfl : s.env.pullIn = pulls := hp
    refine engineReaches_quiet (engineStep_outside_wait hb ht nofun rfl (sendLoop_ends (lt_irrefl _))) rfl ?_
    exact reaches_checksumSent (beginEngine true { s with seq.todo := .sendChk :: k }) k acks hb hl rfl ha
  | cons b rest ih =>
    have hlt : s.hid.bidx.toNat < n.toNat := by rw [List.length_cons] at hn; omega
    have ha' : s.env.ackIn = ackEcho 1 ++ (ackEcho (rest.length + 1) ++ acks) := by
      rw [ha, List.length_cons, Nat.add_comm, ackEcho_add, List.append_assoc]
    have hbyte := reaches_dataByteSent s n b _ _ _ hb hl hh ht hlt ha' hp
    rw [pulledTrace_cons, List.append_assoc]
    exact engineReaches_trans hbyte (ih _ hb hl hh rfl (toNat_index_next hn) ((remaining_next _ _ n).trans hx) rfl rfl)

/-! ## The data loop of the read frame (R135) -/

theorem recvLoop_receives {s : State} {n : Word} (hn : s.hid.bidx.toNat < n.toNat) :
    recvLoop n s = doNext [recvOne, .check, .accRecv, .recvLoop n] s := if_pos hn

theorem recvLoop_ends {s : State} {n : Word} (hn : ¬ s.hid.bidx.toNat < n.toNat) : recvLoop n s = s := if_neg hn

theorem accRecv_pushes {s : State} (hh : s.lat.hst = 0x00#8) :
    accRecv s = doNext [.push s.seq.retByte] { s with lat.chk := addChk s.lat.chk s.seq.retByte } := if_pos hh

theorem hostPush_taken {s : State} (b : Byte) {pushes : List Byte} (hp : s.env.pushIn = 0x00#8 :: pushes) :
    hostPush b s = nextByte (countByte b { s with env.pushIn := pushes, env.event := .push b 0x00#8 }) := by
  simp only [hostPush, hp]
  rfl

/-- One data byte: received, entered into the checksum, pushed and counted. -/
theorem reaches_dataByteReceived (s : State) (n : Word) (d : Samples) (k : List Micro) (acks : List Bit)
    (datas : List Tri) (pushes : List Byte) (hb : s.rsp.busy = true) (hl : s.lines.ls = .recv)
    (hh : s.lat.hst = 0x00#8) (ht : s.seq.todo = .recvLoop n :: k) (hn : s.hid.bidx.toNat < n.toNat)
    (ha : s.env.ackIn = ackEcho 1 ++ acks) (hd : s.env.dataIn = samples [d] ++ datas)
    (hp : s.env.pushIn = 0x00#8 :: pushes) :
    EngineReaches s (receivedTrace d ++ [.push (received d) 0x00#8])
      { s with
        lines.clkOut := 1#1,
        blk.crc16 := addCrc s.blk.crc16 (received d), blk.xferlen := s.blk.xferlen + 1#16,
        lat.chk := addChk s.lat.chk (received d), lat.pst := 0x00#8, rsp.done := false,
        hid.t0 := s.time.t100, hid.sr := received d, hid.phase := .p4, hid.bidx := s.hid.bidx + 1#16,
        seq.todo := .recvLoop n :: k, seq.retStatus := 0x00#8, seq.retByte := received d,
        env.ackIn := acks, env.dataIn := datas, env.pushIn := pushes, env.event := .push (received d) 0x00#8,
        env.polled := true } := by
  refine engineReaches_quiet (engineStep_outside_wait hb ht nofun rfl (recvLoop_receives hn)) rfl ?_
  have hbyte := reaches_recvChecked
    (doNext [recvOne, .check, .accRecv, .recvLoop n] (beginEngine true { s with seq.todo := k })) 0#8
    (.accRecv :: .recvLoop n :: k) acks d datas hb hl rfl ha hd
  have hacc := engineReaches_then_quiet hbyte (engineStep_outside_wait hb rfl nofun rfl (accRecv_pushes hh)) rfl
  exact engineReaches_trans hacc (engineReaches_shown
    (engineStep_outside_wait hb rfl nofun rfl (hostPush_taken _ hp)) rfl nofun (engineReaches_refl _))

theorem pushedTrace_cons (d : Samples) (rest : List Samples) :
    pushedTrace (d :: rest) = (receivedTrace d ++ [.push (received d) 0x00#8]) ++ pushedTrace rest :=
  List.flatMap_cons

/-- The data bytes and the Device's checksum after them. -/
theorem reaches_receiveData (data : List Samples) (s : State) (n x : Word) (d : Samples) (k : List Micro)
    (acks : List Bit) (datas : List Tri) (pushes : List Byte) (hb : s.rsp.busy = true) (hl : s.lines.ls = .recv)
    (hh : s.lat.hst = 0x00#8) (ht : s.seq.todo = .recvLoop n :: recvOne :: .latchDevchk :: .check :: k)
    (hn : s.hid.bidx.toNat + data.length = n.toNat) (hx : s.blk.xferlen + (n - s.hid.bidx) = x)
    (ha : s.env.ackIn = ackEcho (data.length + 1) ++ acks) (hd : s.env.dataIn = samples (data ++ [d]) ++ datas)
    (hp : s.env.pushIn = List.replicate data.length 0x00#8 ++ pushes) :
    EngineReaches s (pushedTrace data ++ receivedTrace d)
      { s with
        lines.clkOut := 1#1,
        blk.crc16 := crcOver s.blk.crc16 (data.map received), blk.xferlen := x,
        lat.chk := checksum s.lat.chk (data.map received), lat.devchk := received d, lat.pst := 0x00#8,
        rsp.done := false,
        hid.t0 := s.time.t100, hid.sr := received d, hid.phase := .p4, hid.bidx := n,
        seq.todo := k, seq.retStatus := 0x00#8, seq.retByte := received d,
        env.ackIn := acks, env.dataIn := datas, env.pushIn := pushes, env.event := .quiet, env.polled := true } := by
  induction data generalizing s with
  | nil =>
    obtain rfl : s.hid.bidx = n := BitVec.eq_of_toNat_eq hn
    obtain rfl : s.blk.xferlen = x := by simpa using hx
    obtain rfl : s.env.pushIn = pushes := hp
    refine engineReaches_quiet (engineStep_outside_wait hb ht nofun rfl (recvLoop_ends (lt_irrefl _))) rfl ?_
    exact reaches_deviceChecksum (beginEngine true { s with seq.todo := recvOne :: .latchDevchk :: .check :: k })
      k acks d datas hb hl rfl ha hd
  | cons e rest ih =>
    have hlt : s.hid.bidx.toNat < n.toNat := by rw [List.length_cons] at hn; omega
    have ha' : s.env.ackIn = ackEcho 1 ++ (ackEcho (rest.length + 1) ++ acks) := by
      rw [ha, List.length_cons, Nat.add_comm, ackEcho_add, List.append_assoc]
    have hbyte := reaches_dataByteReceived s n e _ _ _ _ hb hl hh ht hlt ha' hd hp
    rw [pushedTrace_cons, List.append_assoc]
    exact engineReaches_trans hbyte
      (ih _ hb hl hh rfl (toNat_index_next hn) ((remaining_next _ _ n).trans hx) rfl rfl rfl)

/-! ## The two frames (R84, R85) -/

/-- Settles O28: header, data and checksum of the write frame, and the Device's checksum after the turn-around. -/
theorem wireWriteMovesTheBlock : Obligations.WireWriteMovesTheBlock := by
  intro s mode bank offset length data d acks datas pulls hb hh hlen ha hd hp
  have ha' : s.env.ackIn = ackEcho 7 ++ (ackEcho (data.length + 1) ++ (ackEcho 1 ++ acks)) := by
    rw [ha, hlen, ← List.append_assoc, ← List.append_assoc, ← ackEcho_add, ← ackEcho_add]
    congr 2; omega
  have hx : s.blk.xferlen + (length - 0#16) = s.blk.xferlen + length := by rw [BitVec.sub_zero]
  have hn : (0#16).toNat + data.length = length.toNat := by rw [hlen]; exact Nat.zero_add _
  refine ⟨_, rfl, ?_⟩
  have hhead := reaches_header (doNext (writeFrame mode bank offset length) s) wireOpWrite mode bank offset length
    _ _ hb rfl ha'
  have hstart := engineReaches_then_quiet hhead (engineStep_outside_wait hb rfl nofun rfl rfl) rfl
  have hdata := engineReaches_trans hstart (reaches_sendData data _ length _ _ _ _ hb rfl hh rfl hn hx rfl hp)
  have hturn := engineReaches_trans hdata (reaches_line _ .recv _ hb rfl)
  have hend := engineReaches_trans hturn (reaches_deviceChecksum _ _ _ d datas hb rfl rfl rfl hd)
  simp only [List.append_assoc] at hend ⊢
  exact hend

/-- Settles O29: header of the read frame, turn-around, data, and the Device's checksum. -/
theorem wireReadMovesTheBlock : Obligations.WireReadMovesTheBlock := by
  intro s mode bank offset length data d acks datas pushes hb hh hlen ha hd hp
  have ha' : s.env.ackIn = ackEcho 7 ++ (ackEcho (data.length + 1) ++ acks) := by
    rw [ha, hlen, ← List.append_assoc, ← ackEcho_add]
    congr 2; omega
  have hx : s.blk.xferlen + (length - 0#16) = s.blk.xferlen + length := by rw [BitVec.sub_zero]
  have hn : (0#16).toNat + data.length = length.toNat := by rw [hlen]; exact Nat.zero_add _
  refine ⟨_, rfl, ?_⟩
  have hhead := reaches_header (doNext (readFrame mode bank offset length) s) wireOpRead mode bank offset length
    _ _ hb rfl ha'
  have hturn := engineReaches_trans hhead (reaches_line _ .recv _ hb rfl)
  have hstart := engineReaches_then_quiet hturn (engineStep_outside_wait hb rfl nofun rfl rfl) rfl
  have hend := engineReaches_trans hstart
    (reaches_receiveData data _ length _ d _ _ _ _ hb rfl hh rfl hn hx rfl hd (hlen ▸ hp))
  simp only [List.append_assoc] at hend ⊢
  exact hend

end Sys2Proof.Machine

/-! PROOF. The line state at the end of a command: the three line-state commands from the runs of their statements (R101
to R103), and the compound commands by an invariant: with no abort the statements ahead end in Off, and the abort path
does too (R104, R176). -/

namespace Sys2Proof.Machine

open Sys2Proof.Safety

/-! ## The line-state commands (R101 to R103) -/

/-- `complete(ST_OK)` as the last statement of a command (R77). -/
theorem reaches_completeOk (s : State) (hb : s.rsp.busy = true) (ht : s.seq.todo = [.completeOk]) :
    EngineReaches s []
      { s with
        rsp.ill := false, rsp.status := 0x00#8, rsp.busy := false, rsp.done := true,
        seq.todo := [], env.event := .quiet, env.polled := true } :=
  engineReaches_quiet (engineStep_outside_wait hb ht nofun rfl rfl) rfl (engineReaches_refl _)

/-- The second and third write of `StateOff()` (R101). -/
theorem reaches_idleLatches (s : State) (k : List Micro) (hb : s.rsp.busy = true)
    (ht : s.seq.todo = idleLatches ++ k) :
    EngineReaches s [.dataOut 0b111#3, .clkOut 1#1]
      { s with
        lines.dataOut := 0b111#3, lines.clkOut := 1#1, rsp.done := false, seq.todo := k,
        env.event := .clkOut 1#1, env.polled := true } := by
  refine engineReaches_shown (engineStep_outside_wait hb ht nofun rfl rfl) rfl nofun ?_
  exact engineReaches_shown (engineStep_outside_wait hb rfl nofun rfl rfl) rfl nofun (engineReaches_refl _)

/-- Settles O7: the write of `LS`, the two latches, and the completion. -/
theorem stateOffCompletes : Obligations.StateOffCompletes := by
  refine ⟨rfl, fun s => ⟨_, rfl, rfl, ?_⟩⟩
  have hline := reaches_line (accept (.line .off :: idleLatches ++ [.completeOk]) s) .off _ rfl rfl
  have hlatches := engineReaches_trans hline (reaches_idleLatches _ [.completeOk] rfl rfl)
  exact engineReaches_trans hlatches (reaches_completeOk _ rfl rfl)

/-- A command that only writes `LS`: STATE_SEND and STATE_RECV. -/
theorem reaches_lineCommand (s : State) (l : LineState) :
    EngineReaches (accept [.line l, .completeOk] s) [.line l]
      { s with
        lines.ls := l,
        rsp.ill := false, rsp.status := 0x00#8, rsp.busy := false, rsp.done := true,
        seq.todo := [], seq.retStatus := 0x00#8, seq.out := [], env.event := .quiet, env.polled := true } :=
  engineReaches_trans (reaches_line _ l [.completeOk] rfl rfl) (reaches_completeOk _ rfl rfl)

/-- Settles O8: the run of a command that only writes `LS`, to Send. -/
theorem stateSendCompletes : Obligations.StateSendCompletes :=
  ⟨rfl, fun s => ⟨_, rfl, rfl, reaches_lineCommand s .send⟩⟩

/-- Settles O9: the same run, to Recv. -/
theorem stateRecvCompletes : Obligations.StateRecvCompletes :=
  ⟨rfl, fun s => ⟨_, rfl, rfl, reaches_lineCommand s .recv⟩⟩

/-! ## Where the statements ahead leave the line state -/

theorem lineAtEnd_cons (x : Lines) (m : Micro) (k : List Micro) :
    lineAtEnd x (m :: k) = lineAtEnd (linesAfter x m) k := rfl

theorem lineAtEnd_append (x : Lines) (k l : List Micro) :
    lineAtEnd x (k ++ l) = lineAtEnd (k.foldl linesAfter x) l := by
  rw [lineAtEnd, lineAtEnd, List.foldl_append]

/-- `lineAtEnd` does not look at the levels of DATA and CLK. -/
theorem lineAtEnd_of_sameDrive {x y : Lines} (k : List Micro) (h : SameDrive x y) :
    lineAtEnd y k = lineAtEnd x k := by
  obtain ⟨d, c, rfl⟩ := h
  induction k generalizing x with
  | nil => rfl
  | cons m k ih => rw [lineAtEnd_cons, lineAtEnd_cons, linesAfter_levels, ih]

/-- A statement that ends a command writes no line. -/
theorem lineAtEnd_completion {m : Micro} (hm : completes m = true) (x : Lines) : lineAtEnd x [m] = x.ls := by
  cases m with
  | refuse | completeOk | completeRet | completeRecv | completeWord _ | completeGeneric | completeBlock => rfl
  | _ => cases hm

/-- Nothing stands after a statement that ends a command. -/
theorem eq_nil_of_completes {x : Lines} {m : Micro} {k : List Micro} (hm : completes m = true)
    (hr : ready x k m = true) : k = [] := by
  cases m with
  | refuse | completeOk | completeRet | completeRecv | completeWord _ | completeGeneric | completeBlock =>
    simp only [ready, Bool.and_eq_true, List.isEmpty_iff] at hr
    simp only [hr]
  | _ => cases hm

theorem completes_of_completesOff {m : Micro} (hm : completesOff m = true) : completes m = true := by
  cases m with
  | completeOk | completeRet | completeGeneric | completeBlock => rfl
  | _ => cases hm

/-- The abort path leads to Off from every line state (R176). -/
theorem lineAtEnd_dropToExit {k : List Micro} (x : Lines) (h : hasExit k = true) :
    lineAtEnd x (dropToExit k) = .off := by
  obtain ⟨v, c, m, hk, hm⟩ := exists_of_hasExit h
  rw [hk]
  exact lineAtEnd_completion (completes_of_completesOff hm) { x with ls := .off }

/-- Whatever stands before it, the way out of a compound command leads to Off. -/
theorem lineAtEnd_exitSteps (x : Lines) (k : List Micro) {m : Micro} (hm : completesOff m = true) :
    lineAtEnd x (k ++ exitSteps m) = .off := by
  rw [lineAtEnd_append]
  exact lineAtEnd_dropToExit (k := exitSteps m) _ hm

/-- Inside a byte no statement writes `LS`, so its return leads where the whole byte leads. -/
theorem lineAtEnd_dropToByteEnd {k : List Micro} (x : Lines) (h : inByte k = true) :
    lineAtEnd x (dropToByteEnd k) = lineAtEnd x k := by
  fun_induction inByte k with
  | case1 rx k => rfl
  | case8 => cases h
  | _ => next ih => exact ih h

/-- What a statement pushes are waits and loops, which write no `LS`. -/
theorem lineAtEnd_pushes {m : Micro} {l : List Micro} (x : Lines) (k : List Micro) (h : Pushes m l) :
    lineAtEnd x (l ++ k) = lineAtEnd x k := by
  cases h <;> rfl

/-- A frame or byte leads where its statements lead (R112 to R114, R133). -/
theorem lineAtEnd_wireBody (x : Lines) (i : Instr) (k : List Micro) :
    lineAtEnd x (wireBody x.ls i ++ k) = lineAtEnd x (.wire i :: k) := by
  cases i with
  | wireRead mode bank offset length => rfl
  | wireWrite mode bank offset length => rfl
  | wireByteNormal b => rw [wireBody]; split <;> rfl
  | wireByteBoot b => rfl
  | _ => rfl

/-- A statement that ends no command keeps the command on its way to Off: it goes on, or aborts by its way out. -/
theorem lineAtEnd_continues {x : Lines} {m : Micro} {k k' : List Micro} (h : Continues m k k')
    (hr : ready x k m = true) (hoff : lineAtEnd x (m :: k) = .off) : lineAtEnd (linesAfter x m) k' = .off := by
  rw [lineAtEnd_cons] at hoff
  cases h with
  | rest => exact hoff
  | pushes hp => rw [lineAtEnd_pushes _ _ hp]; exact hoff
  | byteFails hm =>
    subst hm
    rw [lineAtEnd_dropToByteEnd _ hr]
    exact hoff
  | aborts hm =>
    have habort : mayAbort x k = true := by rcases hm with rfl | ⟨level, timeout, rfl⟩ <;> exact hr
    rw [mayAbort, Bool.and_eq_true] at habort
    exact lineAtEnd_dropToExit _ habort.2

/-! ## The compound commands -/

/-- The opcodes of the compound commands (R104). -/
def compoundOpcodes : List Byte := [opIsAlive, opResetDevice, opGeneric, opRecvBlock, opSendBlock]

theorem compound_iff {s : State} {op : Byte} (h : s.seq.packet.head? = some op) :
    compound s = true ↔ op ∈ compoundOpcodes := by
  obtain ⟨rest, hp⟩ := List.head?_eq_some_iff.mp h
  simp only [compound, hp]
  exact List.contains_iff_mem

/-- RESET_DEVICE never writes `LS` (R123). -/
theorem lineAtEnd_resetBody (x : Lines) (mode : Byte) : lineAtEnd x (resetBody mode) = x.ls := by
  rw [resetBody, knockSteps]
  split <;> rfl

/-- The pseudocode of a compound command leads from the line state it requires to Off. -/
theorem lineAtEnd_commandBody {i : Instr} {op : Byte} {x : Lines} (hi : commandOpcode i = some op)
    (hop : op ∈ compoundOpcodes) (hl : ∀ l, requiredLine i = some l → x.ls = l) :
    lineAtEnd x (commandBody i) = .off := by
  cases i with
  | isAlive timeout => exact lineAtEnd_exitSteps x _ rfl
  | resetDevice mode => exact (lineAtEnd_resetBody x mode).trans (hl .off rfl)
  | generic cmd outSize ins => exact lineAtEnd_exitSteps x _ rfl
  | recvBlock mode bank offset length crc => exact lineAtEnd_exitSteps x [_] rfl
  | sendBlock mode bank offset length crc => exact lineAtEnd_exitSteps x [_] rfl
  | stateOff | stateSend | stateRecv | sendByte _ | recvByte | sendByteBoot _ | paramWr _ _ | paramRd _ =>
    cases hi
    exact absurd hop (by decide)
  | wireRead _ _ _ _ | wireWrite _ _ _ _ | wireByteNormal _ | wireByteBoot _ => cases hi

/-! ## The invariant -/

/-- What is ahead leads to state Off, or is the refusal alone. -/
def headsOff (s : State) : Prop := lineAtEnd s.lines s.seq.todo = .off ∨ s.seq.todo = [.refuse]

theorem endsOffInv_iff (s : State) : EndsOffInv s ↔
    SeqInv s ∧ (s.rsp.busy = true → compound s = true → headsOff s) := Iff.rfl

/-- The invariant looks at `BUSY`, `SEQ` and the lines alone. -/
theorem endsOffInv_congr {s t : State} (hb : t.rsp.busy = s.rsp.busy) (hq : t.seq = s.seq) (hl : t.lines = s.lines) :
    EndsOffInv t ↔ EndsOffInv s := by
  rw [endsOffInv_iff, endsOffInv_iff, headsOff, headsOff, compound, compound, seqInv_congr hb (congrArg _ hq) hl, hb,
    hq, hl]

theorem endsOffInv_of_idle {s : State} (hb : s.rsp.busy = false) (hs : SeqInv s) : EndsOffInv s :=
  ⟨hs, fun h => by rw [hb] at h; cases h⟩

/-- A compound command taken in an idle state starts on its way to Off. -/
theorem engineStep_idle_headsOff {s t : State} (hb : s.rsp.busy = false) (h : engineStep s = .next t)
    (hbusy : t.rsp.busy = true) (hc : compound t = true) : headsOff t := by
  rcases engineStep_idle_cases hb h with ⟨-, rfl⟩ | ⟨p, rest, -, ⟨i, hi, hx⟩ | ⟨e, -, rfl⟩⟩
  · rw [beginEngine_rsp_eq, hb] at hbusy; cases hbusy
  · obtain ⟨op, hop, hhead⟩ := decodePacket_opcode hi
    obtain ⟨-, -, hpacket, -⟩ := exec_frame hx
    obtain ⟨hlines, -, htodo | ⟨htodo, hline⟩⟩ := takenFrom_of_exec hop hx
    · exact .inr htodo
    · left
      rw [hlines, htodo]
      exact lineAtEnd_commandBody hop ((compound_iff (by rw [hpacket]; exact hhead)).mp hc) hline
  · exact .inr rfl

/-- A command on its way to Off stays on it, or ends there. -/
theorem engineStep_busy_lineAtEnd {s t : State} (hb : s.rsp.busy = true) (hinv : SeqInv s)
    (hoff : lineAtEnd s.lines s.seq.todo = .off) (h : engineStep s = .next t) :
    t.rsp.busy = true ∧ lineAtEnd t.lines t.seq.todo = .off ∨ t.rsp.busy = false ∧ t.lines.ls = .off := by
  rw [seqInv_of_busy hb] at hinv
  rcases engineStep_busy_outcome hb h with ⟨i, k, hk, hx⟩ | ⟨m, k, hk, hm, hbusy, -, -, hlines⟩ |
      ⟨m, k, hk, hm, hrsp, hlines, hgoes⟩ <;> rw [hk] at hinv hoff
  · rw [seqOk_wire, Bool.and_eq_true] at hinv
    obtain ⟨u, hu, hlines, hrsp, htodo⟩ := exec_wire (s := beginEngine true { s with seq.todo := k }) hinv.1
    cases hu.symm.trans hx
    refine .inl ⟨by rw [hrsp]; exact hb, ?_⟩
    rw [hlines, htodo]
    exact (lineAtEnd_wireBody s.lines i k).trans hoff
  · simp only [seqOk, Bool.and_eq_true] at hinv
    obtain rfl := eq_nil_of_completes hm hinv.1
    refine .inr ⟨hbusy, ?_⟩
    rw [hlines, ← lineAtEnd_completion hm]
    exact hoff
  · simp only [seqOk, Bool.and_eq_true] at hinv
    refine .inl ⟨by rw [hrsp]; exact hb, ?_⟩
    rw [lineAtEnd_of_sameDrive _ hlines]
    exact lineAtEnd_continues hgoes hinv.1 hoff

/-- A command that heads for Off goes on, or is refused, or ends in Off. -/
theorem engineStep_busy_headsOff {s t : State} (hb : s.rsp.busy = true) (hinv : SeqInv s) (hs : headsOff s)
    (h : engineStep s = .next t) :
    t.rsp.busy = true ∧ headsOff t ∨ t.rsp.busy = false ∧ (t.rsp.ill = true ∨ t.lines.ls = .off) := by
  rcases hs with hoff | hrefuse
  · exact (engineStep_busy_lineAtEnd hb hinv hoff h).imp (.imp_right .inl) (.imp_right .inr)
  · rw [engineStep_statement hb hrefuse nofun] at h
    cases h
    exact .inr ⟨rfl, .inl rfl⟩

/-- An Engine step keeps the invariant. -/
theorem engineStep_endsOffInv {s t : State} (hs : EndsOffInv s) (h : engineStep s = .next t) : EndsOffInv t := by
  obtain ⟨hinv, hheads⟩ := hs
  obtain ⟨u, hu, hnext⟩ := engineStep_seqInv hinv
  cases hu.symm.trans h
  refine ⟨hnext, fun hbusy hc => ?_⟩
  cases hb : s.rsp.busy with
  | false => exact engineStep_idle_headsOff hb h hbusy hc
  | true =>
    rw [compound, (engineStep_busy_packet h hb).1] at hc
    rcases engineStep_busy_headsOff hb hinv (hheads hb hc) h with ⟨-, hgoes⟩ | ⟨hend, -⟩
    · exact hgoes
    · rw [hend] at hbusy; cases hbusy

theorem step_endsOffInv {s t : State} (hs : EndsOffInv s) (h : step s = .next t) : EndsOffInv t := by
  obtain ⟨u, sched, draws, rfl, hcase⟩ := step_cases h
  have hu : EndsOffInv { s with env.sched := sched, env.draws := draws } := (endsOffInv_congr rfl rfl rfl).mpr hs
  rcases hcase with hengine | ⟨-, rfl⟩ | ⟨m, rfl⟩ | ⟨m, rfl⟩ | rfl
  · exact engineStep_endsOffInv hu hengine
  · exact (endsOffInv_congr rfl rfl rfl).mpr hu
  · exact (endsOffInv_congr (by simp) (by simp) (by simp)).mpr hu
  · exact (endsOffInv_congr (by simp) (by simp) (by simp)).mpr hu
  · exact endsOffInv_of_idle rfl ⟨rfl, rfl⟩

/-- Only an Engine step or a block reset ends a command. -/
theorem step_ends_in_off {s t : State} (hs : EndsOffInv s) (h : step s = .next t) (hb : s.rsp.busy = true)
    (hc : compound s = true) (hend : t.rsp.busy = false) (hill : t.rsp.ill = false) : t.lines.ls = .off := by
  obtain ⟨u, sched, draws, rfl, hcase⟩ := step_cases h
  obtain ⟨hinv, hheads⟩ := hs
  rcases hcase with hengine | ⟨-, rfl⟩ | ⟨m, rfl⟩ | ⟨m, rfl⟩ | rfl
  · have hu : SeqInv { s with env.sched := sched, env.draws := draws } := (seqInv_congr rfl rfl rfl).mpr hinv
    rcases engineStep_busy_headsOff (by exact hb) hu (hheads hb hc) hengine with ⟨hbusy, -⟩ | ⟨-, hrefused | hoff⟩
    · rw [hend] at hbusy; cases hbusy
    · rw [hill] at hrefused; cases hrefused
    · exact hoff
  · simp [hb] at hend
  · simp [hb] at hend
  · simp [hb] at hend
  · rfl

/-- Settles O57: every agent's step keeps the invariant, and where the way to Off ends, the lines are Off. -/
theorem compoundCommandsEndInOff : Obligations.CompoundCommandsEndInOff :=
  fun _ _ hs h => ⟨step_endsOffInv hs h, step_ends_in_off hs h⟩

end Sys2Proof.Machine

/-! PROOF. The byte primitives and `AckWait` (R110, R112 to R118): the outcomes of one poll, the completions of the byte
commands, a wait that runs out of its budget by induction on the polls, and the byte a receiver takes from a sender. -/

namespace Sys2Proof.Machine

open Sys2Proof.Safety

/-! ## One poll of `AckWait` (R110) -/

theorem sampleAck_listed {s : State} {a : Bit} {acks : List Bit} (ha : s.env.ackIn = a :: acks) :
    sampleAck s = (a, { s with env.ackIn := acks, env.event := .sampleAck a }) := by
  simp only [sampleAck, ha]

section Poll
variable {s : State} {a : Bit} {acks : List Bit} {k : List Micro}

/-- The snapshot `AckWait` begins with; it pays no poll. -/
theorem engineStep_snap (hb : s.rsp.busy = true) (ht : s.seq.todo = .snap :: k) :
    engineStep s = .next
      { s with hid.t0 := s.time.t100, seq.todo := k, rsp.done := false, env.event := .quiet } :=
  engineStep_statement hb ht nofun

theorem engineStep_ackPoll (hb : s.rsp.busy = true) (ht : s.seq.todo = .ackPoll :: k) :
    engineStep s = .next (ackPoll (beginEngine true { s with seq.todo := k })) :=
  engineStep_statement hb ht nofun

/-- At the awaited level the wait is over. -/
theorem engineStep_poll_acknowledged (hb : s.rsp.busy = true) (ht : s.seq.todo = .ackPoll :: k)
    (ha : s.env.ackIn = a :: acks) (hlevel : a = phaseLevel s.hid.phase) :
    engineStep s = .next
      { s with seq.todo := k, rsp.done := false,
               env.ackIn := acks, env.event := .sampleAck a, env.polled := true } := by
  rw [engineStep_ackPoll hb ht, ackPoll, sampleAck_listed (by exact ha)]
  exact congrArg _ (if_pos hlevel)

/-- At the wrong level and over the budget the byte ends with the code of its phase. -/
theorem engineStep_poll_overdue (hb : s.rsp.busy = true) (ht : s.seq.todo = .ackPoll :: k)
    (ha : s.env.ackIn = a :: acks) (hlevel : a ≠ phaseLevel s.hid.phase)
    (hover : s.par.waitAck.toNat < (s.time.t100 - s.hid.t0).toNat) :
    engineStep s = .next
      { s with seq.todo := dropToByteEnd k, seq.retStatus := noAck s.hid.phase, rsp.done := false,
               env.ackIn := acks, env.event := .sampleAck a, env.polled := true } := by
  rw [engineStep_ackPoll hb ht, ackPoll, sampleAck_listed (by exact ha)]
  exact congrArg _ ((if_neg hlevel).trans (if_pos (decide_eq_true hover)))

/-- At the wrong level and within the budget the wait polls again. -/
theorem engineStep_poll_again (hb : s.rsp.busy = true) (ht : s.seq.todo = .ackPoll :: k)
    (ha : s.env.ackIn = a :: acks) (hlevel : a ≠ phaseLevel s.hid.phase)
    (hwithin : ¬ s.par.waitAck.toNat < (s.time.t100 - s.hid.t0).toNat) :
    engineStep s = .next
      { s with rsp.done := false, env.ackIn := acks, env.event := .sampleAck a, env.polled := true } := by
  have hseq : { s.seq with todo := .ackPoll :: k } = s.seq := by rw [← ht]
  rw [engineStep_ackPoll hb ht, ackPoll, sampleAck_listed (by exact ha), ← hseq]
  exact congrArg _ ((if_neg hlevel).trans (if_neg (mt of_decide_eq_true hwithin)))

end Poll

/-- Settles O19: the snapshot, and the three outcomes of a poll in the order of its tests. -/
theorem ackWaitPolls : Obligations.AckWaitPolls := by
  refine ⟨fun s k hb ht => engineStep_snap hb ht, fun s a acks k hb ht ha => ?_⟩
  split_ifs with hlevel hover
  · exact engineStep_poll_acknowledged hb ht ha hlevel
  · exact engineStep_poll_overdue hb ht ha hlevel hover
  · exact engineStep_poll_again hb ht ha hlevel hover

/-! ## A byte order in another line state (R112 to R114) -/

/-- Settles O14: no byte moves in Off, and there is no boot-mode receive. -/
theorem byteOrdersNeedTheirLineState : Obligations.ByteOrdersNeedTheirLineState := by
  refine fun s b => ⟨fun hoff => ?_, fun hnot => ?_⟩
  · simp only [exec, execWireByteNormal, hoff]
  · cases hl : s.lines.ls with
    | send => exact absurd hl hnot
    | recv | off => simp only [exec, execWireByteBoot, hl]

/-! ## The completions of the byte commands (R115 to R117) -/

/-- `complete(s)` of the status the byte procedure returned. -/
theorem reaches_completeRet (s : State) (hb : s.rsp.busy = true) (ht : s.seq.todo = [.completeRet]) :
    EngineReaches s []
      { s with
        rsp.ill := false, rsp.status := s.seq.retStatus, rsp.busy := false, rsp.done := true,
        seq.todo := [], env.event := .quiet, env.polled := true } :=
  engineReaches_quiet (engineStep_outside_wait hb ht nofun rfl rfl) rfl (engineReaches_refl _)

/-- `RBYTE <- v; complete(s)` (R116). -/
theorem reaches_completeRecv (s : State) (hb : s.rsp.busy = true) (ht : s.seq.todo = [.completeRecv]) :
    EngineReaches s []
      { s with
        rsp.ill := false, rsp.status := s.seq.retStatus, rsp.busy := false, rsp.done := true,
        rsp.rbyte := s.seq.retByte, seq.todo := [], env.event := .quiet, env.polled := true } :=
  engineReaches_quiet (engineStep_outside_wait hb ht nofun rfl rfl) rfl (engineReaches_refl _)

theorem exec_sendByte_send {s : State} (b : Byte) (hl : s.lines.ls = .send) :
    exec (.sendByte b) s = .next (accept [.wire (.wireByteNormal b), .completeRet] s) := if_pos hl

theorem exec_recvByte_recv {s : State} (hl : s.lines.ls = .recv) :
    exec .recvByte s = .next (accept [recvOne, .completeRecv] s) := if_pos hl

theorem exec_sendByteBoot_send {s : State} (b : Byte) (hl : s.lines.ls = .send) :
    exec (.sendByteBoot b) s = .next (accept [.wire (.wireByteBoot b), .completeRet] s) := if_pos hl

/-- Settles O15: the command issues its byte, which returns `ST_OK`, and completes with it. -/
theorem sendByteCompletes : Obligations.SendByteCompletes := by
  intro s b acks hl ha
  refine ⟨_, exec_sendByte_send b hl, ?_⟩
  have hbyte := reaches_sendOne (accept [.wire (.wireByteNormal b), .completeRet] s) b [.completeRet] acks rfl hl rfl ha
  exact engineReaches_trans hbyte (reaches_completeRet _ rfl rfl)

/-- Settles O16: the same with a byte received, which the completion stores in `RBYTE`. -/
theorem recvByteCompletes : Obligations.RecvByteCompletes := by
  intro s acks d datas hl ha hd
  refine ⟨_, exec_recvByte_recv hl, ?_⟩
  have hbyte := reaches_recvOne (accept [recvOne, .completeRecv] s) 0#8 [.completeRecv] acks d datas rfl hl rfl ha hd
  exact engineReaches_trans hbyte (reaches_completeRecv _ rfl rfl)

/-- Settles O17: the boot-mode order starts `SendByteBoot`, which leaves its last group on DATA. -/
theorem sendByteBootCompletes : Obligations.SendByteBootCompletes := by
  intro s b acks hl ha
  refine ⟨_, exec_sendByteBoot_send b hl, ?_⟩
  have hissue : engineStep (accept [.wire (.wireByteBoot b), .completeRet] s) = _ :=
    (engineStep_wire rfl rfl).trans (exec_wireByteBoot_send b hl)
  have hbyte := reaches_txByte (startByte b (txByte true) (beginEngine true (accept [.completeRet] s))) true
    [.completeRet] acks rfl rfl ha
  exact engineReaches_trans (engineReaches_quiet hissue rfl hbyte) (reaches_completeRet _ rfl rfl)

/-! ## A failed wait of a byte command (R195) -/

/-- A failed receive returns a free value (R113). -/
theorem byteEnd_failed {s : State} (hfail : s.seq.retStatus ≠ stOk) :
    byteEnd true s = { s with seq.retByte := Config.freeByte s.env.draws, env.draws := s.env.draws + 1 } :=
  (if_pos rfl).trans (if_neg hfail)

/-- Settles O18: the failed poll leaves the return of the procedure and the command's completion. -/
theorem failedWaitEndsAByteCommand : Obligations.FailedWaitEndsAByteCommand := by
  intro s a acks k hb ht ha hlevel hover
  have hpoll := engineStep_poll_overdue hb ht ha hlevel hover
  constructor
  · intro hk
    rw [hk] at hpoll
    refine engineReaches_shown hpoll rfl nofun ?_
    refine engineReaches_quiet (engineStep_outside_wait (m := .byteEnd false) hb rfl nofun rfl rfl) rfl ?_
    exact reaches_completeRet _ hb rfl
  · intro hk
    rw [hk] at hpoll
    refine ⟨Config.freeByte s.env.draws, engineReaches_shown hpoll rfl nofun ?_⟩
    refine engineReaches_quiet (engineStep_outside_wait (m := .byteEnd true) hb rfl nofun rfl
      (byteEnd_failed (noAck_ne_stOk s.hid.phase))) rfl ?_
    exact reaches_completeRecv _ hb rfl

/-! ## A wait that runs out of its budget (R110 b) -/

theorem stepRun_of_stepRun {m : Nat} {s t : State} (n : Nat) (h : stepRun m s = .next t) :
    stepRun (m + n) s = stepRun n t := by
  induction m generalizing s with
  | zero => cases h; rw [Nat.zero_add]
  | succ m ih =>
    rw [Nat.add_right_comm]
    cases hs : step s with
    | next u => simp only [stepRun, hs] at h ⊢; exact ih h
    | fault r => simp only [stepRun, hs] at h; cases h
    | refused r => simp only [stepRun, hs] at h; cases h

theorem stepRun_succ_of_step {s t : State} (n : Nat) (h : step s = .next t) : stepRun (n + 1) s = stepRun n t := by
  rw [stepRun, h]

/-- A turn of the Timebase with no poll owed is a tick. -/
theorem step_timebaseTurn {s : State} {ts : List Turn} (h : s.env.sched = .timebase :: ts)
    (hp : s.env.polled = true) : step s = .next (tick { s with env.sched := ts }) := by
  have hfree : tickHeld s = false := by simp [tickHeld, hp]
  simp only [step, h, takeTurn, timebaseTurn, hfree, Bool.false_eq_true, if_false]

/-- The wait of `s` after a poll that sampled the wrong level `a` and goes on: the counters, the Device's answers and
the schedule are as given, and every other register is that of `s`. -/
def polledOn (s : State) (a : Bit) (time : Timers) (acks : List Bit) (ts : List Turn) : State :=
  { s with time := time, rsp.done := false, env.ackIn := acks, env.sched := ts,
           env.event := .sampleAck a, env.polled := true }

/-- `n` rounds of a tick and a poll. -/
def tickAndPoll (n : Nat) : List Turn := (List.replicate n [Turn.timebase, Turn.engine]).flatten

theorem tickAndPoll_succ (n : Nat) : tickAndPoll (n + 1) = tickAndPoll n ++ [.timebase, .engine] := by
  simp [tickAndPoll, List.replicate_succ']

/-- One increment more has passed, as long as the counter does not come round. -/
theorem toNat_elapsed_succ {now start : Word} {n : Nat} (h : (now - start).toNat = n) (hn : n + 1 < 2 ^ 16) :
    (now + 1#16 - start).toNat = n + 1 := by
  bv_omega

/-- The next tick comes at once, since the poll was made. -/
theorem step_tick_polledOn (s : State) (a : Bit) (time : Timers) (acks : List Bit) (ts : List Turn) :
    step (polledOn s a time acks (.timebase :: ts)) = .next (tick (polledOn s a time acks ts)) :=
  step_timebaseTurn rfl rfl

section Budget
variable {s : State} {a : Bit} {k : List Micro} (hb : s.rsp.busy = true) (ht : s.seq.todo = .ackPoll :: k)
  (hlevel : a ≠ phaseLevel s.hid.phase)
include hb ht hlevel

/-- Up to the budget, `n` rounds of a tick and a wrong answer leave the wait polling, with `n` increments counted. -/
theorem stepRun_polledOn (time : Timers) (hstart : time.t100 = s.hid.t0) (n : Nat) (hn : n ≤ s.par.waitAck.toNat)
    (acks : List Bit) (ts : List Turn) :
    ∃ later, (later.t100 - s.hid.t0).toNat = n ∧
      stepRun (2 * n) (polledOn s a time (List.replicate n a ++ acks) (tickAndPoll n ++ ts))
        = .next (polledOn s a later acks ts) := by
  induction n generalizing acks ts with
  | zero => exact ⟨time, by simp [hstart], rfl⟩
  | succ n ih =>
    obtain ⟨now, helapsed, hrun⟩ := ih (by omega) (a :: acks) (.timebase :: .engine :: ts)
    have htick := step_tick_polledOn s a now (a :: acks) (.engine :: ts)
    set w := tick (polledOn s a now (a :: acks) (.engine :: ts))
    have hcount : (w.time.t100 - s.hid.t0).toNat = n + 1 := toNat_elapsed_succ helapsed (by omega)
    have hpoll : step w = .next (polledOn s a w.time acks ts) :=
      (step_engineTurn rfl).trans
        (engineStep_poll_again (s := { w with env.sched := ts }) hb ht rfl hlevel (hcount ▸ Nat.not_lt.mpr hn))
    refine ⟨w.time, hcount, ?_⟩
    rw [Nat.mul_succ, List.replicate_succ', tickAndPoll_succ, List.append_assoc, List.append_assoc]
    exact (stepRun_of_stepRun 2 hrun).trans ((stepRun_succ_of_step 1 htick).trans (stepRun_succ_of_step 0 hpoll))

end Budget

/-- Settles O20: a first poll, `P` rounds within the budget, and the tick and the poll at which it is exceeded. -/
theorem ackWaitFailsAfterItsBudget : Obligations.AckWaitFailsAfterItsBudget := by
  intro s a acks k ts hb ht hsnap hlimit hlevel ha hs
  have hbelow : s.par.waitAck.toNat + 1 < 2 ^ 16 := by bv_omega
  have hsched : s.env.sched =
      .engine :: (tickAndPoll s.par.waitAck.toNat ++ .timebase :: .engine :: ts) := by
    rw [hs, ← tickAndPoll, tickAndPoll_succ, List.cons_append, List.append_assoc]; rfl
  have hacks : s.env.ackIn = a :: (List.replicate s.par.waitAck.toNat a ++ a :: acks) := by
    rw [ha, List.replicate_succ, List.replicate_succ', List.cons_append, List.append_assoc]; rfl
  have hnone : ¬ s.par.waitAck.toNat < (s.time.t100 - s.hid.t0).toNat := by simp [hsnap]
  have hfirst := (step_engineTurn hsched).trans
    (engineStep_poll_again (s := { s with env.sched := _ }) hb ht hacks hlevel hnone)
  obtain ⟨now, helapsed, hrun⟩ := stepRun_polledOn hb ht hlevel s.time hsnap.symm s.par.waitAck.toNat le_rfl
    (a :: acks) (.timebase :: .engine :: ts)
  have htick := step_tick_polledOn s a now (a :: acks) (.engine :: ts)
  set w := tick (polledOn s a now (a :: acks) (.engine :: ts))
  have hcount : (w.time.t100 - s.hid.t0).toNat = s.par.waitAck.toNat + 1 := toNat_elapsed_succ helapsed hbelow
  have hwait : stepRun (2 * s.par.waitAck.toNat + 2) s = .next w :=
    (stepRun_succ_of_step _ hfirst).trans ((stepRun_of_stepRun 1 hrun).trans (stepRun_succ_of_step 0 htick))
  have hfail := (step_engineTurn (s := w) rfl).trans
    (engineStep_poll_overdue (s := { w with env.sched := ts }) hb ht rfl hlevel (hcount ▸ Nat.lt_succ_self _))
  have htime : w.time.t100 = s.time.t100 + s.par.waitAck + 1#16 := by
    rw [hsnap] at hcount; bv_omega
  exact ⟨⟨w, hwait, ht⟩, _, (stepRun_of_stepRun 1 hwait).trans (stepRun_succ_of_step 0 hfail), rfl, rfl, htime,
    rfl, rfl, rfl, rfl, rfl, rfl, rfl⟩

/-! ## A receiver wired to a sender (R118) -/

/-- The three groups of a sent byte make the byte again (R82). -/
theorem received_groups (b : Byte) :
    received (b.extractLsb' 5 3, b.extractLsb' 2 3, 0#1 ++ b.extractLsb' 0 2) = b := by
  have hlow : (0#1 ++ b.extractLsb' 0 2).extractLsb' 0 2 = b.extractLsb' 0 2 := BitVec.extractLsb'_append_eq_right
  have hhigh : b.extractLsb' 5 3 ++ b.extractLsb' 2 3 = b.extractLsb' 2 6 :=
    BitVec.extractLsb'_append_extractLsb'_eq_extractLsb' rfl
  have hall : b.extractLsb' 2 6 ++ b.extractLsb' 0 2 = b.extractLsb' 0 8 :=
    BitVec.extractLsb'_append_extractLsb'_eq_extractLsb' rfl
  rw [received, hlow, hhigh, hall, BitVec.extractLsb'_eq_self]

/-- Settles O22: each side runs its byte order, and the sender's three groups are the receiver's byte. -/
theorem sendThenReceiveGivesTheByte : Obligations.SendThenReceiveGivesTheByte := by
  intro s r b b' acksS acksR datas hbs hls has hbr hlr har hdr
  obtain ⟨t, hsend, hsent⟩ := wireByteNormalSends s b acksS hbs hls has
  obtain ⟨u, hrecv, hreceived⟩ := wireByteNormalReceives r b' acksR _ _ _ datas hbr hlr har hdr
  refine ⟨⟨t, _, hsend, hsent, rfl⟩, u, _, _, hrecv, hreceived, ?_⟩
  exact congrArg (fun v => { r.seq with retStatus := 0x00#8, retByte := v }) (received_groups b)

end Sys2Proof.Machine

/-! PROOF. The probe and the device reset (R120 to R123): runs of Engine and Timebase that leave the rest of the
schedule untouched, and how they join; `TickWait` by induction on its increments; RESET_DEVICE as a chain of line writes
and delays; IS_ALIVE by induction on the samples of a level, and then on the levels. -/

namespace Sys2Proof.Machine

open Sys2Proof.Safety

/-! ## Runs over a listed part of the schedule (R5, R61) -/

/-- The same machine with another schedule. -/
def onSchedule (ts : List Turn) (s : State) : State := { s with env.sched := ts }

theorem onSchedule_self {s : State} {ts : List Turn} (h : s.env.sched = ts) : onSchedule ts s = s := by
  subst h; rfl

/-- The turns lead from `s` to `u` with the trace `es`, one step each, whatever the schedule lists after them. -/
def RunsBy (turns : List Turn) (s : State) (es : List Event) (u : State) : Prop :=
  ∀ ts, stepRun turns.length (onSchedule (turns ++ ts) s) = .next (onSchedule ts u) ∧
    stepTrace turns.length (onSchedule (turns ++ ts) s) = es

theorem stepTrace_add {m : Nat} {s t : State} (n : Nat) (h : stepRun m s = .next t) :
    stepTrace (m + n) s = stepTrace m s ++ stepTrace n t := by
  induction m generalizing s with
  | zero => cases h; rw [Nat.zero_add]; rfl
  | succ m ih =>
    rw [Nat.add_right_comm]
    cases hs : step s with
    | next u =>
      simp only [stepRun, stepTrace, hs] at h ⊢
      rw [ih h]
      split <;> rfl
    | fault r => simp only [stepRun, hs] at h; cases h
    | refused r => simp only [stepRun, hs] at h; cases h

theorem runsBy_nil (s : State) : RunsBy [] s [] s := fun _ => ⟨rfl, rfl⟩

theorem runsBy_append {xs ys : List Turn} {s t u : State} {es fs : List Event} (h : RunsBy xs s es t)
    (g : RunsBy ys t fs u) : RunsBy (xs ++ ys) s (es ++ fs) u := by
  intro ts
  obtain ⟨hrun, htrace⟩ := h (ys ++ ts)
  obtain ⟨grun, gtrace⟩ := g ts
  rw [List.length_append, List.append_assoc]
  exact ⟨(stepRun_of_stepRun _ hrun).trans grun, by rw [stepTrace_add _ hrun, htrace, gtrace]⟩

/-- One turn; a step without an event adds nothing to the trace. -/
theorem runsBy_step {x : Turn} {s t : State}
    (h : ∀ ts, step (onSchedule (x :: ts) s) = .next (onSchedule ts t)) :
    RunsBy [x] s (if t.env.event = .quiet then [] else [t.env.event]) t :=
  fun ts => ⟨stepRun_succ_of_step 0 (h ts), by
    simp only [List.length_singleton, List.singleton_append, stepTrace, h ts]; rfl⟩

theorem runsBy_engine {s t : State} (h : ∀ ts, engineStep (onSchedule ts s) = .next (onSchedule ts t)) :
    RunsBy [.engine] s (if t.env.event = .quiet then [] else [t.env.event]) t :=
  runsBy_step fun ts => (step_engineTurn rfl).trans (h ts)

theorem runsBy_quiet {s t : State} (h : ∀ ts, engineStep (onSchedule ts s) = .next (onSchedule ts t))
    (hq : t.env.event = .quiet) : RunsBy [.engine] s [] t := by
  have hstep := runsBy_engine h
  rwa [if_pos hq] at hstep

/-- With no poll owed a turn of the Timebase is a tick. -/
theorem runsBy_tick {s : State} (hp : s.env.polled = true) : RunsBy [.timebase] s [.tick] (tick s) :=
  runsBy_step fun ts => step_timebaseTurn (s := onSchedule (.timebase :: ts) s) rfl hp

/-- Some turns of Engine and Timebase lead from `s` to `u` with the trace `es`. -/
def Runs (s : State) (es : List Event) (u : State) : Prop :=
  ∃ turns, (∀ x ∈ turns, x = Turn.engine ∨ x = Turn.timebase) ∧ RunsBy turns s es u

theorem runs_append {s t u : State} {es fs : List Event} (h : Runs s es t) (g : Runs t fs u) :
    Runs s (es ++ fs) u := by
  obtain ⟨xs, hxs, h⟩ := h
  obtain ⟨ys, hys, g⟩ := g
  exact ⟨xs ++ ys, List.forall_mem_append.mpr ⟨hxs, hys⟩, runsBy_append h g⟩

theorem runs_nil (s : State) : Runs s [] s := ⟨[], nofun, runsBy_nil s⟩

/-- An Engine step without an event, before a run. -/
theorem runs_quiet {s t u : State} {es : List Event}
    (h : ∀ ts, engineStep (onSchedule ts s) = .next (onSchedule ts t)) (hq : t.env.event = .quiet)
    (g : Runs t es u) : Runs s es u :=
  runs_append ⟨[.engine], by simp, runsBy_quiet h hq⟩ g

/-- An Engine step with an event, before a run. -/
theorem runs_shown {s t u : State} {es : List Event} {e : Event}
    (h : ∀ ts, engineStep (onSchedule ts s) = .next (onSchedule ts t)) (he : t.env.event = e) (hq : e ≠ .quiet)
    (g : Runs t es u) : Runs s (e :: es) u := by
  subst he
  have hstep := runsBy_engine h
  rw [if_neg hq] at hstep
  exact runs_append ⟨[.engine], by simp, hstep⟩ g

theorem reaches_of_runs {s u : State} {es : List Event} (h : Runs s es u) :
    Reaches s es (onSchedule s.env.sched u) := by
  obtain ⟨turns, hturns, h⟩ := h
  exact ⟨turns.length, turns, hturns, h s.env.sched⟩

/-- A running command between two statements, with no poll owed: the lines, the counters, the hidden registers, the
Device's answers, the statements ahead and the event are as given, and every other register is that of `s`. -/
def standing (s : State) (lines : Lines) (time : Timers) (hid : Hidden) (acks : List Bit) (k : List Micro) (e : Event) :
    State :=
  { s with lines := lines, time := time, hid := hid, rsp.done := false, seq.todo := k,
           env.ackIn := acks, env.event := e, env.polled := true }

section Standing
variable (s : State) (lines : Lines) (time : Timers) (hid : Hidden) (acks : List Bit) (k : List Micro) (e : Event)
@[simp] theorem standing_time : (standing s lines time hid acks k e).time = time := rfl
@[simp] theorem standing_hid : (standing s lines time hid acks k e).hid = hid := rfl
@[simp] theorem standing_par : (standing s lines time hid acks k e).par = s.par := rfl
end Standing

/-! ## The tick counters along a delay (R26) -/

/-- One increment of `T100` (R26). -/
def nextTime (x : Timers) : Timers :=
  { t100 := x.t100 + 1#16, t10ms := if x.div + 1 = 0 then x.t10ms + 1#16 else x.t10ms, div := x.div + 1 }

theorem tick_time (s : State) : (tick s).time = nextTime s.time := rfl

/-- `n` increments of `T100`. -/
def later (n : Nat) (x : Timers) : Timers := nextTime^[n] x

theorem later_succ (n : Nat) (x : Timers) : later (n + 1) x = later n (nextTime x) := rfl

theorem later_later (m n : Nat) (x : Timers) : later n (later m x) = later (m + n) x := by
  rw [Nat.add_comm, later, later, later, Function.iterate_add_apply]

theorem tick_iterate_time (n : Nat) (s : State) : (tick^[n] s).time = later n s.time := by
  induction n generalizing s with
  | zero => rfl
  | succ n ih => rw [Function.iterate_succ_apply, ih, tick_time, later_succ]

theorem later_t100 (n : Nat) (s : State) : (later n s.time).t100 = s.time.t100 + BitVec.ofNat 16 n := by
  rw [← tick_iterate_time, tick_iterate_t100]

/-! ## `TickWait` (R120) -/

section TickWait
variable {s : State} {p : Param} {k : List Micro}

/-- A poll ends the wait if the count has been seen, and else stands again where it stood. -/
theorem engineStep_tickPoll (hb : s.rsp.busy = true) (ht : s.seq.todo = .tickPoll p :: k) :
    engineStep s = .next (standing s s.lines s.time s.hid s.env.ackIn
      (if (s.par.get p).toNat ≤ (s.time.t100 - s.hid.t0).toNat then k else Micro.tickPoll p :: k) .quiet) := by
  refine (engineStep_statement hb ht nofun).trans (congrArg _ ?_)
  split_ifs with hover
  · exact if_pos (decide_eq_true hover)
  · exact if_neg (mt of_decide_eq_true hover)

/-- `n` rounds of a poll and a tick. -/
def pollAndTick (n : Nat) : List Turn := (List.replicate n [Turn.engine, Turn.timebase]).flatten

theorem pollAndTick_succ (n : Nat) : pollAndTick (n + 1) = [Turn.engine, Turn.timebase] ++ pollAndTick n := rfl

theorem runsBy_tickPoll (hb : s.rsp.busy = true) (ht : s.seq.todo = .tickPoll p :: k) :
    RunsBy [.engine] s [] (standing s s.lines s.time s.hid s.env.ackIn
      (if (s.par.get p).toNat ≤ (s.time.t100 - s.hid.t0).toNat then k else Micro.tickPoll p :: k) .quiet) :=
  runsBy_quiet (fun ts => engineStep_tickPoll (s := onSchedule ts s) hb ht) rfl

/-- With a poll before every tick and one after the last, the wait goes on until the count has been seen. -/
theorem runsBy_tickPolls (n : Nat) (hb : s.rsp.busy = true) (ht : s.seq.todo = .tickPoll p :: k)
    (hn : (s.time.t100 - s.hid.t0).toNat + n ≤ (s.par.get p).toNat) :
    RunsBy (pollAndTick n ++ [Turn.engine]) s (List.replicate n .tick)
      (standing s s.lines (later n s.time) s.hid s.env.ackIn
        (if (s.par.get p).toNat ≤ (s.time.t100 - s.hid.t0).toNat + n then k else Micro.tickPoll p :: k) .quiet) := by
  induction n generalizing s with
  | zero => exact runsBy_tickPoll hb ht
  | succ n ih =>
    have hcount : (s.time.t100 + 1#16 - s.hid.t0).toNat = (s.time.t100 - s.hid.t0).toNat + 1 :=
      toNat_elapsed_succ rfl (by have := (s.par.get p).isLt; omega)
    have hpoll := runsBy_tickPoll hb ht
    rw [if_neg (by omega)] at hpoll
    set w := standing s s.lines s.time s.hid s.env.ackIn (.tickPoll p :: k) .quiet
    have hrest := ih (s := tick w) hb rfl
      (by rw [tick_t100, tick_hid, tick_par, standing_time, standing_hid, standing_par]; omega)
    rw [tick_t100, tick_hid, tick_par, tick_time, standing_time, standing_hid, standing_par, ← later_succ, hcount,
      Nat.add_assoc, Nat.add_comm 1] at hrest
    exact runsBy_append (runsBy_append hpoll (runsBy_tick rfl)) hrest

/-- The state after the snapshot a wait begins with. -/
def snapped (k : List Micro) (s : State) : State :=
  { s with hid.t0 := s.time.t100, seq.todo := k, rsp.done := false, env.event := .quiet }

/-- From the snapshot on, the wait goes on until as many increments as its count have been seen. -/
theorem runsBy_tickWait {n : Nat} (hb : s.rsp.busy = true) (ht : s.seq.todo = .snap :: .tickPoll p :: k)
    (hn : n ≤ (s.par.get p).toNat) :
    RunsBy (.engine :: (pollAndTick n ++ [Turn.engine])) s (List.replicate n .tick)
      (standing s s.lines (later n s.time) { s.hid with t0 := s.time.t100 } s.env.ackIn
        (if (s.par.get p).toNat ≤ n then k else Micro.tickPoll p :: k) .quiet) := by
  have hsnap : RunsBy [.engine] s [] (snapped (.tickPoll p :: k) s) :=
    runsBy_quiet (fun ts => engineStep_snap (s := onSchedule ts s) hb ht) rfl
  have hnone : ((snapped (.tickPoll p :: k) s).time.t100 - (snapped (.tickPoll p :: k) s).hid.t0).toNat = 0 :=
    congrArg BitVec.toNat (BitVec.sub_self _)
  have hpolls := runsBy_tickPolls (s := snapped (.tickPoll p :: k) s) n hb rfl
    (by rw [hnone, Nat.zero_add]; exact hn)
  rw [hnone, Nat.zero_add] at hpolls
  exact runsBy_append hsnap hpolls

/-- A schedule that ticks and polls after the first poll, cut after the poll that follows `j` ticks. -/
theorem tickAndPoll_split {j n : Nat} (h : j ≤ n) :
    .engine :: tickAndPoll n = pollAndTick j ++ Turn.engine :: tickAndPoll (n - j) := by
  obtain ⟨m, rfl⟩ := Nat.exists_eq_add_of_le h
  rw [Nat.add_sub_cancel_left]
  clear h
  induction j with
  | zero => simp [pollAndTick]
  | succ j ih => rw [pollAndTick_succ, List.append_assoc, ← ih, Nat.add_right_comm]; rfl

/-- Where the wait stands after the snapshot, a first poll, and `j` rounds of a tick and a poll. -/
theorem stepRun_tickWait {ts : List Turn} {j : Nat} (hb : s.rsp.busy = true)
    (ht : s.seq.todo = .snap :: .tickPoll p :: k)
    (hs : s.env.sched = .engine :: .engine :: tickAndPoll (s.par.get p).toNat ++ ts) (hj : j ≤ (s.par.get p).toNat) :
    stepRun (2 * j + 2) s = .next (onSchedule (tickAndPoll ((s.par.get p).toNat - j) ++ ts)
      (standing s s.lines (later j s.time) { s.hid with t0 := s.time.t100 } s.env.ackIn
        (if (s.par.get p).toNat ≤ j then k else Micro.tickPoll p :: k) .quiet)) := by
  have hcut : s.env.sched = .engine :: (pollAndTick j ++ [Turn.engine])
      ++ (tickAndPoll ((s.par.get p).toNat - j) ++ ts) := by
    rw [hs, tickAndPoll_split hj]
    simp only [List.cons_append, List.append_assoc, List.nil_append]
  have hlength : (.engine :: (pollAndTick j ++ [Turn.engine])).length = 2 * j + 2 := by
    simp [pollAndTick, Nat.mul_comm]
  have hrun := (runsBy_tickWait hb ht hj (tickAndPoll ((s.par.get p).toNat - j) ++ ts)).1
  rwa [onSchedule_self hcut, hlength] at hrun

end TickWait

/-- Settles O26: the two outcomes of a poll, and the wait after `j` ticks, below the count and at it. -/
theorem tickWaitPolls : Obligations.TickWaitPolls := by
  refine ⟨fun s p k hb ht => ?_, fun s p k ts hb ht hs => ?_⟩
  · rw [engineStep_tickPoll hb ht]
    split_ifs with hover
    · rfl
    · rw [← ht]; rfl
  · refine ⟨fun j hj => ⟨_, stepRun_tickWait hb ht hs hj.le, if_neg (Nat.not_le.mpr hj)⟩,
      _, stepRun_tickWait hb ht hs le_rfl, ?_, rfl, ?_, ?_, rfl, rfl, rfl, rfl⟩
    · rw [if_pos le_rfl]; rfl
    · exact (later_t100 _ s).trans (by simp)
    · rw [Nat.sub_self]; rfl

/-! ## Writes of the lines, delays and completions as runs -/

/-- The event of a statement that only writes an output latch or an enable (R6 a). -/
def writeEvent : Micro → Option Event
  | .line l => some (.line l)
  | .latchData v => some (.dataOut v)
  | .latchClk v => some (.clkOut v)
  | .latchAck v => some (.ackOut v)
  | .resetDrive on => some (.resetDrive on)
  | .knock on => some (.knock on)
  | .exit => some (.line .off)
  | _ => none

theorem engineStep_write {m : Micro} {e : Event} {k : List Micro} {s : State} (he : writeEvent m = some e)
    (hb : s.rsp.busy = true) (ht : s.seq.todo = m :: k) :
    engineStep s = .next (standing s (applyEvent e s.lines) s.time s.hid s.env.ackIn k e) := by
  cases m with
  | line l | latchData v | latchClk v | latchAck v | resetDrive on | knock on | exit =>
    cases he
    exact engineStep_outside_wait hb ht nofun rfl rfl
  | _ => cases he

theorem writeEvent_ne_quiet {m : Micro} : writeEvent m ≠ some .quiet := by
  cases m <;> simp [writeEvent]

/-- A write of the lines, before a run. -/
theorem runs_write {s u : State} {m : Micro} {e : Event} {k : List Micro} {es : List Event}
    (he : writeEvent m = some e) (hb : s.rsp.busy = true) (ht : s.seq.todo = m :: k)
    (g : Runs (standing s (applyEvent e s.lines) s.time s.hid s.env.ackIn k e) es u) : Runs s (e :: es) u :=
  runs_shown (t := standing s (applyEvent e s.lines) s.time s.hid s.env.ackIn k e)
    (fun ts => engineStep_write (s := onSchedule ts s) he hb ht) rfl (fun h => writeEvent_ne_quiet (h ▸ he)) g

/-- The state after `complete(st)` of a running command (R77). -/
def completed (st : Byte) (s : State) (lines : Lines) (time : Timers) (hid : Hidden) (acks : List Bit) : State :=
  { s with lines := lines, time := time, hid := hid, env.ackIn := acks,
           rsp.ill := false, rsp.status := st, rsp.busy := false, rsp.done := true, seq.todo := [],
           env.event := .quiet, env.polled := true }

section Statements
variable {s u : State} {lines : Lines} {time : Timers} {hid : Hidden} {acks : List Bit} {m : Micro} {e e' : Event}
  {k : List Micro} {es : List Event}

theorem runs_standing_write (he : writeEvent m = some e) (hb : s.rsp.busy = true)
    (g : Runs (standing s (applyEvent e lines) time hid acks k e) es u) :
    Runs (standing s lines time hid acks (m :: k) e') (e :: es) u :=
  runs_write he hb rfl g

/-- A delay, before a run. -/
theorem runs_tickWait {p : Param} {n : Nat} (hn : (s.par.get p).toNat = n) (hb : s.rsp.busy = true)
    (g : Runs (standing s lines (later n time) { hid with t0 := time.t100 } acks k .quiet) es u) :
    Runs (standing s lines time hid acks (tickWait p ++ k) e) (List.replicate n Event.tick ++ es) u := by
  have hwait := runsBy_tickWait (s := standing s lines time hid acks (tickWait p ++ k) e) hb rfl hn.ge
  rw [standing_par, if_pos hn.le] at hwait
  have hturns : ∀ x ∈ Turn.engine :: (pollAndTick n ++ [Turn.engine]), x = Turn.engine ∨ x = Turn.timebase := by
    simp +contextual [pollAndTick, or_imp]
  exact runs_append ⟨_, hturns, hwait⟩ g

theorem runs_completeOk (hb : s.rsp.busy = true) :
    Runs (standing s lines time hid acks [.completeOk] e) [] (completed stOk s lines time hid acks) :=
  runs_quiet (t := completed stOk s lines time hid acks)
    (fun _ => engineStep_outside_wait hb rfl nofun rfl rfl) rfl (runs_nil _)

theorem runs_completeRet (hb : s.rsp.busy = true) :
    Runs (standing s lines time hid acks [.completeRet] e) [] (completed s.seq.retStatus s lines time hid acks) :=
  runs_quiet (t := completed s.seq.retStatus s lines time hid acks)
    (fun _ => engineStep_outside_wait hb rfl nofun rfl rfl) rfl (runs_nil _)

end Statements

/-! ## RESET_DEVICE (R123) -/

theorem exec_resetDevice {s : State} {mode : Byte} (hl : s.lines.ls = .off) (hm : mode.toNat ≤ 1) :
    exec (.resetDevice mode) s = .next (accept (resetBody mode) s) := if_pos ⟨hl, decide_eq_true hm⟩

theorem exec_resetDevice_bad_mode {s : State} {mode : Byte} (hm : 1 < mode.toNat) :
    exec (.resetDevice mode) s = .next (reject s) :=
  if_neg fun h => absurd (of_decide_eq_true h.2) (Nat.not_le.mpr hm)

/-- Both modes end in the hold delay, the release of the lines, and the completion. -/
theorem runs_resetRelease {s : State} {lines : Lines} {time : Timers} {hid : Hidden} {acks : List Bit} {e : Event}
    (hb : s.rsp.busy = true) :
    Runs (standing s lines time hid acks (tickWait .resetHold
        ++ [Micro.resetDrive false, Micro.knock false, Micro.latchAck 1#1, Micro.latchData 0b111#3,
          Micro.completeOk]) e)
      (List.replicate s.par.resetHold.toNat Event.tick
        ++ [Event.resetDrive false, Event.knock false, Event.ackOut 1#1, Event.dataOut 0b111#3])
      (completed stOk s { lines with rstDrv := false, knock := false, ackOut := 1#1, dataOut := 0b111#3 }
        (later s.par.resetHold.toNat time) { hid with t0 := time.t100 } acks) := by
  refine runs_tickWait (p := .resetHold) rfl hb ?_
  refine runs_standing_write rfl hb (runs_standing_write rfl hb (runs_standing_write rfl hb ?_))
  exact runs_standing_write rfl hb (runs_completeOk hb)

/-- The pre-delay and the knock of mode 1. -/
theorem runs_knock {s u : State} {lines : Lines} {time : Timers} {hid : Hidden} {acks : List Bit} {e : Event}
    {k : List Micro} {es : List Event} (hb : s.rsp.busy = true)
    (g : Runs (standing s { lines with dataOut := 0b000#3, ackOut := 0#1, knock := true }
      (later s.par.resetPre.toNat time) { hid with t0 := time.t100 } acks k (.knock true)) es u) :
    Runs (standing s lines time hid acks (knockSteps 0x01#8 ++ k) e)
      (List.replicate s.par.resetPre.toNat Event.tick
        ++ [Event.dataOut 0b000#3, Event.ackOut 0#1, Event.knock true] ++ es) u := by
  rw [List.append_assoc]
  refine runs_tickWait (p := .resetPre) rfl hb ?_
  exact runs_standing_write rfl hb (runs_standing_write rfl hb (runs_standing_write rfl hb g))

/-- Settles O27: the refusals, and each mode as the runs of its parts. -/
theorem resetDeviceCompletes : Obligations.ResetDeviceCompletes := by
  refine ⟨fun mode => rfl, fun s mode hbad => ?_, fun s mode hl hmode => ?_⟩
  · rcases hbad with hline | hmode
    · exact refused_of_exec (exec_wrong_line rfl hline)
    · exact refused_of_exec (exec_resetDevice_bad_mode hmode)
  · rcases hmode with rfl | rfl
    · have hrun := runs_write (s := accept (resetBody 0x00#8) s) rfl rfl rfl (runs_resetRelease rfl)
      have htime : (later s.par.resetHold.toNat s.time).t100 = s.time.t100 + 0#16 + s.par.resetHold := by
        simp [later_t100]
      exact ⟨_, _, exec_resetDevice hl (by decide), reaches_of_runs hrun,
        rfl, htime, rfl, rfl, rfl, rfl, rfl, rfl, rfl⟩
    · have hrun := runs_write (s := accept (resetBody 0x01#8) s) rfl rfl rfl (runs_knock rfl (runs_resetRelease rfl))
      rw [← List.append_assoc] at hrun
      have htime : (later s.par.resetHold.toNat (later s.par.resetPre.toNat s.time)).t100
          = s.time.t100 + s.par.resetPre + s.par.resetHold := by
        simp [later_later, later_t100, BitVec.ofNat_add, BitVec.add_assoc]
      exact ⟨_, _, exec_resetDevice hl (by decide), reaches_of_runs hrun,
        rfl, htime, rfl, rfl, rfl, rfl, rfl, rfl, rfl⟩

/-! ## The statements of the probe (R121) -/

section Probe
variable {s : State} {level a : Bit} {timeout : Word} {acks : List Bit} {k : List Micro}

/-- A level that is stable ends its loop. -/
theorem engineStep_aliveTest_stable (hb : s.rsp.busy = true) (ht : s.seq.todo = .aliveTest level timeout :: k)
    (hstab : ¬ s.hid.stab.toNat < s.par.aliveRepeat.toNat) :
    engineStep s = .next (standing s s.lines s.time s.hid s.env.ackIn k .quiet) :=
  (engineStep_statement hb ht nofun).trans (congrArg _ (if_neg hstab))

/-- A level that is not stable within the budget is sampled. -/
theorem engineStep_aliveTest_samples (hb : s.rsp.busy = true) (ht : s.seq.todo = .aliveTest level timeout :: k)
    (hstab : s.hid.stab.toNat < s.par.aliveRepeat.toNat)
    (hwithin : ¬ timeout.toNat < (s.time.t10ms - s.hid.t0a).toNat) :
    engineStep s =
      .next (standing s s.lines s.time s.hid s.env.ackIn (.aliveSample level timeout :: k) .quiet) :=
  (engineStep_statement hb ht nofun).trans
    (congrArg _ ((if_pos hstab).trans (if_neg (mt of_decide_eq_true hwithin))))

/-- A level that is not stable when the budget is exceeded takes the abort path. -/
theorem engineStep_aliveTest_overdue (hb : s.rsp.busy = true) (ht : s.seq.todo = .aliveTest level timeout :: k)
    (hstab : s.hid.stab.toNat < s.par.aliveRepeat.toNat)
    (hover : timeout.toNat < (s.time.t10ms - s.hid.t0a).toNat) :
    engineStep s = .next { s with
      seq.todo := dropToExit k, seq.retStatus := stNotAlive, rsp.done := false, env.event := .quiet,
      env.polled := true } :=
  (engineStep_statement hb ht nofun).trans (congrArg _ ((if_pos hstab).trans (if_pos (decide_eq_true hover))))

theorem engineStep_aliveSample (hb : s.rsp.busy = true) (ht : s.seq.todo = .aliveSample level timeout :: k)
    (ha : s.env.ackIn = a :: acks) :
    engineStep s = .next (standing s s.lines s.time { s.hid with stab := if a = level then s.hid.stab + 1#16 else 0#16 }
      acks (tickWait .aliveDelay ++ .aliveTest level timeout :: k) (.sampleAck a)) := by
  rw [engineStep_statement hb ht nofun, runMicro, aliveSample, sampleAck_listed (by exact ha)]
  rfl

end Probe

/-- Settles O24: the sample of the loop, whatever it shows. -/
theorem badSampleRestartsTheLevel : Obligations.BadSampleRestartsTheLevel :=
  fun _ _ _ _ _ _ hb ht ha => engineStep_aliveSample hb ht ha

/-- Settles O25: the abort path leads to `StateOff()` and the completion with the status it was given. -/
theorem probeGivesUpOverBudget : Obligations.ProbeGivesUpOverBudget := by
  intro s level timeout k hb ht hexit hstab hover
  have hoverdue := engineStep_aliveTest_overdue hb ht hstab hover
  have hoff := reaches_exit { s with
    seq.todo := dropToExit k, seq.retStatus := stNotAlive, rsp.done := false, env.event := .quiet,
    env.polled := true } .completeRet hb hexit
  exact engineReaches_quiet hoverdue rfl (engineReaches_trans hoff (reaches_completeRet _ hb rfl))

/-! ## The budget of the probe -/

/-- The increments of `T100` counted since `T10MS` last stood at `start`. -/
def spent (x : Timers) (start : Word) : Nat := 100 * (x.t10ms - start).toNat + x.div.val

theorem spent_nextTime {x : Timers} {start : Word} (h : spent x start + 1 < 100 * 2 ^ 16) :
    spent (nextTime x) start = spent x start + 1 := by
  have hdiv : (x.div + 1).val = (x.div.val + 1) % 100 := Fin.val_add _ _
  have hzero : x.div + 1 = 0 ↔ x.div.val = 99 := by
    rw [Fin.ext_iff, hdiv, Fin.val_zero]; omega
  simp only [spent, nextTime, hdiv, hzero] at h ⊢
  split_ifs with hlast
  · have := toNat_elapsed_succ (now := x.t10ms) (start := start) rfl (by omega)
    omega
  · omega

theorem spent_later {n : Nat} {x : Timers} {start : Word} (h : spent x start + n < 100 * 2 ^ 16) :
    spent (later n x) start = spent x start + n := by
  induction n generalizing x with
  | zero => rfl
  | succ n ih =>
    have hnext : spent (nextTime x) start = spent x start + 1 := spent_nextTime (by omega)
    rw [later_succ, ih (by omega), hnext]
    omega

/-! ## IS_ALIVE with a Device that is never wrong (R121, R122) -/

section Levels
variable {s u : State} {lines : Lines} {time : Timers} {hid : Hidden} {acks : List Bit} {k : List Micro}
  {e : Event} {es : List Event} {timeout : Word} {level : Bit} {r d : Nat} (hb : s.rsp.busy = true)
include hb

theorem runs_aliveTest_stable (hstab : ¬ hid.stab.toNat < s.par.aliveRepeat.toNat)
    (g : Runs (standing s lines time hid acks k .quiet) es u) :
    Runs (standing s lines time hid acks (.aliveTest level timeout :: k) e) es u :=
  runs_quiet (t := standing s lines time hid acks k .quiet) (fun ts => engineStep_aliveTest_stable
    (s := onSchedule ts (standing s lines time hid acks (.aliveTest level timeout :: k) e)) hb rfl hstab) rfl g

theorem runs_aliveTest_samples (hstab : hid.stab.toNat < s.par.aliveRepeat.toNat)
    (hwithin : ¬ timeout.toNat < (time.t10ms - hid.t0a).toNat)
    (g : Runs (standing s lines time hid acks (.aliveSample level timeout :: k) .quiet) es u) :
    Runs (standing s lines time hid acks (.aliveTest level timeout :: k) e) es u :=
  runs_quiet (t := standing s lines time hid acks (.aliveSample level timeout :: k) .quiet)
    (fun ts => engineStep_aliveTest_samples
      (s := onSchedule ts (standing s lines time hid acks (.aliveTest level timeout :: k) e)) hb rfl hstab hwithin)
    rfl g

/-- A sample at the level, before a run. -/
theorem runs_aliveSample (g : Runs (standing s lines time { hid with stab := hid.stab + 1#16 } acks
      (tickWait .aliveDelay ++ .aliveTest level timeout :: k) (.sampleAck level)) es u) :
    Runs (standing s lines time hid (level :: acks) (.aliveSample level timeout :: k) e)
      (.sampleAck level :: es) u := by
  refine runs_shown (t := standing s lines time { hid with stab := hid.stab + 1#16 } acks
    (tickWait .aliveDelay ++ .aliveTest level timeout :: k) (.sampleAck level)) (fun ts => ?_) rfl nofun g
  have hstep := engineStep_aliveSample
    (s := onSchedule ts (standing s lines time hid (level :: acks) (.aliveSample level timeout :: k) e)) hb rfl rfl
  rwa [if_pos rfl] at hstep

/-- The clock write that begins a level, before a run. -/
theorem runs_aliveClk (g : Runs (standing s { lines with clkOut := level } time { hid with stab := 0#16 } acks k
      (.clk level)) es u) :
    Runs (standing s lines time hid acks (.aliveClk level :: k) e) (.clk level :: es) u :=
  runs_shown (t := standing s { lines with clkOut := level } time { hid with stab := 0#16 } acks k (.clk level))
    (fun _ => engineStep_statement (m := .aliveClk level) hb rfl nofun) rfl nofun g

/-- The snapshot the budget is counted from, before a run. -/
theorem runs_snapAlive (g : Runs (standing s lines time { hid with t0a := time.t10ms } acks k .quiet) es u) :
    Runs (standing s lines time hid acks (.snapAlive :: k) e) es u :=
  runs_quiet (t := standing s lines time { hid with t0a := time.t10ms } acks k .quiet)
    (fun _ => engineStep_outside_wait (m := .snapAlive) hb rfl nofun rfl rfl) rfl g

/-- `StateOff()` and the completion with the status returned last. -/
theorem runs_exit : Runs (standing s lines time hid acks (exitSteps .completeRet) e) offTrace
    (completed s.seq.retStatus s { lines with ls := .off, dataOut := 0b111#3, clkOut := 1#1 } time hid acks) :=
  runs_standing_write rfl hb (runs_standing_write rfl hb (runs_standing_write rfl hb (runs_completeRet hb)))

/-- The samples of one level that are still to be taken, with the delay after each. -/
theorem runs_samples (hd : s.par.aliveDelay.toNat = d) (n : Nat)
    (hleft : hid.stab.toNat + n = s.par.aliveRepeat.toNat)
    (hbudget : spent time hid.t0a + n * d < 100 * (timeout.toNat + 1)) :
    ∃ t0, Runs (standing s lines time hid (List.replicate n level ++ acks) (.aliveTest level timeout :: k) e)
      (List.replicate n (.sampleAck level :: List.replicate d .tick)).flatten
      (standing s lines (later (n * d) time) { hid with t0 := t0, stab := s.par.aliveRepeat } acks k .quiet) := by
  induction n generalizing time hid e with
  | zero =>
    have hstab : hid.stab = s.par.aliveRepeat := BitVec.eq_of_toNat_eq hleft
    refine ⟨hid.t0, runs_aliveTest_stable hb hleft.ge.not_gt ?_⟩
    rw [← hstab, Nat.zero_mul]
    exact runs_nil _
  | succ n ih =>
    have hlimit : timeout.toNat < 2 ^ 16 := timeout.isLt
    have hrepeat : s.par.aliveRepeat.toNat < 2 ^ 16 := s.par.aliveRepeat.isLt
    have hmore : (n + 1) * d = n * d + d := Nat.succ_mul n d
    have hwithin : ¬ timeout.toNat < (time.t10ms - hid.t0a).toNat := by
      unfold spent at hbudget; omega
    have hspent : spent (later d time) hid.t0a = spent time hid.t0a + d := spent_later (by omega)
    have hcount : (hid.stab + 1#16).toNat = hid.stab.toNat + 1 := by bv_omega
    obtain ⟨t0, hrest⟩ := ih (time := later d time) (hid := { hid with t0 := time.t100, stab := hid.stab + 1#16 })
      (e := .quiet) (by simp only [hcount]; omega) (by simp only [hspent]; omega)
    rw [later_later, Nat.add_comm d, ← hmore] at hrest
    exact ⟨t0, runs_aliveTest_samples hb (by omega) hwithin
      (runs_aliveSample hb (runs_tickWait (p := .aliveDelay) hd hb hrest))⟩

/-- One level: the clock write and all its samples. -/
theorem runs_level (hr : s.par.aliveRepeat.toNat = r) (hd : s.par.aliveDelay.toNat = d)
    (hbudget : spent time hid.t0a + r * d < 100 * (timeout.toNat + 1)) :
    ∃ t0, Runs (standing s lines time hid (List.replicate r level ++ acks) (aliveLevelSteps level timeout ++ k) e)
      (levelTrace level r d)
      (standing s { lines with clkOut := level } (later (r * d) time)
        { hid with t0 := t0, stab := s.par.aliveRepeat } acks k .quiet) := by
  obtain ⟨t0, hsamples⟩ := runs_samples (hid := { hid with stab := 0#16 }) hb hd r (hr ▸ Nat.zero_add _) hbudget
  exact ⟨t0, runs_aliveClk hb hsamples⟩

/-- The levels of the probe one after another, each counted from zero, within one budget. -/
theorem runs_levels (hr : s.par.aliveRepeat.toNat = r) (hd : s.par.aliveDelay.toNat = d) (levels : List Bit)
    (hbudget : spent time hid.t0a + (levels.length + 1) * (r * d) < 100 * (timeout.toNat + 1)) :
    ∃ t0, Runs (standing s lines time hid ((level :: levels).flatMap (List.replicate r ·) ++ acks)
        ((level :: levels).flatMap (aliveLevelSteps · timeout) ++ k) e)
      ((level :: levels).flatMap (levelTrace · r d))
      (standing s { lines with clkOut := (level :: levels).getLast nofun } (later ((levels.length + 1) * (r * d)) time)
        { hid with t0 := t0, stab := s.par.aliveRepeat } acks k .quiet) := by
  induction levels generalizing level lines time hid e with
  | nil => simpa using runs_level hb hr hd (by simpa using hbudget)
  | cons next levels ih =>
    have hlimit : timeout.toNat < 2 ^ 16 := timeout.isLt
    have hmore : ((next :: levels).length + 1) * (r * d) = r * d + (levels.length + 1) * (r * d) := by
      rw [List.length_cons, Nat.succ_mul, Nat.add_comm]
    rw [hmore] at hbudget ⊢
    have hspent : spent (later (r * d) time) hid.t0a = spent time hid.t0a + r * d := spent_later (by omega)
    obtain ⟨t1, hfirst⟩ := runs_level (lines := lines) (time := time) (hid := hid) (e := e) (level := level)
      (timeout := timeout) (acks := (next :: levels).flatMap (List.replicate r ·) ++ acks)
      (k := (next :: levels).flatMap (aliveLevelSteps · timeout) ++ k) hb hr hd (by omega)
    obtain ⟨t0, hrest⟩ := ih (level := next) (lines := { lines with clkOut := level }) (time := later (r * d) time)
      (hid := { hid with t0 := t1, stab := s.par.aliveRepeat }) (e := .quiet) (by simp only [hspent]; omega)
    rw [later_later] at hrest
    rw [List.flatMap_cons (x := level), List.flatMap_cons (x := level), List.append_assoc, List.append_assoc]
    exact ⟨t0, runs_append hfirst hrest⟩

/-- IS_ALIVE as a whole, with its four levels as a list. -/
theorem runs_aliveBody (hr : s.par.aliveRepeat.toNat = r) (hd : s.par.aliveDelay.toNat = d)
    (ht : s.seq.todo = aliveBody timeout)
    (ha : s.env.ackIn = [0#1, 1#1, 0#1, 1#1].flatMap (List.replicate r ·) ++ acks)
    (hticks : 4 * (r * d) ≤ 100 * timeout.toNat) :
    ∃ t0, Runs s (.line .recv :: ([0#1, 1#1, 0#1, 1#1].flatMap (levelTrace · r d) ++ offTrace))
      (completed s.seq.retStatus s { s.lines with ls := .off, dataOut := 0b111#3, clkOut := 1#1 }
        (later (4 * (r * d)) s.time) { s.hid with t0 := t0, t0a := s.time.t10ms, stab := s.par.aliveRepeat } acks) := by
  have hstart : spent s.time s.time.t10ms = s.time.div.val := by simp [spent]
  have hdiv : s.time.div.val < 100 := s.time.div.isLt
  obtain ⟨t0, hlevels⟩ := runs_levels (lines := { s.lines with ls := .recv }) (time := s.time)
    (hid := { s.hid with t0a := s.time.t10ms }) (level := 0#1) (e := .quiet) (acks := acks) (timeout := timeout)
    (k := exitSteps .completeRet) hb hr hd [1#1, 0#1, 1#1]
    (by simp only [hstart, List.length_cons, List.length_nil]; omega)
  refine ⟨t0, runs_write rfl hb ht ?_⟩
  rw [ha]
  exact runs_snapAlive hb (runs_append hlevels (runs_exit hb))

end Levels

theorem exec_isAlive {s : State} {timeout : Word} (hl : s.lines.ls = .off) :
    exec (.isAlive timeout) s = .next (accept (aliveBody timeout) s) := if_pos hl

/-- Settles O23: the whole of the probe, from the state in which it is taken. -/
theorem isAliveCompletes : Obligations.IsAliveCompletes := by
  intro s timeout acks r d hl hticks ha
  rw [Nat.mul_assoc] at hticks
  obtain ⟨t0, hrun⟩ := runs_aliveBody (s := accept (aliveBody timeout) s) (r := r) (d := d) (acks := acks)
    rfl rfl rfl rfl (ha.trans (by simp)) hticks
  have htrace : Event.line .recv :: ([0#1, 1#1, 0#1, 1#1].flatMap (levelTrace · r d) ++ offTrace) =
      .line .recv :: levelTrace 0#1 r d ++ levelTrace 1#1 r d ++ levelTrace 0#1 r d ++ levelTrace 1#1 r d
        ++ offTrace := by simp
  rw [htrace] at hrun
  refine ⟨_, _, exec_isAlive hl, reaches_of_runs hrun, ?_, ?_,
    rfl, rfl, rfl, rfl, rfl, rfl, rfl, rfl, rfl, rfl, rfl⟩
  · rw [← hl]; rfl
  · rw [Nat.mul_assoc]; exact later_t100 _ s

end Sys2Proof.Machine

/-! PROOF. Block commands (43_dtvtrans_block.md): the data loops when the Host fails at a byte (R134, R135, R177), by
induction on the bytes before the failure, and the way from a block command's packet through its frame to its result. -/

namespace Sys2Proof.Machine

open Sys2Proof.Safety

/-! ## The additive checksum (R130) -/

theorem checksum_toNat (chk : Byte) (data : List Byte) :
    (checksum chk data).toNat = (chk.toNat + ((data.map BitVec.toNat).sum + data.length)) % 256 := by
  induction data generalizing chk with
  | nil => exact (Nat.mod_eq_of_lt chk.isLt).symm
  | cons b rest ih =>
    have hstep : checksum chk (b :: rest) = checksum (addChk chk b) rest := rfl
    have hadd : (addChk chk b).toNat = (chk.toNat + b.toNat + 1) % 256 := by simp [addChk]
    rw [hstep, ih, hadd, List.map_cons, List.sum_cons, List.length_cons]
    omega

/-- Settles O36, from any value the sum starts at. -/
theorem checksumIsTheSum : Obligations.ChecksumIsTheSum := by
  intro data
  rw [checksum_toNat]
  simp

/-! ## A write frame's data after the Host failed (R134) -/

theorem hostPull_fails {s : State} {x h : Byte} {pulls : List (Byte × Byte)} (hp : s.env.pullIn = (x, h) :: pulls)
    (hh : h ≠ 0x00#8) :
    hostPull s = doNext [.wire (.wireByteNormal 0x00#8), .check, .accSend 0x00#8]
      { s with env.pullIn := pulls, env.event := .pull x h, lat.hst := h } := by
  simp only [hostPull, hp]
  exact if_neg hh

theorem sendLoop_fills {s : State} {n : Word} (hn : s.hid.bidx.toNat < n.toNat) (hh : s.lat.hst ≠ 0x00#8) :
    sendLoop n s = doNext [.wire (.wireByteNormal 0x00#8), .check, .accSend 0x00#8, .sendLoop n] s :=
  (if_pos hn).trans (if_neg hh)

theorem accSend_skips {s : State} (b : Byte) (hh : s.lat.hst ≠ 0x00#8) : accSend b s = nextByte s := if_neg hh

/-- A filler byte enters neither `CHK` nor `CRC16` nor `XFERLEN`. -/
theorem reaches_filler (s : State) (k : List Micro) (acks : List Bit) (hb : s.rsp.busy = true)
    (hl : s.lines.ls = .send) (hh : s.lat.hst ≠ 0x00#8)
    (ht : s.seq.todo = .wire (.wireByteNormal 0x00#8) :: .check :: .accSend 0x00#8 :: k)
    (ha : s.env.ackIn = ackEcho 1 ++ acks) :
    EngineReaches s (sentTrace 0x00#8)
      { s with
        lines.dataOut := 0b111#3, lines.clkOut := 1#1, lat.pst := 0x00#8, rsp.done := false,
        hid.t0 := s.time.t100, hid.sr := 0x00#8, hid.phase := .p4, hid.bidx := s.hid.bidx + 1#16,
        seq.todo := k, seq.retStatus := 0x00#8, env.ackIn := acks, env.event := .quiet, env.polled := true } :=
  engineReaches_then_quiet (reaches_sendChecked s 0x00#8 (.accSend 0x00#8 :: k) acks hb hl ht ha)
    (engineStep_outside_wait hb rfl nofun rfl (accSend_skips _ hh)) rfl

/-- The `m` fillers that are left, and the checksum after them. -/
theorem reaches_fillers (m : Nat) (s : State) (n : Word) (k : List Micro) (acks : List Bit)
    (hb : s.rsp.busy = true) (hl : s.lines.ls = .send) (hh : s.lat.hst ≠ 0x00#8)
    (ht : s.seq.todo = .sendLoop n :: .sendChk :: k) (hn : s.hid.bidx.toNat + m = n.toNat)
    (ha : s.env.ackIn = ackEcho (m + 1) ++ acks) :
    EngineReaches s ((List.replicate m (sentTrace 0x00#8)).flatten ++ sentTrace s.lat.chk)
      { s with
        lines.dataOut := 0b111#3, lines.clkOut := 1#1, lat.pst := 0x00#8, rsp.done := false,
        hid.t0 := s.time.t100, hid.sr := s.lat.chk, hid.phase := .p4, hid.bidx := n,
        seq.todo := k, seq.retStatus := 0x00#8, env.ackIn := acks, env.event := .quiet, env.polled := true } := by
  induction m generalizing s with
  | zero =>
    obtain rfl : s.hid.bidx = n := BitVec.eq_of_toNat_eq hn
    refine engineReaches_quiet (engineStep_outside_wait hb ht nofun rfl (sendLoop_ends (lt_irrefl _))) rfl ?_
    exact reaches_checksumSent (beginEngine true { s with seq.todo := .sendChk :: k }) k acks hb hl rfl ha
  | succ m ih =>
    have hlt : s.hid.bidx.toNat < n.toNat := by omega
    rw [List.replicate_succ, List.flatten_cons, List.append_assoc]
    refine engineReaches_quiet (engineStep_outside_wait hb ht nofun rfl (sendLoop_fills hlt hh)) rfl ?_
    exact engineReaches_trans (reaches_filler _ _ (ackEcho (m + 1) ++ acks) hb hl hh rfl ha)
      (ih _ hb hl hh rfl (toNat_index_next hn) rfl)

/-- The pull that fails: its byte and the `m` after it are fillers, and the checksum follows them. -/
theorem reaches_pullFails (m : Nat) (s : State) (n : Word) (x h : Byte) (k : List Micro) (acks : List Bit)
    (pulls : List (Byte × Byte)) (hb : s.rsp.busy = true) (hl : s.lines.ls = .send) (hh : s.lat.hst = 0x00#8)
    (hfail : h ≠ 0x00#8) (ht : s.seq.todo = .sendLoop n :: .sendChk :: k)
    (hn : s.hid.bidx.toNat + (m + 1) = n.toNat) (ha : s.env.ackIn = ackEcho (m + 2) ++ acks)
    (hp : s.env.pullIn = (x, h) :: pulls) :
    EngineReaches s
      (.pull x h :: ((List.replicate (m + 1) (sentTrace 0x00#8)).flatten ++ sentTrace s.lat.chk))
      { s with
        lines.dataOut := 0b111#3, lines.clkOut := 1#1, lat.hst := h, lat.pst := 0x00#8, rsp.done := false,
        hid.t0 := s.time.t100, hid.sr := s.lat.chk, hid.phase := .p4, hid.bidx := n,
        seq.todo := k, seq.retStatus := 0x00#8,
        env.ackIn := acks, env.pullIn := pulls, env.event := .quiet, env.polled := true } := by
  have hlt : s.hid.bidx.toNat < n.toNat := by omega
  rw [List.replicate_succ, List.flatten_cons, List.append_assoc]
  refine engineReaches_quiet (engineStep_outside_wait hb ht nofun rfl (sendLoop_pulls hlt hh)) rfl ?_
  refine engineReaches_shown (engineStep_outside_wait hb rfl nofun rfl (hostPull_fails hp hfail)) rfl nofun ?_
  exact engineReaches_trans (reaches_filler _ _ (ackEcho (m + 1) ++ acks) hb hl hfail rfl ha)
    (reaches_fillers m _ n k acks hb hl hfail rfl (toNat_index_next hn) rfl)

/-- A byte more is counted, a byte less of the list remains. -/
theorem counted_next (c : Word) (m : Nat) : c + 1#16 + BitVec.ofNat 16 m = c + BitVec.ofNat 16 (m + 1) := by
  rw [BitVec.add_assoc, BitVec.add_comm 1#16, BitVec.ofNat_add]

/-- The data bytes the Host gave, the failing pull with the `m` bytes behind it, and the checksum. -/
theorem reaches_sendData_pullFails (good : List Byte) (m : Nat) (s : State) (n c : Word) (x h : Byte)
    (k : List Micro) (acks : List Bit) (pulls : List (Byte × Byte)) (hb : s.rsp.busy = true)
    (hl : s.lines.ls = .send) (hh : s.lat.hst = 0x00#8) (hfail : h ≠ 0x00#8)
    (ht : s.seq.todo = .sendLoop n :: .sendChk :: k) (hn : s.hid.bidx.toNat + (good.length + (m + 1)) = n.toNat)
    (hc : s.blk.xferlen + BitVec.ofNat 16 good.length = c)
    (ha : s.env.ackIn = ackEcho (good.length + (m + 2)) ++ acks)
    (hp : s.env.pullIn = good.map (fun b => (b, 0x00#8)) ++ (x, h) :: pulls) :
    EngineReaches s
      (pulledTrace good ++ .pull x h :: ((List.replicate (m + 1) (sentTrace 0x00#8)).flatten
        ++ sentTrace (checksum s.lat.chk good)))
      { s with
        lines.dataOut := 0b111#3, lines.clkOut := 1#1,
        blk.crc16 := crcOver s.blk.crc16 good, blk.xferlen := c,
        lat.chk := checksum s.lat.chk good, lat.hst := h, lat.pst := 0x00#8, rsp.done := false,
        hid.t0 := s.time.t100, hid.sr := checksum s.lat.chk good, hid.phase := .p4, hid.bidx := n,
        seq.todo := k, seq.retStatus := 0x00#8,
        env.ackIn := acks, env.pullIn := pulls, env.event := .quiet, env.polled := true } := by
  induction good generalizing s with
  | nil =>
    obtain rfl : s.blk.xferlen = c := by simpa using hc
    rw [List.length_nil, Nat.zero_add] at hn ha
    exact reaches_pullFails m s n x h k acks pulls hb hl hh hfail ht hn ha hp
  | cons b rest ih =>
    rw [List.length_cons, Nat.add_right_comm] at hn ha
    have hlt : s.hid.bidx.toNat < n.toNat := by omega
    have hbyte := reaches_dataByteSent s n b _ (ackEcho (rest.length + (m + 2)) ++ acks) _ hb hl hh ht hlt ha hp
    rw [pulledTrace_cons, List.append_assoc]
    exact engineReaches_trans hbyte
      (ih _ hb hl hh rfl (toNat_index_next hn) ((counted_next _ _).trans hc) rfl rfl)

/-! ## A read frame's data after the Host failed (R135) -/

theorem hostPush_fails {s : State} (b : Byte) {h : Byte} {pushes : List Byte} (hp : s.env.pushIn = h :: pushes)
    (hh : h ≠ 0x00#8) :
    hostPush b s = nextByte { s with env.pushIn := pushes, env.event := .push b h, lat.hst := h } := by
  simp only [hostPush, hp]
  exact if_neg hh

theorem accRecv_drops {s : State} (hh : s.lat.hst ≠ 0x00#8) :
    accRecv s = nextByte { s with lat.chk := addChk s.lat.chk s.seq.retByte } := if_neg hh

/-- One data byte received, before anything is done with it. -/
theorem reaches_byteReceived (s : State) (n : Word) (d : Samples) (k : List Micro) (acks : List Bit)
    (datas : List Tri) (hb : s.rsp.busy = true) (hl : s.lines.ls = .recv) (ht : s.seq.todo = .recvLoop n :: k)
    (hn : s.hid.bidx.toNat < n.toNat) (ha : s.env.ackIn = ackEcho 1 ++ acks)
    (hd : s.env.dataIn = samples [d] ++ datas) :
    EngineReaches s (receivedTrace d)
      { s with
        lines.clkOut := 1#1, lat.pst := 0x00#8, rsp.done := false,
        hid.t0 := s.time.t100, hid.sr := received d, hid.phase := .p4,
        seq.todo := .accRecv :: .recvLoop n :: k, seq.retStatus := 0x00#8, seq.retByte := received d,
        env.ackIn := acks, env.dataIn := datas, env.event := .quiet, env.polled := true } :=
  engineReaches_quiet (engineStep_outside_wait hb ht nofun rfl (recvLoop_receives hn)) rfl
    (reaches_recvChecked (doNext [recvOne, .check, .accRecv, .recvLoop n] (beginEngine true { s with seq.todo := k }))
      0#8 (.accRecv :: .recvLoop n :: k) acks d datas hb hl rfl ha hd)

/-- A byte that is received and dropped enters the checksum alone. -/
theorem reaches_byteDropped (s : State) (n : Word) (d : Samples) (k : List Micro) (acks : List Bit)
    (datas : List Tri) (hb : s.rsp.busy = true) (hl : s.lines.ls = .recv) (hh : s.lat.hst ≠ 0x00#8)
    (ht : s.seq.todo = .recvLoop n :: k) (hn : s.hid.bidx.toNat < n.toNat)
    (ha : s.env.ackIn = ackEcho 1 ++ acks) (hd : s.env.dataIn = samples [d] ++ datas) :
    EngineReaches s (receivedTrace d)
      { s with
        lines.clkOut := 1#1, lat.chk := addChk s.lat.chk (received d), lat.pst := 0x00#8, rsp.done := false,
        hid.t0 := s.time.t100, hid.sr := received d, hid.phase := .p4, hid.bidx := s.hid.bidx + 1#16,
        seq.todo := .recvLoop n :: k, seq.retStatus := 0x00#8, seq.retByte := received d,
        env.ackIn := acks, env.dataIn := datas, env.event := .quiet, env.polled := true } := by
  have hbyte := reaches_byteReceived s n d k acks datas hb hl ht hn ha hd
  exact engineReaches_then_quiet hbyte (engineStep_outside_wait hb rfl nofun rfl (accRecv_drops hh)) rfl

/-- The byte whose push fails: it has entered the checksum, and is not counted. -/
theorem reaches_pushFails (s : State) (n : Word) (d : Samples) (h : Byte) (k : List Micro) (acks : List Bit)
    (datas : List Tri) (pushes : List Byte) (hb : s.rsp.busy = true) (hl : s.lines.ls = .recv)
    (hh : s.lat.hst = 0x00#8) (hfail : h ≠ 0x00#8) (ht : s.seq.todo = .recvLoop n :: k)
    (hn : s.hid.bidx.toNat < n.toNat) (ha : s.env.ackIn = ackEcho 1 ++ acks)
    (hd : s.env.dataIn = samples [d] ++ datas) (hp : s.env.pushIn = h :: pushes) :
    EngineReaches s (receivedTrace d ++ [.push (received d) h])
      { s with
        lines.clkOut := 1#1, lat.chk := addChk s.lat.chk (received d), lat.hst := h, lat.pst := 0x00#8,
        rsp.done := false,
        hid.t0 := s.time.t100, hid.sr := received d, hid.phase := .p4, hid.bidx := s.hid.bidx + 1#16,
        seq.todo := .recvLoop n :: k, seq.retStatus := 0x00#8, seq.retByte := received d,
        env.ackIn := acks, env.dataIn := datas, env.pushIn := pushes, env.event := .push (received d) h,
        env.polled := true } := by
  have hbyte := reaches_byteReceived s n d k acks datas hb hl ht hn ha hd
  have hacc := engineReaches_then_quiet hbyte (engineStep_outside_wait hb rfl nofun rfl (accRecv_pushes hh)) rfl
  exact engineReaches_trans hacc (engineReaches_shown
    (engineStep_outside_wait hb rfl nofun rfl (hostPush_fails _ hp hfail)) rfl nofun (engineReaches_refl _))

/-- The bytes that are left to receive and drop, and the Device's checksum after them. -/
theorem reaches_dropData (dropped : List Samples) (s : State) (n : Word) (d : Samples) (k : List Micro)
    (acks : List Bit) (datas : List Tri) (hb : s.rsp.busy = true) (hl : s.lines.ls = .recv)
    (hh : s.lat.hst ≠ 0x00#8) (ht : s.seq.todo = .recvLoop n :: recvOne :: .latchDevchk :: .check :: k)
    (hn : s.hid.bidx.toNat + dropped.length = n.toNat) (ha : s.env.ackIn = ackEcho (dropped.length + 1) ++ acks)
    (hd : s.env.dataIn = samples (dropped ++ [d]) ++ datas) :
    EngineReaches s (dropped.flatMap receivedTrace ++ receivedTrace d)
      { s with
        lines.clkOut := 1#1,
        lat.chk := checksum s.lat.chk (dropped.map received), lat.devchk := received d, lat.pst := 0x00#8,
        rsp.done := false,
        hid.t0 := s.time.t100, hid.sr := received d, hid.phase := .p4, hid.bidx := n,
        seq.todo := k, seq.retStatus := 0x00#8, seq.retByte := received d,
        env.ackIn := acks, env.dataIn := datas, env.event := .quiet, env.polled := true } := by
  induction dropped generalizing s with
  | nil =>
    obtain rfl : s.hid.bidx = n := BitVec.eq_of_toNat_eq hn
    refine engineReaches_quiet (engineStep_outside_wait hb ht nofun rfl (recvLoop_ends (lt_irrefl _))) rfl ?_
    exact reaches_deviceChecksum (beginEngine true { s with seq.todo := recvOne :: .latchDevchk :: .check :: k })
      k acks d datas hb hl rfl ha hd
  | cons e rest ih =>
    rw [List.length_cons] at hn ha
    have hlt : s.hid.bidx.toNat < n.toNat := by omega
    have hbyte := reaches_byteDropped s n e _ (ackEcho (rest.length + 1) ++ acks) _ hb hl hh ht hlt ha hd
    rw [List.flatMap_cons, List.append_assoc]
    exact engineReaches_trans hbyte (ih _ hb hl hh rfl (toNat_index_next hn) rfl rfl)

/-- The data bytes the Host took, the one whose push fails, those dropped after it, and the Device's checksum. -/
theorem reaches_receiveData_pushFails (good : List Samples) (x : Samples) (dropped : List Samples) (s : State)
    (n c : Word) (h : Byte) (d : Samples) (k : List Micro) (acks : List Bit) (datas : List Tri) (pushes : List Byte)
    (hb : s.rsp.busy = true) (hl : s.lines.ls = .recv) (hh : s.lat.hst = 0x00#8) (hfail : h ≠ 0x00#8)
    (ht : s.seq.todo = .recvLoop n :: recvOne :: .latchDevchk :: .check :: k)
    (hn : s.hid.bidx.toNat + (good.length + (dropped.length + 1)) = n.toNat)
    (hc : s.blk.xferlen + BitVec.ofNat 16 good.length = c)
    (ha : s.env.ackIn = ackEcho (good.length + (dropped.length + 2)) ++ acks)
    (hd : s.env.dataIn = samples (good ++ x :: dropped ++ [d]) ++ datas)
    (hp : s.env.pushIn = List.replicate good.length 0x00#8 ++ h :: pushes) :
    EngineReaches s
      (pushedTrace good ++ (receivedTrace x ++ [.push (received x) h])
        ++ (dropped.flatMap receivedTrace ++ receivedTrace d))
      { s with
        lines.clkOut := 1#1,
        blk.crc16 := crcOver s.blk.crc16 (good.map received), blk.xferlen := c,
        lat.chk := checksum s.lat.chk ((good ++ x :: dropped).map received), lat.devchk := received d,
        lat.hst := h, lat.pst := 0x00#8, rsp.done := false,
        hid.t0 := s.time.t100, hid.sr := received d, hid.phase := .p4, hid.bidx := n,
        seq.todo := k, seq.retStatus := 0x00#8, seq.retByte := received d,
        env.ackIn := acks, env.dataIn := datas, env.pushIn := pushes, env.event := .quiet, env.polled := true } := by
  induction good generalizing s with
  | nil =>
    obtain rfl : s.blk.xferlen = c := by simpa using hc
    rw [List.length_nil, Nat.zero_add] at hn ha
    have hlt : s.hid.bidx.toNat < n.toNat := by omega
    have hfails := reaches_pushFails s n x h _ (ackEcho (dropped.length + 1) ++ acks) _ pushes hb hl hh hfail ht hlt
      ha hd hp
    exact engineReaches_trans hfails
      (reaches_dropData dropped _ n d k acks datas hb hl hfail rfl (toNat_index_next hn) rfl rfl)
  | cons e rest ih =>
    rw [List.length_cons, Nat.add_right_comm] at hn ha
    have hlt : s.hid.bidx.toNat < n.toNat := by omega
    have hbyte := reaches_dataByteReceived s n e _ (ackEcho (rest.length + (dropped.length + 2)) ++ acks) _ _
      hb hl hh ht hlt ha hd hp
    rw [pushedTrace_cons, List.append_assoc, List.append_assoc, ← List.append_assoc (pushedTrace rest)]
    exact engineReaches_trans hbyte
      (ih _ hb hl hh rfl (toNat_index_next hn) ((counted_next _ _).trans hc) rfl rfl rfl)

/-! ## The two frames when the Host fails (R84, R85, R177) -/

/-- The write frame: header, data up to the failing pull, fillers, the checksum of the bytes given, and the Device's. -/
theorem exec_wireWrite_pullFails (s : State) (mode bank : Byte) (offset length : Word) (good : List Byte) (x h : Byte)
    (d : Samples) (acks : List Bit) (datas : List Tri) (pulls : List (Byte × Byte)) (hb : s.rsp.busy = true)
    (hh : s.lat.hst = 0x00#8) (hlen : good.length < length.toNat) (hfail : h ≠ 0x00#8)
    (ha : s.env.ackIn = ackEcho (length.toNat + 9) ++ acks) (hd : s.env.dataIn = samples [d] ++ datas)
    (hp : s.env.pullIn = good.map (fun b => (b, 0x00#8)) ++ (x, h) :: pulls) :
    ∃ t, exec (.wireWrite mode bank offset length) s = .next t ∧
      EngineReaches t
        (.line .send :: headerTrace 0x02#8 mode bank offset length ++ pulledTrace good
          ++ .pull x h :: (List.replicate (length.toNat - good.length) (sentTrace 0x00#8)).flatten
          ++ sentTrace (checksum s.lat.chk good) ++ .line .recv :: receivedTrace d)
        { s with
          lines.ls := .recv, lines.dataOut := 0b111#3, lines.clkOut := 1#1,
          blk.crc16 := crcOver s.blk.crc16 good, blk.xferlen := s.blk.xferlen + BitVec.ofNat 16 good.length,
          lat.chk := checksum s.lat.chk good, lat.devchk := received d, lat.hst := h, lat.pst := 0x00#8,
          rsp.done := false,
          hid.t0 := s.time.t100, hid.sr := received d, hid.phase := .p4, hid.bidx := length,
          seq.retStatus := 0x00#8, seq.retByte := received d,
          env.ackIn := acks, env.dataIn := datas, env.pullIn := pulls, env.event := .quiet, env.polled := true } := by
  obtain ⟨m, hm⟩ : ∃ m, length.toNat = good.length + (m + 1) := ⟨length.toNat - good.length - 1, by omega⟩
  have hleft : length.toNat - good.length = m + 1 := by omega
  have hn : (0#16).toNat + (good.length + (m + 1)) = length.toNat := by rw [hm]; exact Nat.zero_add _
  have ha' : s.env.ackIn = ackEcho 7 ++ (ackEcho (good.length + (m + 2)) ++ (ackEcho 1 ++ acks)) := by
    rw [ha, hm, ← List.append_assoc, ← List.append_assoc, ← ackEcho_add, ← ackEcho_add]
    congr 2; omega
  refine ⟨_, rfl, ?_⟩
  have hhead := reaches_header (doNext (writeFrame mode bank offset length) s) wireOpWrite mode bank offset length
    _ _ hb rfl ha'
  have hstart := engineReaches_then_quiet hhead (engineStep_outside_wait hb rfl nofun rfl rfl) rfl
  have hdata := engineReaches_trans hstart
    (reaches_sendData_pullFails good m _ length _ x h _ _ pulls hb rfl hh hfail rfl hn rfl rfl hp)
  have hturn := engineReaches_trans hdata (reaches_line _ .recv _ hb rfl)
  have hend := engineReaches_trans hturn (reaches_deviceChecksum _ _ _ d datas hb rfl rfl rfl hd)
  rw [hleft]
  simp only [List.append_assoc, List.cons_append] at hend ⊢
  exact hend

/-- The read frame: header, turn-around, data up to the failing push, the bytes dropped, and the Device's checksum. -/
theorem exec_wireRead_pushFails (s : State) (mode bank : Byte) (offset length : Word) (good : List Samples)
    (x : Samples) (dropped : List Samples) (h : Byte) (d : Samples) (acks : List Bit) (datas : List Tri)
    (pushes : List Byte) (hb : s.rsp.busy = true) (hh : s.lat.hst = 0x00#8)
    (hlen : good.length + 1 + dropped.length = length.toNat) (hfail : h ≠ 0x00#8)
    (ha : s.env.ackIn = ackEcho (length.toNat + 8) ++ acks)
    (hd : s.env.dataIn = samples (good ++ x :: dropped ++ [d]) ++ datas)
    (hp : s.env.pushIn = List.replicate good.length 0x00#8 ++ h :: pushes) :
    ∃ t, exec (.wireRead mode bank offset length) s = .next t ∧
      EngineReaches t
        (.line .send :: headerTrace 0x01#8 mode bank offset length ++ .line .recv :: pushedTrace good
          ++ receivedTrace x ++ .push (received x) h :: dropped.flatMap receivedTrace ++ receivedTrace d)
        { s with
          lines.ls := .recv, lines.dataOut := 0b111#3, lines.clkOut := 1#1,
          blk.crc16 := crcOver s.blk.crc16 (good.map received),
          blk.xferlen := s.blk.xferlen + BitVec.ofNat 16 good.length,
          lat.chk := checksum s.lat.chk ((good ++ x :: dropped).map received), lat.devchk := received d,
          lat.hst := h, lat.pst := 0x00#8, rsp.done := false,
          hid.t0 := s.time.t100, hid.sr := received d, hid.phase := .p4, hid.bidx := length,
          seq.retStatus := 0x00#8, seq.retByte := received d,
          env.ackIn := acks, env.dataIn := datas, env.pushIn := pushes, env.event := .quiet, env.polled := true } := by
  have hn : (0#16).toNat + (good.length + (dropped.length + 1)) = length.toNat := by
    rw [← hlen, BitVec.toNat_zero]; omega
  have ha' : s.env.ackIn = ackEcho 7 ++ (ackEcho (good.length + (dropped.length + 2)) ++ acks) := by
    rw [ha, ← hlen, ← List.append_assoc, ← ackEcho_add]
    congr 2; omega
  refine ⟨_, rfl, ?_⟩
  have hhead := reaches_header (doNext (readFrame mode bank offset length) s) wireOpRead mode bank offset length
    _ _ hb rfl ha'
  have hturn := engineReaches_trans hhead (reaches_line _ .recv _ hb rfl)
  have hstart := engineReaches_then_quiet hturn (engineStep_outside_wait hb rfl nofun rfl rfl) rfl
  have hend := engineReaches_trans hstart
    (reaches_receiveData_pushFails good x dropped _ length _ h d _ _ _ pushes hb rfl hh hfail rfl hn rfl rfl hd hp)
  simp only [List.append_assoc, List.cons_append, List.nil_append] at hend ⊢
  exact hend

/-! ## A block command from its packet to its result (R134 to R137) -/

theorem blockReady_inside_bank {s : State} {offset length : Word} (hl : s.lines.ls = .off)
    (ho : offset.toNat < 0x4000) (hlen : offset.toNat + length.toNat ≤ 0x4000) :
    blockReady offset length s = true := by
  have hbank : blockOperandsOK offset length = true := blockOperandsOK_iff.mpr ⟨ho, by omega, hlen⟩
  simp [blockReady, hl, hbank]

theorem exec_sendBlock {s : State} {offset length : Word} (mode bank : Byte) (crc : Word)
    (h : blockReady offset length s = true) :
    exec (.sendBlock mode bank offset length crc) s =
      .next (accept (.wire (.wireWrite mode bank offset length) :: exitSteps .completeBlock)
        (loadBlock mode bank offset length crc s)) := if_pos h

theorem exec_recvBlock {s : State} {offset length : Word} (mode bank : Byte) (crc : Word)
    (h : blockReady offset length s = true) :
    exec (.recvBlock mode bank offset length crc) s =
      .next (accept (.wire (.wireRead mode bank offset length) :: exitSteps .completeBlock)
        (loadBlock mode bank offset length crc s)) := if_pos h

/-- With both the Host and the wires without a failure, the checksums decide. -/
theorem blockResult_answered (chk devchk : Byte) :
    blockResult { chk := chk, devchk := devchk, hst := 0x00#8, pst := 0x00#8 } =
      if devchk = chk then 0x00#8 else stChecksum := by
  simp [blockResult, stOk]

/-- A failure of the Host goes before everything else. -/
theorem blockResult_hostFailed {l : Latches} (h : l.hst ≠ 0x00#8) : blockResult l = l.hst := if_pos h

/-- The state in which a loaded block command's frame is issued. -/
def issuing (s : State) : State := beginEngine true (accept (exitSteps .completeBlock) s)

/-- The end of a block command whose frame left `u`: state Off, and `BlockResult()` as the status. -/
def blockCompleted (u : State) : State :=
  { u with
    lines.ls := .off, lines.dataOut := 0b111#3, lines.clkOut := 1#1,
    rsp.ill := false, rsp.busy := false, rsp.done := true, rsp.status := blockResult u.lat,
    seq.todo := [], env.event := .quiet, env.polled := true }

theorem reaches_blockCompleted (u : State) (hb : u.rsp.busy = true) (ht : u.seq.todo = exitSteps .completeBlock) :
    EngineReaches u offTrace (blockCompleted u) :=
  engineReaches_then_quiet (reaches_exit u .completeBlock hb ht) (engineStep_outside_wait hb rfl nofun rfl rfl) rfl

/-- A command taken as a loaded block runs as its frame does, and then completes in state Off. -/
theorem reaches_blockEnd {i w : Instr} {s loaded u v : State} {es : List Event}
    (htake : exec i s = .next (accept (.wire w :: exitSteps .completeBlock) loaded))
    (hframe : ∃ t, exec w (issuing loaded) = .next t ∧ EngineReaches t es u)
    (hb : u.rsp.busy = true) (ht : u.seq.todo = exitSteps .completeBlock) (hv : blockCompleted u = v) :
    ∃ t, exec i s = .next t ∧ EngineReaches t (es ++ offTrace) v := by
  obtain ⟨t, hexec, hrun⟩ := hframe
  obtain ⟨-, -, -, -, -, henv, -, -⟩ := exec_frame hexec
  have hissue : engineStep (accept (.wire w :: exitSteps .completeBlock) loaded) = .next t :=
    (engineStep_wire rfl rfl).trans hexec
  have hquiet : t.env.event = .quiet := by rw [henv]; rfl
  have hend := engineReaches_quiet hissue hquiet (engineReaches_trans hrun (reaches_blockCompleted u hb ht))
  exact ⟨_, htake, hv ▸ hend⟩

/-- Settles O30: the write frame from the loaded registers, and the checksums compared at its end. -/
theorem sendBlockCompletes : Obligations.SendBlockCompletes := by
  intro s mode bank offset length crc data d acks datas pulls hl ho hbank hlen ha hd hp
  refine reaches_blockEnd (exec_sendBlock mode bank crc (blockReady_inside_bank hl ho hbank))
    (wireWriteMovesTheBlock _ mode bank offset length data d acks datas pulls
      rfl rfl hlen ha hd hp) rfl rfl ?_
  simp [blockCompleted, issuing, beginEngine, accept, loadBlock, stOk, blockResult_answered, hl]

/-- Settles O31: the write frame with the Host's failure latched, which the result then is. -/
theorem sendBlockHostFailure : Obligations.SendBlockHostFailure := by
  intro s mode bank offset length crc good x h d acks datas pulls hl ho hbank hlen hfail ha hd hp
  refine reaches_blockEnd (exec_sendBlock mode bank crc (blockReady_inside_bank hl ho hbank))
    (exec_wireWrite_pullFails _ mode bank offset length good x h d acks datas pulls
      rfl rfl hlen hfail ha hd hp) rfl rfl ?_
  simp [blockCompleted, issuing, beginEngine, accept, loadBlock, stOk, blockResult_hostFailed, hfail, hl]

/-- Settles O32: the read frame from the loaded registers, and the checksums compared at its end. -/
theorem recvBlockCompletes : Obligations.RecvBlockCompletes := by
  intro s mode bank offset length crc data d acks datas pushes hl ho hbank hlen ha hd hp
  refine reaches_blockEnd (exec_recvBlock mode bank crc (blockReady_inside_bank hl ho hbank))
    (wireReadMovesTheBlock _ mode bank offset length data d acks datas pushes
      rfl rfl hlen ha hd hp) rfl rfl ?_
  simp [blockCompleted, issuing, beginEngine, accept, loadBlock, stOk, blockResult_answered, hl]

/-- Settles O33: the read frame with the Host's failure latched, which the result then is. -/
theorem recvBlockHostFailure : Obligations.RecvBlockHostFailure := by
  intro s mode bank offset length crc good x dropped h d acks datas pushes hl ho hbank hlen hfail ha hd hp
  refine reaches_blockEnd (exec_recvBlock mode bank crc (blockReady_inside_bank hl ho hbank))
    (exec_wireRead_pushFails _ mode bank offset length good x dropped h d acks datas pushes
      rfl rfl hlen hfail ha hd hp) rfl rfl ?_
  simp [blockCompleted, issuing, beginEngine, accept, loadBlock, stOk, blockResult_hostFailed, hfail, hl]

end Sys2Proof.Machine

/-! PROOF. GENERIC (44_dtvtrans_generic.md): the bytes it sends, its output loop by induction on the bytes still to come
(R145), and what its completion writes into `OUTCNT` and `OUTBUF`. -/

namespace Sys2Proof.Machine

open Sys2Proof.Safety

/-! ## The output of GENERIC (R145) -/

theorem storeOut_nil (old : Vector Byte 255) : storeOut [] old = old := by
  ext i hi
  simp [storeOut]

/-- The bytes fill `OUTBUF` from entry 0; the entries after them stay. -/
theorem toList_storeOut {bytes : List Byte} (old : Vector Byte 255) (h : bytes.length ≤ 255) :
    (storeOut bytes old).toList = bytes ++ old.toList.drop bytes.length := by
  apply List.ext_getElem
  · simp only [Vector.length_toList, List.length_append, List.length_drop]; omega
  · intro i hi _
    by_cases hin : i < bytes.length
    · simp [storeOut, hin]
    · have hentry : bytes.length + (i - bytes.length) = i := by omega
      simp [storeOut, List.getElem_append, hin, hentry]

theorem genLoop_ends (s : State) : genLoop 0#8 s = s := if_pos rfl

theorem genLoop_receives {m : Byte} (s : State) (hm : m ≠ 0#8) :
    genLoop m s = doNext [recvOne, .check, .genStore, .genLoop (m - 1#8)] s := if_neg hm

/-! ## GENERIC between two bytes -/

/-- GENERIC, taken in `s`, with every byte so far acknowledged: the line state, the byte moved last (`SR`), the byte
received last, the output so far, the answers still to come, the statements still to run, and the event just shown. -/
def exchanging (s : State) (l : LineState) (sr v : Byte) (out : List Byte) (acks : List Bit) (datas : List Tri)
    (k : List Micro) (e : Event) : State :=
  { s with
    lines.ls := l, lines.dataOut := 0b111#3, lines.clkOut := 1#1, lat.pst := 0x00#8,
    rsp.busy := true, rsp.done := false,
    hid.t0 := s.time.t100, hid.sr := sr, hid.phase := .p4,
    seq.todo := k, seq.retStatus := 0x00#8, seq.retByte := v, seq.out := out,
    env.ackIn := acks, env.dataIn := datas, env.event := e, env.polled := true }

section Exchange
variable {s : State} {sr v : Byte} {out : List Byte} {acks : List Bit} {datas : List Tri} {k : List Micro} {e : Event}

/-- The output loop: each byte becomes the last one received and joins the output. -/
theorem reaches_genLoop (reply : List Samples) {m : Byte} (hm : reply.length = m.toNat) :
    EngineReaches
      (exchanging s .recv sr v out (ackEcho reply.length ++ acks) (samples reply ++ datas) (.genLoop m :: k) e)
      (reply.flatMap receivedTrace)
      (exchanging s .recv ((reply.map received).getLastD sr) ((reply.map received).getLastD v)
        (out ++ reply.map received) acks datas k .quiet) := by
  induction reply generalizing sr v out m e with
  | nil =>
    obtain rfl : m = 0#8 := BitVec.eq_of_toNat_eq hm.symm
    rw [List.map_nil, List.append_nil]
    exact engineReaches_quiet (engineStep_outside_wait rfl rfl nofun rfl (genLoop_ends _)) rfl (engineReaches_refl _)
  | cons d rest ih =>
    rw [List.length_cons] at hm
    have hne : m ≠ 0#8 := by rintro rfl; exact Nat.succ_ne_zero _ hm
    have hleft : rest.length = (m - 1#8).toNat := by bv_omega
    have hloop := ih (sr := received d) (v := received d) (out := out ++ [received d]) (e := .quiet) hleft
    have hbyte := reaches_recvChecked
      (exchanging s .recv sr v out (ackEcho (rest.length + 1) ++ acks) (samples (d :: rest) ++ datas)
        (recvOne :: .check :: .genStore :: .genLoop (m - 1#8) :: k) .quiet)
      0#8 (.genStore :: .genLoop (m - 1#8) :: k) (ackEcho rest.length ++ acks) d (samples rest ++ datas)
      rfl rfl rfl rfl rfl
    have hstored := engineReaches_then_quiet hbyte (engineStep_outside_wait rfl rfl nofun rfl rfl) rfl
    rw [List.flatMap_cons, List.map_cons, List.getLastD_cons, List.getLastD_cons, List.append_cons]
    exact engineReaches_quiet (engineStep_outside_wait rfl rfl nofun rfl (genLoop_receives _ hne)) rfl
      (engineReaches_trans hstored hloop)

/-- The size byte: it becomes the count of the output loop and is not stored. -/
theorem reaches_genSize (size : Samples) :
    EngineReaches
      (exchanging s .recv sr v out (ackEcho 1 ++ acks) (samples [size] ++ datas)
        (recvOne :: .check :: .genSize :: k) e)
      (receivedTrace size)
      (exchanging s .recv (received size) (received size) out acks datas (.genLoop (received size) :: k) .quiet) :=
  engineReaches_then_quiet (reaches_recvChecked _ 0#8 (.genSize :: k) acks size datas rfl rfl rfl rfl rfl)
    (engineStep_outside_wait rfl rfl nofun rfl rfl) rfl

/-- The turn-around (R86). -/
theorem reaches_exchanging_recv :
    EngineReaches (exchanging s .send sr v out acks datas (.line .recv :: k) e) [.line .recv]
      (exchanging s .recv sr v out acks datas k (.line .recv)) :=
  reaches_line _ .recv k rfl rfl

end Exchange

/-! ## From the packet to the last byte sent (R145) -/

/-- GENERIC as it was taken: nothing of its pseudocode has run. -/
def genericTaken (cmd outSize : Byte) (ins : List Byte) (s : State) : State :=
  accept (genericBody cmd outSize ins) { s with lat.pst := 0x00#8 }

theorem exec_generic_off {s : State} {ins : List Byte} (cmd outSize : Byte) (hl : s.lines.ls = .off)
    (hins : ins = [] ∨ ins.length ≤ Config.genInMax) :
    exec (.generic cmd outSize ins) s = .next (genericTaken cmd outSize ins s) := by
  have hready : genericReady ins s = true := by simpa [genericReady, genericInputsOK, hl] using hins
  exact if_pos hready

/-- `StateSend()`, the command byte and the input bytes. -/
theorem reaches_inputsSent {s : State} {ins : List Byte} {acks : List Bit} (cmd outSize : Byte)
    (ha : s.env.ackIn = ackEcho (ins.length + 1) ++ acks) :
    EngineReaches (genericTaken cmd outSize ins s) (.line .send :: (cmd :: ins).flatMap sentTrace)
      (exchanging s .send ((cmd :: ins).getLast (by simp)) s.seq.retByte [] acks s.env.dataIn
        (genericReply outSize ++ exitSteps .completeGeneric) .quiet) := by
  have htodo : (genericTaken cmd outSize ins s).seq.todo =
      .line .send :: (sendBytes (cmd :: ins) ++ (genericReply outSize ++ exitSteps .completeGeneric)) := by
    simp [genericTaken, accept, genericBody]
  exact engineReaches_trans (reaches_line _ .send _ rfl htodo) (reaches_sendBytes ins _ cmd _ acks rfl rfl rfl ha)

/-! ## The reply of a generic frame (R86) -/

theorem genericReply_fixed {outSize : Byte} (h0 : outSize ≠ 0x00#8) (hv : outSize ≠ Config.vararg) :
    genericReply outSize = [.line .recv, .genLoop outSize] := (if_neg h0).trans (if_neg hv)

theorem genericReply_vararg : genericReply Config.vararg = [.line .recv, recvOne, .check, .genSize] :=
  (if_neg vararg_ne_zero).trans (if_pos rfl)

/-! ## The end of GENERIC (R145) -/

/-- The end of a GENERIC whose last byte left `u`: state Off, its output in `OUTCNT` and `OUTBUF`, `PST` the status. -/
def genericCompleted (u : State) : State :=
  { u with
    lines.ls := .off, lines.dataOut := 0b111#3, lines.clkOut := 1#1,
    rsp.ill := false, rsp.busy := false, rsp.done := true, rsp.status := u.lat.pst,
    rsp.outcnt := BitVec.ofNat 8 u.seq.out.length, rsp.outbuf := storeOut u.seq.out u.rsp.outbuf,
    seq.todo := [], env.event := .quiet, env.polled := true }

theorem reaches_genericCompleted (u : State) (hb : u.rsp.busy = true)
    (ht : u.seq.todo = exitSteps .completeGeneric) : EngineReaches u offTrace (genericCompleted u) :=
  engineReaches_then_quiet (reaches_exit u .completeGeneric hb ht) (engineStep_outside_wait hb rfl nofun rfl rfl) rfl

/-- GENERIC, taken in `s`, after its whole reply: the output is `bytes`, and `v` the byte received last. -/
def genericAnswered (s : State) (v : Byte) (bytes : List Byte) (acks : List Bit) (datas : List Tri) : State :=
  genericCompleted (exchanging s .recv v v bytes acks datas (exitSteps .completeGeneric) .quiet)

section Answered
variable {s : State} {v : Byte} {bytes : List Byte} {acks : List Bit} {datas : List Tri}

/-- The output loop and the way out, where `last` is the byte received last. -/
theorem reaches_genericAnswered (reply : List Samples) {m sr last : Byte} {e : Event} (hm : reply.length = m.toNat)
    (hsr : (reply.map received).getLastD sr = last) (hv : (reply.map received).getLastD v = last) :
    EngineReaches
      (exchanging s .recv sr v [] (ackEcho reply.length ++ acks) (samples reply ++ datas)
        (.genLoop m :: exitSteps .completeGeneric) e)
      (reply.flatMap receivedTrace ++ offTrace) (genericAnswered s last (reply.map received) acks datas) := by
  have hloop := reaches_genLoop (s := s) (sr := sr) (v := v) (out := []) (acks := acks) (datas := datas)
    (k := exitSteps .completeGeneric) (e := e) reply hm
  rw [hsr, hv] at hloop
  exact engineReaches_trans hloop (reaches_genericCompleted _ rfl rfl)

theorem genericAnswered_lines (hl : s.lines.ls = .off) :
    (genericAnswered s v bytes acks datas).lines = { s.lines with dataOut := 0b111#3, clkOut := 1#1 } := by
  simp [genericAnswered, genericCompleted, exchanging, hl]

theorem genericAnswered_rsp {m : Byte} (hm : bytes.length = m.toNat) :
    (genericAnswered s v bytes acks datas).rsp =
      { s.rsp with ill := false, status := 0x00#8, busy := false, done := true, outcnt := m,
                   outbuf := (genericAnswered s v bytes acks datas).rsp.outbuf } := by
  simp [genericAnswered, genericCompleted, exchanging, hm]

theorem genericAnswered_outbuf {m : Byte} (hm : bytes.length = m.toNat) :
    (genericAnswered s v bytes acks datas).rsp.outbuf.toList = bytes ++ s.rsp.outbuf.toList.drop m.toNat := by
  have hfits : bytes.length ≤ 255 := hm ▸ Nat.le_of_lt_succ m.isLt
  rw [← hm]
  exact toList_storeOut _ hfits

end Answered

/-! ## The three forms of GENERIC -/

/-- Settles O37: with no reply asked for, the way out follows the last byte sent, and the output is empty. -/
theorem genericWithoutReply : Obligations.GenericWithoutReply := by
  intro s cmd ins acks hl hins ha
  refine ⟨_, exec_generic_off cmd 0x00#8 hl hins, ?_⟩
  have hsent := reaches_inputsSent cmd 0x00#8 ha
  have hend := engineReaches_trans hsent (reaches_genericCompleted _ rfl rfl)
  simpa [genericCompleted, exchanging, storeOut_nil, hl] using hend

/-- Settles O38: after the turn-around the output loop receives the bytes asked for, at least one. -/
theorem genericWithFixedReply : Obligations.GenericWithFixedReply := by
  intro s cmd outSize ins reply acks datas hl hins h0 hv hlen ha hd
  have ha' : s.env.ackIn = ackEcho (ins.length + 1) ++ (ackEcho reply.length ++ acks) := by
    rw [ha, ackEcho_add, List.append_assoc, hlen]
  have hcount : (reply.map received).length = outSize.toNat := by rw [List.length_map, hlen]
  have hne : reply.map received ≠ [] := fun hnil => h0 (BitVec.eq_of_toNat_eq (by rw [← hcount, hnil]; rfl))
  have hlast : (reply.map received).getLast? = some ((reply.map received).getLast hne) :=
    List.getLast?_eq_some_getLast hne
  have hlastD (b : Byte) : (reply.map received).getLastD b = (reply.map received).getLast hne := by
    rw [List.getLastD_eq_getLast?, hlast, Option.getD_some]
  have hsent := reaches_inputsSent cmd outSize ha'
  rw [genericReply_fixed h0 hv, hd] at hsent
  have hturn := engineReaches_trans hsent reaches_exchanging_recv
  have hend := engineReaches_trans hturn (reaches_genericAnswered reply hlen (hlastD _) (hlastD _))
  refine ⟨_, genericAnswered s ((reply.map received).getLast hne) (reply.map received) acks datas,
    exec_generic_off cmd outSize hl hins, ?_, genericAnswered_lines hl, rfl, rfl, rfl, rfl,
    genericAnswered_rsp hcount, genericAnswered_outbuf hcount, rfl, hlast, rfl, rfl⟩
  simpa only [List.cons_append, List.nil_append, List.append_assoc, List.flatMap_cons] using hend

/-- Settles O39: after the turn-around the size byte is received, and the output loop runs as often as it says; with
size 0 it stays the byte received last. -/
theorem genericWithSizedReply : Obligations.GenericWithSizedReply := by
  intro s cmd ins size reply acks datas hl hins hlen ha hd
  have ha' : s.env.ackIn = ackEcho (ins.length + 1) ++ (ackEcho 1 ++ (ackEcho reply.length ++ acks)) := by
    rw [ha, hlen, ← List.append_assoc, ← List.append_assoc, ← ackEcho_add, ← ackEcho_add]
  have hcount : (reply.map received).length = (received size).toNat := by rw [List.length_map, hlen]
  have hlast : ((size :: reply).map received).getLast? = some ((reply.map received).getLastD (received size)) := by
    rw [List.map_cons, List.getLast?_cons, List.getLastD_eq_getLast?]
  have hsent := reaches_inputsSent cmd Config.vararg ha'
  rw [genericReply_vararg, hd] at hsent
  have hturn := engineReaches_trans hsent reaches_exchanging_recv
  have hsize := engineReaches_trans hturn (reaches_genSize (datas := samples reply ++ datas) size)
  have hend := engineReaches_trans hsize (reaches_genericAnswered reply hlen rfl rfl)
  refine ⟨_, genericAnswered s ((reply.map received).getLastD (received size)) (reply.map received) acks datas,
    exec_generic_off cmd Config.vararg hl hins, ?_, genericAnswered_lines hl, rfl, rfl, rfl, rfl,
    genericAnswered_rsp hcount, genericAnswered_outbuf hcount, rfl, hlast, rfl, rfl⟩
  simpa only [List.cons_append, List.nil_append, List.append_assoc, List.flatMap_cons] using hend

end Sys2Proof.Machine

/-! PROOF. Parameter access (45_params.md): PARAM_WR and PARAM_RD from their packet to their completion (R150, R151), and
the parameter registers along every step: a write stands in `SEQ` only where a PARAM_WR runs, so nothing else but the
block reset writes one (R152). -/

namespace Sys2Proof.Machine

open Sys2Proof.Safety

/-! ## Indices of parameter registers (R27) -/

theorem paramOfIndex_reserved {idx : Byte} (h : 5 < idx.toNat) : paramOfIndex idx = none := by
  unfold paramOfIndex
  split
  case h_7 => rfl
  all_goals omega

theorem index_cases {idx : Byte} (h : idx.toNat ≤ 5) :
    idx = 0#8 ∨ idx = 1#8 ∨ idx = 2#8 ∨ idx = 3#8 ∨ idx = 4#8 ∨ idx = 5#8 := by
  bv_omega

/-- The register an index up to 5 names, as the rules for reading and writing it list them (R150, R151). -/
theorem paramOfIndex_named {idx : Byte} (h : idx.toNat ≤ 5) (p : Params) (val : Word) :
    ∃ q, paramOfIndex idx = some q ∧
      p.set q val =
        { waitAck := if idx = 0#8 then val else p.waitAck
          recvDelay := if idx = 1#8 then val else p.recvDelay
          aliveDelay := if idx = 2#8 then val else p.aliveDelay
          aliveRepeat := if idx = 3#8 then val else p.aliveRepeat
          resetPre := if idx = 4#8 then val else p.resetPre
          resetHold := if idx = 5#8 then val else p.resetHold } ∧
      p.get q = if idx = 0#8 then p.waitAck else if idx = 1#8 then p.recvDelay
        else if idx = 2#8 then p.aliveDelay else if idx = 3#8 then p.aliveRepeat
        else if idx = 4#8 then p.resetPre else p.resetHold := by
  rcases index_cases h with rfl | rfl | rfl | rfl | rfl | rfl <;> exact ⟨_, rfl, rfl, rfl⟩

/-! ## The two commands from packet to completion (R150, R151) -/

theorem exec_paramWr {idx : Byte} {q : Param} (hq : paramOfIndex idx = some q) (val : Word) (s : State) :
    exec (.paramWr idx val) s = .next (accept [.paramWr q val, .completeOk] s) := by
  simp only [exec, execParamWr, hq]

theorem exec_paramRd {idx : Byte} {q : Param} (hq : paramOfIndex idx = some q) (s : State) :
    exec (.paramRd idx) s = .next (accept [.completeWord q] s) := by
  simp only [exec, execParamRd, hq]

theorem exec_paramWr_reserved {idx : Byte} (h : 5 < idx.toNat) (val : Word) (s : State) :
    exec (.paramWr idx val) s = .next (reject s) := by
  simp only [exec, execParamWr, paramOfIndex_reserved h]

theorem exec_paramRd_reserved {idx : Byte} (h : 5 < idx.toNat) (s : State) :
    exec (.paramRd idx) s = .next (reject s) := by
  simp only [exec, execParamRd, paramOfIndex_reserved h]

/-- A PARAM_WR once taken: the write of its register, and `complete(ST_OK)`. -/
theorem reaches_paramWritten (s : State) (q : Param) (val : Word) :
    EngineReaches (accept [.paramWr q val, .completeOk] s) []
      { s with
        par := s.par.set q val,
        rsp.ill := false, rsp.status := 0x00#8, rsp.busy := false, rsp.done := true,
        seq.todo := [], seq.retStatus := 0x00#8, seq.out := [], env.event := .quiet, env.polled := true } :=
  engineReaches_quiet (engineStep_outside_wait rfl rfl nofun rfl rfl) rfl (reaches_completeOk _ rfl rfl)

/-- A PARAM_RD once taken: `RWORD` and the completion in one step. -/
theorem reaches_paramRead (s : State) (q : Param) :
    EngineReaches (accept [.completeWord q] s) []
      { s with
        rsp.rword := s.par.get q,
        rsp.ill := false, rsp.status := 0x00#8, rsp.busy := false, rsp.done := true,
        seq.todo := [], seq.retStatus := 0x00#8, seq.out := [], env.event := .quiet, env.polled := true } :=
  engineReaches_quiet (engineStep_outside_wait rfl rfl nofun rfl rfl) rfl (engineReaches_refl _)

/-- Settles O40: a reserved index is refused, and any other names the one register that is written. -/
theorem paramWrCompletes : Obligations.ParamWrCompletes := by
  refine ⟨fun _ _ => rfl, fun s idx val h => refused_of_exec (exec_paramWr_reserved h val s), ?_⟩
  intro s idx val h
  obtain ⟨q, hq, hset, -⟩ := paramOfIndex_named h s.par val
  refine ⟨_, exec_paramWr hq val s, rfl, ?_⟩
  rw [← hset]
  exact reaches_paramWritten s q val

/-- Settles O41: a reserved index is refused, and any other names the register that `RWORD` takes. -/
theorem paramRdCompletes : Obligations.ParamRdCompletes := by
  refine ⟨fun _ => rfl, fun s idx h => refused_of_exec (exec_paramRd_reserved h s), ?_⟩
  intro s idx h
  obtain ⟨q, hq, -, hget⟩ := paramOfIndex_named h s.par 0#16
  refine ⟨_, exec_paramRd hq s, rfl, ?_⟩
  rw [← hget]
  exact reaches_paramRead s q

/-- A PARAM_RD reads the register its index names, whatever else the state holds. -/
theorem paramReads_of_get {idx : Byte} {q : Param} {v : Word} {r : State} (hq : paramOfIndex idx = some q)
    (hv : r.par.get q = v) : ParamReads idx v r :=
  ⟨_, _, exec_paramRd hq r, reaches_paramRead r q, rfl, hv⟩

/-! ## Where a write of a parameter register stands in `SEQ` -/

theorem mem_of_mem_dropToByteEnd {m : Micro} {k : List Micro} (h : m ∈ dropToByteEnd k) : m ∈ k := by
  fun_induction dropToByteEnd k with
  | case1 => exact h
  | case2 rx k => exact h
  | case3 x k _ ih => exact List.mem_cons_of_mem x (ih h)

theorem mem_of_mem_dropToExit {m : Micro} {k : List Micro} (h : m ∈ dropToExit k) : m ∈ k := by
  fun_induction dropToExit k with
  | case1 => exact h
  | case2 k => exact h
  | case3 x k _ ih => exact List.mem_cons_of_mem x (ih h)

section Writes
variable {q : Param} {v : Word}

theorem paramWr_not_mem_sendBytes (bs : List Byte) : .paramWr q v ∉ sendBytes bs := by
  induction bs with
  | nil => exact List.not_mem_nil
  | cons b rest ih => simpa [sendBytes] using ih

/-- What a statement pushes are waits and loops over bytes. -/
theorem paramWr_not_mem_pushes {m : Micro} {l : List Micro} (h : Pushes m l) : .paramWr q v ∉ l := by
  cases h <;> simp [recvOne]

/-- As a command goes on, a write that is still ahead was ahead before. -/
theorem paramWr_mem_of_continues {m : Micro} {k k' : List Micro} (h : Continues m k k') (hw : .paramWr q v ∈ k') :
    .paramWr q v ∈ k := by
  cases h with
  | rest => exact hw
  | pushes hp => exact (List.mem_append.mp hw).resolve_left (paramWr_not_mem_pushes hp)
  | byteFails _ => exact mem_of_mem_dropToByteEnd hw
  | aborts _ => exact mem_of_mem_dropToExit hw

/-- No frame and no byte writes a parameter register. -/
theorem paramWr_not_mem_wireBody (l : LineState) (i : Instr) : .paramWr q v ∉ wireBody l i := by
  cases i with
  | wireRead mode bank offset length => simp [wireBody, readFrame, recvOne, paramWr_not_mem_sendBytes]
  | wireWrite mode bank offset length => simp [wireBody, writeFrame, recvOne, paramWr_not_mem_sendBytes]
  | wireByteNormal b => cases l <;> simp [wireBody, txByte, txPhase, rxByte, rxPhase]
  | wireByteBoot b => simp [wireBody, txByte, txPhase]
  | _ => exact List.not_mem_nil

theorem paramWr_not_mem_genericBody (cmd outSize : Byte) (ins : List Byte) :
    .paramWr q v ∉ genericBody cmd outSize ins := by
  have hreply : .paramWr q v ∉ genericReply outSize := by
    unfold genericReply
    split_ifs <;> simp [recvOne]
  simp [genericBody, exitSteps, idleLatches, hreply, paramWr_not_mem_sendBytes]

theorem paramWr_not_mem_resetBody (mode : Byte) : .paramWr q v ∉ resetBody mode := by
  have hknock : .paramWr q v ∉ knockSteps mode := by
    unfold knockSteps
    split_ifs <;> simp [tickWait]
  simp [resetBody, tickWait, hknock]

/-- Of all commands PARAM_WR alone writes a parameter register, the one its index names (R150). -/
theorem paramWr_of_mem_commandBody {i : Instr} (h : .paramWr q v ∈ commandBody i) :
    ∃ idx, i = .paramWr idx v ∧ paramOfIndex idx = some q := by
  cases i with
  | paramWr idx val =>
    cases hp : paramOfIndex idx with
    | none => simp [commandBody, hp] at h
    | some p =>
      obtain ⟨rfl, rfl⟩ : q = p ∧ v = val := by simpa [commandBody, hp] using h
      exact ⟨idx, rfl, hp⟩
  | paramRd idx => cases hp : paramOfIndex idx <;> simp [commandBody, hp] at h
  | generic cmd outSize ins => exact absurd h (paramWr_not_mem_genericBody cmd outSize ins)
  | resetDevice mode => exact absurd h (paramWr_not_mem_resetBody mode)
  | isAlive timeout => simp [commandBody, aliveBody, aliveLevelSteps, exitSteps, idleLatches] at h
  | _ => simp [commandBody, exitSteps, idleLatches, recvOne] at h

end Writes

/-! ## The invariant -/

/-- A write of a parameter register is ahead only where a PARAM_WR of that register and value runs. -/
def writesOwn (s : State) : Prop :=
  ∀ q v, .paramWr q v ∈ s.seq.todo →
    ∃ idx, decodePacket s.seq.packet = .ok (.paramWr idx v) ∧ paramOfIndex idx = some q

theorem paramInv_iff (s : State) : ParamInv s ↔ SeqInv s ∧ writesOwn s := Iff.rfl

theorem writesOwn_of_no_write {s : State} (h : ∀ q v, .paramWr q v ∉ s.seq.todo) : writesOwn s :=
  fun q v hw => absurd hw (h q v)

/-- An idle Engine puts a write into `SEQ` only by taking the PARAM_WR it belongs to. -/
theorem engineStep_idle_writesOwn {s t : State} (hb : s.rsp.busy = false) (hs : s.seq.todo = [])
    (h : engineStep s = .next t) : writesOwn t := by
  rcases engineStep_idle_cases hb h with ⟨-, rfl⟩ | ⟨p, rest, -, ⟨i, hi, hx⟩ | ⟨e, -, rfl⟩⟩
  · exact writesOwn_of_no_write (by simp [hs])
  · obtain ⟨op, hop, -⟩ := decodePacket_opcode hi
    obtain ⟨-, -, hpacket, -⟩ := exec_frame hx
    obtain ⟨-, -, htodo | ⟨htodo, -⟩⟩ := takenFrom_of_exec hop hx
    · exact writesOwn_of_no_write (by simp [htodo])
    · intro q v hw
      rw [htodo] at hw
      obtain ⟨idx, rfl, hq⟩ := paramWr_of_mem_commandBody hw
      exact ⟨idx, by rw [hpacket]; exact hi, hq⟩
  · exact writesOwn_of_no_write (by simp)

/-- A write that is ahead after an Engine step of a running command was ahead before it. -/
theorem engineStep_busy_paramWr_mem {s t : State} {q : Param} {v : Word} (hb : s.rsp.busy = true) (hinv : SeqInv s)
    (h : engineStep s = .next t) (hw : .paramWr q v ∈ t.seq.todo) : .paramWr q v ∈ s.seq.todo := by
  rcases engineStep_busy_outcome hb h with ⟨i, k, hk, hx⟩ | ⟨m, k, hk, -, -, -, hnext, -⟩ |
      ⟨m, k, hk, -, -, -, hgoes⟩
  · rw [seqInv_of_busy hb, hk, seqOk_wire, Bool.and_eq_true] at hinv
    obtain ⟨u, hu, -, -, hnext⟩ := exec_wire (s := beginEngine true { s with seq.todo := k }) hinv.1
    cases hu.symm.trans hx
    rw [hnext, List.mem_append] at hw
    rw [hk]
    exact List.mem_cons_of_mem _ (hw.resolve_left (paramWr_not_mem_wireBody _ i))
  · rw [hnext] at hw
    cases hw
  · rw [hk]
    exact List.mem_cons_of_mem m (paramWr_mem_of_continues hgoes hw)

theorem engineStep_paramInv {s t : State} (hs : ParamInv s) (h : engineStep s = .next t) : ParamInv t := by
  obtain ⟨hinv, hown⟩ := hs
  obtain ⟨u, hu, hnext⟩ := engineStep_seqInv hinv
  cases hu.symm.trans h
  refine ⟨hnext, ?_⟩
  cases hb : s.rsp.busy with
  | false => exact engineStep_idle_writesOwn hb ((seqInv_of_idle hb).mp hinv).1 h
  | true =>
    intro q v hw
    rw [(engineStep_busy_packet h hb).1]
    exact hown q v (engineStep_busy_paramWr_mem hb hinv h hw)

/-- The invariant looks at `BUSY`, `SEQ` and the lines alone. -/
theorem paramInv_congr {s t : State} (hb : t.rsp.busy = s.rsp.busy) (hq : t.seq = s.seq) (hl : t.lines = s.lines) :
    ParamInv t ↔ ParamInv s := by
  rw [paramInv_iff, paramInv_iff, writesOwn, writesOwn, seqInv_congr hb (congrArg _ hq) hl, hq]

theorem step_paramInv {s t : State} (hs : ParamInv s) (h : step s = .next t) : ParamInv t := by
  obtain ⟨u, sched, draws, rfl, hcase⟩ := step_cases h
  have hu : ParamInv { s with env.sched := sched, env.draws := draws } := (paramInv_congr rfl rfl rfl).mpr hs
  rcases hcase with hengine | ⟨-, rfl⟩ | ⟨m, rfl⟩ | ⟨m, rfl⟩ | rfl
  · exact engineStep_paramInv hu hengine
  · exact (paramInv_congr rfl rfl rfl).mpr hu
  · exact (paramInv_congr (by simp) (by simp) (by simp)).mpr hu
  · exact (paramInv_congr (by simp) (by simp) (by simp)).mpr hu
  · exact ⟨⟨rfl, rfl⟩, writesOwn_of_no_write fun _ _ => List.not_mem_nil⟩

/-! ## Who writes a parameter register (R152) -/

/-- An Engine step leaves the parameter registers alone or runs the one statement that writes one. -/
theorem engineStep_par {s t : State} (h : engineStep s = .next t) :
    t.par = s.par ∨
      s.rsp.busy = true ∧ ∃ q v, .paramWr q v ∈ s.seq.todo ∧ t.par = s.par.set q v := by
  cases hb : s.rsp.busy with
  | false =>
    rcases engineStep_idle_cases hb h with ⟨-, rfl⟩ | ⟨p, rest, -, ⟨i, -, hx⟩ | ⟨e, -, rfl⟩⟩
    · exact .inl rfl
    · obtain ⟨-, -, -, hpar, -⟩ := exec_frame hx
      exact .inl hpar
    · exact .inl rfl
  | true =>
    rcases engineStep_busy_cases hb h with ⟨i, k, -, hx⟩ | ⟨m, k, hk, -, rfl⟩
    · obtain ⟨-, -, -, hpar, -⟩ := exec_frame hx
      exact .inl hpar
    · by_cases hm : ∃ q v, m = .paramWr q v
      · obtain ⟨q, v, rfl⟩ := hm
        exact .inr ⟨rfl, q, v, by rw [hk]; exact List.mem_cons_self, rfl⟩
      · obtain ⟨-, hpar, -⟩ := runMicro_frame m (beginEngine (polledAfter m s.env.polled) { s with seq.todo := k })
        exact .inl (hpar fun q v hqv => hm ⟨q, v, hqv⟩)

/-- The same of every agent's step. -/
theorem step_par {s t : State} (h : step s = .next t) :
    t.par = s.par ∨ (t.env.event = .blockReset ∧ t.par = Params.reset) ∨
      s.rsp.busy = true ∧ ∃ q v, .paramWr q v ∈ s.seq.todo ∧ t.par = s.par.set q v := by
  obtain ⟨u, sched, draws, rfl, hcase⟩ := step_cases h
  rcases hcase with hengine | ⟨-, rfl⟩ | ⟨m, rfl⟩ | ⟨m, rfl⟩ | rfl
  · exact (engineStep_par hengine).imp_right .inr
  · exact .inl rfl
  · exact .inl (hostStep_par _ m)
  · exact .inl (deviceStep_par _ m)
  · exact .inr (.inl ⟨rfl, rfl⟩)

theorem step_blockReset {s : State} {ts : List Turn} (h : s.env.sched = .blockReset :: ts) :
    step s = .next (blockReset { s with env.sched := ts }) := by
  simp only [step, h, takeTurn]

/-- Settles O42: what PARAM_WR and the block reset leave in a register is what PARAM_RD reads there, and by the
invariant a register is written only by its own PARAM_WR. -/
theorem parameterReadAfterWrite : Obligations.ParameterReadAfterWrite := by
  refine ⟨?_, ?_, ?_⟩
  · intro s idx val q hq
    refine ⟨_, _, exec_paramWr hq val s, reaches_paramWritten s q val, rfl, fun r hr => ?_⟩
    exact paramReads_of_get hq (hr.trans (Params.get_set_same s.par q val))
  · intro s idx q ts hq hs
    refine ⟨_, step_blockReset hs, fun r hr => paramReads_of_get hq (hr.trans ?_)⟩
    cases q <;> rfl
  · intro s t hs h
    obtain ⟨-, hown⟩ := (paramInv_iff s).mp hs
    refine ⟨step_paramInv hs h, (step_par h).imp_right (.imp_right ?_)⟩
    rintro ⟨hb, q, v, hw, hpar⟩
    obtain ⟨idx, hpacket, hq⟩ := hown q v hw
    rw [hpar]
    exact ⟨hb, idx, v, q, hpacket, hq, Params.get_set_same s.par q v, fun _ => Params.get_set_other s.par v⟩

end Sys2Proof.Machine

/-! PROOF. The transfer core's splitting (R155): what one block is, that every block of a transfer is one, and that the
blocks in order run through the transfer's addresses. -/

namespace Sys2Proof.Machine

/-! ## One block -/

/-- Bank and offset are the two digits of the base, so the block begins there. -/
theorem nextRequest_start (base length blockSize : Nat) :
    (nextRequest base length blockSize).bank * bankSize + (nextRequest base length blockSize).offset = base :=
  Nat.div_add_mod' base bankSize

theorem nextRequest_offset_lt (base length blockSize : Nat) :
    (nextRequest base length blockSize).offset < bankSize :=
  Nat.mod_lt base (by decide)

/-- The room left in the bank bounds the length. -/
theorem nextRequest_end_le (base length blockSize : Nat) :
    (nextRequest base length blockSize).offset + (nextRequest base length blockSize).length ≤ bankSize := by
  have hroom := nextRequest_offset_lt base length blockSize
  simp only [nextRequest] at hroom ⊢
  omega

theorem nextRequest_length_le_blockSize (base length blockSize : Nat) :
    (nextRequest base length blockSize).length ≤ blockSize :=
  (Nat.min_le_right _ _).trans (Nat.min_le_left _ _)

theorem nextRequest_length_le (base length blockSize : Nat) :
    (nextRequest base length blockSize).length ≤ length :=
  Nat.min_le_left _ _

/-- An offset below the bank's end leaves room for a byte, so an iteration makes progress. -/
theorem nextRequest_length_pos {base length blockSize : Nat} (hl : length ≠ 0) (hb : 1 ≤ blockSize) :
    1 ≤ (nextRequest base length blockSize).length := by
  have hroom := nextRequest_offset_lt base length blockSize
  simp only [nextRequest] at hroom ⊢
  omega

/-! ## The blocks of a transfer -/

@[simp] theorem requests_length_zero (blockSize n base : Nat) : requests blockSize n base 0 = [] := by
  cases n <;> rfl

theorem requests_succ {length : Nat} (blockSize n base : Nat) (hl : length ≠ 0) :
    requests blockSize (n + 1) base length =
      nextRequest base length blockSize ::
        requests blockSize n (base + (nextRequest base length blockSize).length)
          (length - (nextRequest base length blockSize).length) :=
  if_neg hl

/-- Every block is what one iteration asks for while something is left. -/
theorem mem_requests {blockSize n base length : Nat} {r : BlockRequest} (h : r ∈ requests blockSize n base length) :
    ∃ b l, l ≠ 0 ∧ r = nextRequest b l blockSize := by
  induction n generalizing base length with
  | zero => cases h
  | succ n ih =>
    by_cases hl : length = 0
    · simp [hl] at h
    · rw [requests_succ blockSize n base hl] at h
      rcases List.mem_cons.mp h with hhead | htail
      · exact ⟨base, length, hl, hhead⟩
      · exact ih htail

/-- The addresses a block covers. -/
def BlockRequest.addresses (r : BlockRequest) : List Nat :=
  (List.range r.length).map fun j => r.bank * bankSize + r.offset + j

theorem nextRequest_addresses (base length blockSize : Nat) :
    (nextRequest base length blockSize).addresses = List.range' base (nextRequest base length blockSize).length := by
  rw [BlockRequest.addresses, nextRequest_start, List.range'_eq_map_range]

/-- With at least one iteration for every byte the loop runs to the transfer's end: each block takes up where the one
before it ended. -/
theorem requests_addresses {blockSize n length : Nat} (base : Nat) (hb : 1 ≤ blockSize) (hn : length ≤ n) :
    (requests blockSize n base length).flatMap BlockRequest.addresses = List.range' base length := by
  induction n generalizing base length with
  | zero => rw [Nat.le_zero.mp hn]; rfl
  | succ n ih =>
    by_cases hl : length = 0
    · simp [hl]
    · have hpos : 1 ≤ (nextRequest base length blockSize).length := nextRequest_length_pos hl hb
      have hle := nextRequest_length_le base length blockSize
      rw [requests_succ blockSize n base hl, List.flatMap_cons, nextRequest_addresses, ih _ (by omega),
        List.range'_append_1, Nat.add_sub_cancel' hle]

/-- Settles O60: every block is one iteration's request, which stays in its bank, and by induction on the number of
iterations the blocks' addresses follow each other without a gap. -/
theorem transferBlocksStayInOneBank : Obligations.TransferBlocksStayInOneBank := by
  intro base length blockSize hb
  constructor
  · intro r hr
    obtain ⟨b, l, hl, rfl⟩ := mem_requests hr
    exact ⟨nextRequest_offset_lt b l blockSize, nextRequest_end_le b l blockSize, nextRequest_length_pos hl hb,
      nextRequest_length_le_blockSize b l blockSize⟩
  · exact (requests_addresses base hb le_rfl).trans (List.range'_eq_map_range ..)

end Sys2Proof.Machine

/-! PROOF. A failed byte inside a block command or GENERIC (R175, R176): the abort path from the statement that sees the
status, and the way there from the poll that exceeds its budget; then the wait without a budget (R198) and the block reset
(R190). -/

namespace Sys2Proof.Machine

open Sys2Proof.Safety

/-! ## The abort path from the failed check (R176) -/

/-- A failure on the wires goes before the checksums, and a failure of the Host before it (R136, R175 e). -/
theorem blockResult_wireFailed {l : Latches} (h : l.pst ≠ 0x00#8) :
    blockResult l = if l.hst = 0x00#8 then l.pst else l.hst := by
  by_cases hh : l.hst = 0x00#8
  · rw [if_pos hh]
    exact (if_neg (not_not.mpr hh)).trans (if_pos h)
  · rw [if_neg hh]
    exact blockResult_hostFailed hh

section Check
variable {s : State} {k : List Micro} (hb : s.rsp.busy = true) (ht : s.seq.todo = .check :: k)
  (hfail : s.seq.retStatus ≠ 0x00#8)
include hb ht hfail

/-- A status other than `ST_OK` is latched in `PST`, and every statement before the exit is skipped. -/
theorem engineStep_check_failed :
    engineStep s = .next { s with
      lat.pst := s.seq.retStatus, rsp.done := false, seq.todo := dropToExit k, env.event := .quiet,
      env.polled := true } :=
  engineStep_outside_wait hb ht nofun rfl (if_neg hfail)

theorem reaches_genericAborted (hexit : dropToExit k = exitSteps .completeGeneric) :
    EngineReaches s offTrace (genericCompleted { s with lat.pst := s.seq.retStatus }) :=
  engineReaches_quiet (engineStep_check_failed hb ht hfail) rfl (reaches_genericCompleted _ hb hexit)

/-- The status of a block command is the Host's failure where one was latched before (R175 e). -/
theorem reaches_blockAborted (hexit : dropToExit k = exitSteps .completeBlock) :
    EngineReaches s offTrace
      { blockCompleted { s with lat.pst := s.seq.retStatus } with
        rsp.status := if s.lat.hst = 0x00#8 then s.seq.retStatus else s.lat.hst } := by
  have hend := engineReaches_quiet (engineStep_check_failed hb ht hfail) rfl (reaches_blockCompleted _ hb hexit)
  rw [blockCompleted, blockResult_wireFailed hfail] at hend
  exact hend

end Check

/-! ## From the failing poll to the check (R110, R113) -/

/-- Where the return of a failed byte leads from `u`: a receive (`rx`) returns a free value, which `DEVCHK` takes where
the byte was the Device's checksum (`sum`), and the check of the byte's status comes next. -/
def failedReturn (u : State) (rx sum : Bool) (k : List Micro) : State :=
  { u with
    lat.devchk := if sum then Config.freeByte u.env.draws else u.lat.devchk, rsp.done := false,
    seq.todo := .check :: k, seq.retByte := if rx then Config.freeByte u.env.draws else u.seq.retByte,
    env.draws := if rx then u.env.draws + 1 else u.env.draws, env.event := .quiet, env.polled := true }

theorem reaches_failedReturn {u : State} {k : List Micro} {rx sum : Bool} (hb : u.rsp.busy = true)
    (ht : u.seq.todo = .byteEnd rx :: (if sum then [.latchDevchk] else []) ++ .check :: k)
    (hfail : u.seq.retStatus ≠ stOk) (hsum : sum = true → rx = true) :
    EngineReaches u [] (failedReturn u rx sum k) := by
  cases rx with
  | false =>
    obtain rfl : sum = false := Bool.eq_false_iff.mpr (fun h => Bool.false_ne_true (hsum h))
    exact engineReaches_quiet (engineStep_outside_wait hb ht nofun rfl rfl) rfl (engineReaches_refl _)
  | true =>
    refine engineReaches_quiet (engineStep_outside_wait hb ht nofun rfl (byteEnd_failed hfail)) rfl ?_
    cases sum with
    | false => exact engineReaches_refl _
    | true =>
      exact engineReaches_quiet (engineStep_outside_wait (m := .latchDevchk) hb rfl nofun rfl rfl) rfl
        (engineReaches_refl _)

/-- Settles O34: the check of a failed status takes the abort path to the command's completion, and from the failing poll
only the return of the byte lies before that check. -/
theorem failedByteAbortsTheCommand : Obligations.FailedByteAbortsTheCommand := by
  refine ⟨fun s k hb ht hfail => ⟨reaches_genericAborted hb ht hfail, reaches_blockAborted hb ht hfail⟩, ?_⟩
  intro s a acks k k' rx sum hb ht ha hlevel hover hsum hk
  have hfail := noAck_ne_stOk s.hid.phase
  have hpoll := engineStep_poll_overdue hb ht ha hlevel hover
  have hcheck := engineReaches_shown hpoll rfl nofun (reaches_failedReturn hb hk hfail hsum)
  exact ⟨fun hexit => ⟨_, engineReaches_trans hcheck (reaches_genericAborted hb rfl hfail hexit)⟩,
    fun hexit => ⟨_, engineReaches_trans hcheck (reaches_blockAborted hb rfl hfail hexit)⟩⟩

/-! ## A wait without a budget (R198) -/

/-- Settles O21: no elapsed time on a 16-bit counter is more than `0xFFFF`. -/
theorem waitWithoutTimeout : Obligations.WaitWithoutTimeout := by
  intro s a acks k hb ht ha hlevel hlimit
  have hwithin : ¬ s.par.waitAck.toNat < (s.time.t100 - s.hid.t0).toNat := by
    rw [hlimit]
    exact Nat.not_lt.mpr (Nat.le_of_lt_succ (s.time.t100 - s.hid.t0).isLt)
  exact engineStep_poll_again hb ht ha hlevel hwithin

/-! ## The block reset (R190) -/

/-- Settles O54: the step is the block reset, which keeps `OUTBUF` and nothing else of the registers named. -/
theorem blockResetFromAnyState : Obligations.BlockResetFromAnyState :=
  fun _ _ hs => ⟨_, step_blockReset hs, rfl, rfl, rfl, rfl, rfl, rfl, rfl, rfl, rfl, rfl, rfl, rfl⟩

end Sys2Proof.Machine
